-- ==== Sys2Proof/Word.lean ====
section
/-! DEFINITION. The word types of the PSG engine: command bytes, and binary32 and binary64 values held as their
bit patterns (00_scope.md, Notation). -/

namespace Sys2Proof

/-- One command byte, or one byte of a host buffer. -/
abbrev Byte := BitVec 8

/-- A binary32 value, as its IEEE 754 bit pattern. -/
abbrev F32 := BitVec 32

/-- A binary64 value, as its IEEE 754 bit pattern. -/
abbrev F64 := BitVec 64

end Sys2Proof
end

