-- ==== Sys2Proof/Config.lean ====
section
/-! DEFINITION. What a construction fixes for the life of an instance (00_scope.md R6 to R10, 10_state.md R28, R29),
and the model's free values. -/

namespace Sys2Proof

/-- R7: the triple that tells the hardware families apart. The numbers are those a host passes, so they may be
illegal; `Variant.legal` (WellFormed.lean) is R28. -/
structure Variant where
  lfsrBits : Nat
  whiteTaps : Nat
  toneZeroValue : Nat
  deriving DecidableEq, Repr

/-- R8: Sega, 16-bit LFSR, taps at bits 0 and 3, register 0 reloads 1. -/
def Variant.sega : Variant := { lfsrBits := 16, whiteTaps := 0x0009, toneZeroValue := 1 }

/-- R8: TI, 15-bit LFSR, taps at bits 0 and 1, register 0 reloads 1024. -/
def Variant.ti : Variant := { lfsrBits := 15, whiteTaps := 0x0003, toneZeroValue := 1024 }

/-- R6: the four construction parameters. `clocks_per_sample` (R10) is computed from the first two
(`clocksPerSample`, Machine/Resampler.lean; log entry 8). -/
structure Config where
  clockFreq : Nat
  sampleRate : Nat
  bufferCapacity : Nat
  variant : Variant
  deriving DecidableEq, Repr

/-- The configuration of `State.reset`. DESIGN CHOICE (log entry 2): the spec fixes none; these are the settings its
test vectors use (95_test_vectors.md, preamble). -/
def Config.standard : Config :=
  { clockFreq := 3579545, sampleRate := 48000, bufferCapacity := 1024, variant := Variant.sega }

/-- Free value (log entry 7): sign and payload of the NaN that a binary32 operation `op` on `x` and `y` gives where
IEEE 754 makes the result a NaN. The spec states no NaN bits, and no reachable state meets one. -/
opaque Config.freeNaN32 : Nat → F32 → F32 → BitVec 23

/-- Free value (log entry 7): the same for binary64 operations. -/
opaque Config.freeNaN64 : Nat → F64 → F64 → BitVec 52

end Sys2Proof
end

