-- ==== Sys2Proof/Syntax.lean ====
section
/-! DEFINITION. The command set (one constructor per row of spec/opcode_table.json), the host transactions
(00_scope.md R11), and the spec's assembler lines (30_encoding.md R54, R55). -/

namespace Sys2Proof

/-- The nine command forms (30_encoding.md R51). `d` is the data nibble of format L (R48), or the six data bits of
format D (R49), where `x` is the ignored bit 6, kept so that encoding and decoding lose no bit. -/
inductive Instr where
  | latchT0 (d : BitVec 4)
  | latchV0 (d : BitVec 4)
  | latchT1 (d : BitVec 4)
  | latchV1 (d : BitVec 4)
  | latchT2 (d : BitVec 4)
  | latchV2 (d : BitVec 4)
  | latchN (d : BitVec 4)
  | latchV3 (d : BitVec 4)
  | data (x : Bool) (d : BitVec 6)
  deriving DecidableEq, Repr

/-- The host transactions of 00_scope.md R11, with the operands a host passes. Counts and indices are integers, so
that the values R110 and R111 fault on or refuse can be written down (log entry 6). -/
inductive Transaction where
  /-- R118: `new(clock_freq, sample_rate, buffer_capacity, variant)`. -/
  | construct (clockFreq sampleRate bufferCapacity : Int) (variant : Variant)
  /-- R56: one command byte to the write port. -/
  | write (b : Byte)
  /-- R66. -/
  | clock
  /-- R89. -/
  | run (clocks : Int)
  /-- R90. -/
  | generateSamples (clocks : Int)
  /-- R91. -/
  | resetBuffer
  /-- R119. -/
  | reset
  /-- R84. -/
  | sample
  /-- R85. -/
  | setGain (g : F32)
  /-- R85. -/
  | getGain
  /-- R94. -/
  | clocksPerSample
  /-- R92. -/
  | channelBuffer (ch : Int)
  /-- R93. -/
  | mixedBuffer
  /-- R97. -/
  | serializeSize
  /-- R100, with the host's byte buffer as it is before the call. -/
  | serialize (buf : List Byte)
  /-- R101, with the host's byte buffer. -/
  | deserialize (buf : List Byte)
  /-- R104: `tone_reg(ch)`. -/
  | toneRegister (ch : Int)
  /-- R104: `volume(ch)`. -/
  | volumeRegister (ch : Int)
  /-- R104: `noise_reg()`. -/
  | noiseRegister
  /-- R104: `noise_shift()`. -/
  | noiseShiftRegister
  /-- R105. -/
  | volumeTable
  /-- R111, D25: a second agent issues a transaction while one is in progress (log entry 5). -/
  | secondAgent
  deriving DecidableEq, Repr

/-- The lines of the spec's assembler: command mnemonics and host transactions (R54), pseudo-instructions (R55).
Operands are plain numbers; `AsmLine.wf` (WellFormed.lean) is the range each line gives them. -/
inductive AsmLine where
  | latchT0 (d : Nat)
  | latchT1 (d : Nat)
  | latchT2 (d : Nat)
  | latchN (d : Nat)
  | latchV0 (d : Nat)
  | latchV1 (d : Nat)
  | latchV2 (d : Nat)
  | latchV3 (d : Nat)
  | data (d : Nat)
  | dataX (d : Nat)
  | clock (n : Nat)
  | run (n : Nat)
  | gen (n : Nat)
  | resetBuf
  | reset
  | sample
  | gain (g : F32)
  | save (buf : List Byte)
  | load (img : List Byte)
  | tone (ch n : Nat)
  | noise (m r : Nat)
  | vol (ch a : Nat)
  | tick (k : Nat)
  deriving DecidableEq, Repr

end Sys2Proof
end

