-- ==== Sys2Proof/WellFormed.lean ====
section
/-! DEFINITION. The checks on what a host may write or pass: construction parameters (00_scope.md R6, 10_state.md
R28), clock counts (D24), channel indices (60_exceptions.md R110), assembler operands (30_encoding.md R54, R55). -/

namespace Sys2Proof

/-- R28: when a variant may be constructed. -/
abbrev Variant.legal (v : Variant) : Prop :=
  (v.lfsrBits = 15 ∨ v.lfsrBits = 16) ∧ (v.toneZeroValue = 1 ∨ v.toneZeroValue = 1024) ∧
    v.whiteTaps < 2 ^ v.lfsrBits ∧ v.whiteTaps % 2 = 1

/-- R6, D12: `clock_freq`, `sample_rate` and `buffer_capacity` lie in 1 ..= 2^32 - 1. -/
abbrev parameterLegal (n : Int) : Prop := 1 ≤ n ∧ n ≤ 2 ^ 32 - 1

/-- R6: the configurations an instance can have. -/
abbrev Config.legal (c : Config) : Prop :=
  parameterLegal c.clockFreq ∧ parameterLegal c.sampleRate ∧ parameterLegal c.bufferCapacity ∧ c.variant.legal

/-- R89, D24: a clock count is a natural number 0 ..= 2^32 - 1. -/
abbrev clockCountLegal (n : Int) : Prop := 0 ≤ n ∧ n ≤ 2 ^ 32 - 1

/-- R110: a channel index within the range 0 ..= `count` - 1 of its accessor. -/
abbrev channelLegal (count : Nat) (ch : Int) : Prop := 0 ≤ ch ∧ ch < count

/-- R85, D14: a binary32 that is neither a NaN nor an infinity (its exponent field is not all ones). -/
abbrev gainLegal (g : F32) : Prop := g.extractLsb' 23 8 ≠ 0xFF#8

/-- R52: no command is illegal or reserved. The operand types already hold exactly the values the encodings admit
(R48, R49), so the range checks below hold of every term. -/
def Instr.wf : Instr → Bool
  | .latchT0 d | .latchT1 d | .latchT2 d | .latchN d => decide (d.toNat ≤ 15)
  | .latchV0 d | .latchV1 d | .latchV2 d | .latchV3 d => decide (d.toNat ≤ 15)
  | .data _ d => decide (d.toNat ≤ 63)

/-- The operands for which a transaction neither faults (R110) nor is refused (R111). -/
def Transaction.wf : Transaction → Bool
  | .construct cf sr cap v =>
    decide (parameterLegal cf ∧ parameterLegal sr ∧ parameterLegal cap ∧ v.legal)
  | .run n | .generateSamples n => decide (clockCountLegal n)
  | .setGain g => decide (gainLegal g)
  | .channelBuffer ch => decide (channelLegal 4 ch)
  | .toneRegister ch => decide (channelLegal 3 ch)
  | .volumeRegister ch => decide (channelLegal 4 ch)
  | .secondAgent => false
  | .write _ | .clock | .resetBuffer | .reset | .sample | .getGain | .clocksPerSample | .mixedBuffer => true
  | .serializeSize | .serialize _ | .deserialize _ => true
  | .noiseRegister | .noiseShiftRegister | .volumeTable => true

/-- R54, R55: the operand ranges of an assembler line. -/
def AsmLine.wf : AsmLine → Bool
  | .latchT0 d | .latchT1 d | .latchT2 d | .latchN d => decide (d ≤ 15)
  | .latchV0 d | .latchV1 d | .latchV2 d | .latchV3 d => decide (d ≤ 15)
  | .data d | .dataX d => decide (d ≤ 63)
  | .tone ch n => decide (ch ≤ 2 ∧ n ≤ 1023)
  | .noise m r => decide (m ≤ 1 ∧ r ≤ 3)
  | .vol ch a => decide (ch ≤ 3 ∧ a ≤ 15)
  | .run n | .gen n => decide (clockCountLegal n)
  | .gain g => decide (gainLegal g)
  | .clock _ | .tick _ | .resetBuf | .reset | .sample | .save _ | .load _ => true

end Sys2Proof
end

