-- ==== Sys2Proof/Decode.lean ====
section
/-! DEFINITION. Decoding of command bytes (30_encoding.md R47 to R52), total, and the encoder written from the same
tables. -/

namespace Sys2Proof

/-- The one reason a byte stream has no next command: R52 makes every byte a command, so only its end stops. -/
inductive DecodeReject where
  | endOfStream
  deriving DecidableEq, Repr

/-- R48: the eight format L forms, selected by `CC` (bits 6:5) and `T` (bit 4). -/
def decodeLatch (cc : BitVec 2) (t : Bool) (d : BitVec 4) : Instr :=
  match cc.toNat, t with
  | 0, false => .latchT0 d
  | 1, false => .latchT1 d
  | 2, false => .latchT2 d
  | _, false => .latchN d
  | 0, true => .latchV0 d
  | 1, true => .latchV1 d
  | 2, true => .latchV2 d
  | _, true => .latchV3 d

/-- R47: bit 7 selects the format; every one of the 256 values is a command (R52). -/
def decodeByte (b : Byte) : Instr :=
  if b.getLsbD 7 then
    decodeLatch (b.extractLsb' 5 2) (b.getLsbD 4) (b.extractLsb' 0 4)
  else
    .data (b.getLsbD 6) (b.extractLsb' 0 6)

/-- The next command of a byte stream, and the rest of the stream. -/
def decode : List Byte → Except DecodeReject (Instr × List Byte)
  | [] => .error .endOfStream
  | b :: rest => .ok (decodeByte b, rest)

/-- A whole byte stream, command by command (R53: every byte stands alone). -/
def decodeStream : List Byte → List Instr
  | [] => []
  | b :: rest => decodeByte b :: decodeStream rest

/-- R48: `1 CC T DDDD`. -/
def encodeLatch (cc : BitVec 2) (t : Bool) (d : BitVec 4) : Byte :=
  1#1 ++ cc ++ BitVec.ofBool t ++ d

/-- R49: `0 X DDDDDD`. -/
def encodeData (x : Bool) (d : BitVec 6) : Byte := 0#1 ++ BitVec.ofBool x ++ d

/-- R51: the byte of a command. -/
def encode : Instr → Byte
  | .latchT0 d => encodeLatch 0 false d
  | .latchV0 d => encodeLatch 0 true d
  | .latchT1 d => encodeLatch 1 false d
  | .latchV1 d => encodeLatch 1 true d
  | .latchT2 d => encodeLatch 2 false d
  | .latchV2 d => encodeLatch 2 true d
  | .latchN d => encodeLatch 3 false d
  | .latchV3 d => encodeLatch 3 true d
  | .data x d => encodeData x d

/-- The byte stream of a sequence of commands. -/
def encodeStream : List Instr → List Byte
  | [] => []
  | i :: rest => encode i :: encodeStream rest

/-- The mnemonic of a command's row in spec/opcode_table.json. -/
def Instr.mnemonic : Instr → String
  | .latchT0 _ => "LATCH.T0"
  | .latchV0 _ => "LATCH.V0"
  | .latchT1 _ => "LATCH.T1"
  | .latchV1 _ => "LATCH.V1"
  | .latchT2 _ => "LATCH.T2"
  | .latchV2 _ => "LATCH.V2"
  | .latchN _ => "LATCH.N"
  | .latchV3 _ => "LATCH.V3"
  | .data _ _ => "DATA"

/-- R51: one row of the opcode map, `match` and `mask` as the table prints them. -/
structure OpcodeRow where
  mnemonic : String
  pattern : Byte
  mask : Byte
  deriving DecidableEq, Repr

/-- R51: the opcode map. -/
def opcodeRows : List OpcodeRow :=
  [ ⟨"LATCH.T0", 0x80, 0xF0⟩, ⟨"LATCH.V0", 0x90, 0xF0⟩, ⟨"LATCH.T1", 0xA0, 0xF0⟩, ⟨"LATCH.V1", 0xB0, 0xF0⟩,
    ⟨"LATCH.T2", 0xC0, 0xF0⟩, ⟨"LATCH.V2", 0xD0, 0xF0⟩, ⟨"LATCH.N", 0xE0, 0xF0⟩, ⟨"LATCH.V3", 0xF0, 0xF0⟩,
    ⟨"DATA", 0x00, 0x80⟩ ]

/-- A byte belongs to a row when its bits under the row's mask are the row's pattern. -/
def OpcodeRow.matches (r : OpcodeRow) (b : Byte) : Bool := b &&& r.mask == r.pattern

/-- The command byte of the `nbits` low bits of `w`, numbered as spec/opcode_table.json numbers them (bit 0 the least
significant; every command is one byte, R47). -/
def tableByte (nbits w : Nat) : Byte := BitVec.ofNat 8 (w % 2 ^ nbits)

/-- The instruction the decoder reads from that byte. -/
def decodeTableWord (nbits w : Nat) : Option Instr :=
  match decode [tableByte nbits w] with
  | .ok (i, _) => some i
  | .error _ => none

end Sys2Proof
end

