-- ==== Sys2Proof/Machine/State.lean ====
section
/-! DEFINITION. The state of one instance (10_state.md R12 to R29), the reasons a step can stop, and the state right
after construction (70_reset_and_hazards.md R118). -/

namespace Sys2Proof.Machine

/-- R17: the latched type; `toneOrNoise` is encoded 0 and `volume` 1 (D16). -/
inductive LatchType where
  | toneOrNoise
  | volume
  deriving DecidableEq, Repr

/-- R27: the contents of one sample buffer, the block's only memory: pairs of an element index and a binary32 value,
indices strictly rising, no value +0.0 (which is what an unlisted index reads as, D7). Log entry 10. -/
abbrev Memory := List (Nat × F32)

/-- What an index that a buffer does not list reads as (10_state.md R27, D7): +0.0. -/
def Memory.unlisted : F32 := 0

/-- The canonical form of a sample buffer. -/
abbrev Memory.wf (m : Memory) : Prop :=
  m.Pairwise (fun a b => a.1 < b.1) ∧ ∀ c ∈ m, c.2 ≠ Memory.unlisted

/-- R107: the error results of the snapshot transactions, each with its recorded value. -/
inductive Error where
  /-- Raised by `serialize` and `deserialize`: the buffer is shorter than 40 bytes. -/
  | bufferTooSmall
  /-- Raised by `deserialize`: byte 0, which is recorded, is not 1. -/
  | unsupportedVersion (version : Byte)
  /-- Raised by `deserialize`: the field at this offset, the lowest that fails, fails R102. -/
  | invalidState (offset : Nat)
  deriving DecidableEq, Repr

/-- What a completed transaction returns to its caller (R106). -/
inductive Result where
  /-- Success with no value (R107, code 0). -/
  | ok
  /-- R89, R90: the dropped count. -/
  | dropped (count : Nat)
  /-- R84: the point-in-time mix. -/
  | sample (v : F32)
  /-- R85. -/
  | gain (g : F32)
  /-- R94. -/
  | clocksPerSample (cps : F64)
  /-- R92, R93: a copy of the first `count` elements, and `count`. -/
  | view (elements : List F32) (count : Nat)
  /-- R97. -/
  | size (n : Nat)
  /-- R100: success, with the host's buffer as the transaction left it. -/
  | saved (buf : List Byte)
  /-- R104. -/
  | toneRegister (v : BitVec 10)
  /-- R104. -/
  | volumeRegister (v : BitVec 4)
  /-- R104. -/
  | noiseRegister (v : BitVec 3)
  /-- R104. -/
  | noiseShiftRegister (v : BitVec 16)
  /-- R105. -/
  | volumeTable (elements : List F32)
  /-- R107: an error, with the host's buffer as the transaction left it (R109). -/
  | failed (e : Error) (buf : List Byte)
  deriving DecidableEq, Repr

/-- The accessors that take a channel index (R110). -/
inductive Accessor where
  | channelBuffer
  | toneRegister
  | volumeRegister
  deriving DecidableEq, Repr

/-- Why the machine stops with a fault. -/
inductive Fault where
  /-- R110: raised by an accessor called with a channel index outside its range; the faulted state is final and no value
  is returned. Safe: the model stops where software may go on (D20 errs toward unprovable). -/
  | boundsViolation (accessor : Accessor) (index : Int)
  deriving DecidableEq, Repr

/-- Why the machine has no step for a transaction. -/
inductive Refusal where
  /-- An instruction without a meaning; no arm of `exec` raises it. Safe. -/
  | notModelled (mnemonic : String)
  /-- R111, D12, D13: raised by `construct` when a parameter is out of range or the variant is illegal. Safe. -/
  | illegalConstruction
  /-- R111, D14: raised by `set_gain` with a NaN or an infinity. Safe. -/
  | nonFiniteGain (g : F32)
  /-- R111, D24: raised by `run` and `generate_samples` with a count outside 0 ..= 2^32 - 1. Safe. -/
  | illegalClockCount (clocks : Int)
  /-- R111, D25: raised when a second agent issues a transaction while one is in progress. Safe. -/
  | secondAgent
  deriving DecidableEq, Repr

/-- The state of one instance: the elements of R12 under the spec's own names, the configuration of R28 and R29, and
two fields of the model's own, `pending` and `result` (log entries 1 and 3). -/
structure State where
  /-- R28, R29: fixed at construction. -/
  config : Config
  /-- R9, R29. -/
  gain : F32
  /-- R14. -/
  toneReg : Vector (BitVec 10) 3
  /-- R15. -/
  noiseReg : BitVec 3
  /-- R16. -/
  volume : Vector (BitVec 4) 4
  /-- R17. -/
  latchedChannel : Fin 4
  /-- R17. -/
  latchedType : LatchType
  /-- R18. -/
  toneCounter : Vector (BitVec 11) 3
  /-- R19. -/
  toneOut : Vector Bool 3
  /-- R20. -/
  noiseCounter : BitVec 11
  /-- R21: the N-bit LFSR, in 16 bits (log entry 9). -/
  noiseShift : BitVec 16
  /-- R22. -/
  noiseToggle : Bool
  /-- R23. -/
  noiseOut : Bool
  /-- R24. -/
  clockDivider : BitVec 4
  /-- R25. -/
  clockCounter : F64
  /-- R26. -/
  bufferPos : Nat
  /-- R27. -/
  chBuf : Vector Memory 4
  /-- R27. -/
  mixBuf : Memory
  /-- The host's transactions not yet taken, in issue order (R11, R42). -/
  pending : List Transaction
  /-- What the last transaction returned. -/
  result : Result
  deriving DecidableEq, Repr

/-- R7: `lfsr_initial = 1 << feedback_shift`, `feedback_shift = lfsr_bits - 1`. -/
def lfsrInitial (v : Variant) : BitVec 16 := 1#16 <<< (v.lfsrBits - 1)

/-- R118: the state of a freshly constructed instance of configuration `c`. -/
def State.constructed (c : Config) : State where
  config := c
  gain := 0x3E800000
  toneReg := Vector.replicate 3 0
  noiseReg := 0
  volume := Vector.replicate 4 15
  latchedChannel := 0
  latchedType := .toneOrNoise
  toneCounter := Vector.replicate 3 0
  toneOut := Vector.replicate 3 false
  noiseCounter := 0
  noiseShift := lfsrInitial c.variant
  noiseToggle := false
  noiseOut := false
  clockDivider := 0
  clockCounter := 0
  bufferPos := 0
  chBuf := Vector.replicate 4 []
  mixBuf := []
  pending := []
  result := .ok

/-- The machine right after construction (R118), of the configuration log entry 2 names. -/
def State.reset : State := State.constructed Config.standard

end Sys2Proof.Machine
end

