-- ==== Sys2Proof/Machine/Float.lean ====
section
/-! DEFINITION. Binary32 and binary64 arithmetic (00_scope.md, Notation; D9, D10): exact on integers, then one rounding
to nearest, ties to even. A finite value of a format is a whole number of its least subnormal, the format's UNIT, so
sums, products and quotients are exact in units before `roundUnits` narrows them. -/

namespace Sys2Proof.Machine

/-- An IEEE 754 binary format: the widths of its exponent and fraction fields. -/
structure FloatFormat where
  expBits : Nat
  fracBits : Nat
  deriving DecidableEq, Repr

def binary32 : FloatFormat := { expBits := 8, fracBits := 23 }

def binary64 : FloatFormat := { expBits := 11, fracBits := 52 }

/-- The weight of the sign bit; the bits below it are the magnitude. -/
def signWeight (f : FloatFormat) : Nat := 2 ^ (f.expBits + f.fracBits)

/-- The magnitude of the infinities: exponent all ones, fraction 0. Greater magnitudes are NaNs. -/
def infMag (f : FloatFormat) : Nat := (2 ^ f.expBits - 1) * 2 ^ f.fracBits

/-- The unit is `2 ^ -unitShift`: 149 for binary32, 1074 for binary64. -/
def unitShift (f : FloatFormat) : Nat := 2 ^ (f.expBits - 1) - 1 + f.fracBits - 1

def isNegative (f : FloatFormat) (x : Nat) : Bool := decide (x / signWeight f % 2 = 1)

def magnitude (f : FloatFormat) (x : Nat) : Nat := x % signWeight f

def isNaN (f : FloatFormat) (x : Nat) : Bool := decide (infMag f < magnitude f x)

def isInfinite (f : FloatFormat) (x : Nat) : Bool := decide (magnitude f x = infMag f)

def isFinite (f : FloatFormat) (x : Nat) : Bool := decide (magnitude f x < infMag f)

/-- The value of a magnitude, in units: a subnormal is its fraction; otherwise the leading one stands above the
fraction, shifted by the exponent. -/
def magUnits (f : FloatFormat) (m : Nat) : Nat :=
  if m / 2 ^ f.fracBits = 0 then m
  else (2 ^ f.fracBits + m % 2 ^ f.fracBits) * 2 ^ (m / 2 ^ f.fracBits - 1)

/-- The value of a bit pattern, in units. -/
def units (f : FloatFormat) (x : Nat) : Int :=
  if isNegative f x then -(magUnits f (magnitude f x) : Int) else (magUnits f (magnitude f x) : Int)

/-- Round-to-nearest-even quotient. -/
def divNearestEven (n d : Nat) : Nat :=
  if 2 * (n % d) < d then n / d
  else if d < 2 * (n % d) then n / d + 1
  else n / d + n / d % 2

/-- The magnitude nearest to `num / den` units, ties to the even one; past the largest finite value, infinity. -/
def roundUnits (f : FloatFormat) (num den : Nat) : Nat :=
  let shift := Nat.log2 (num / den) - f.fracBits
  min (shift * 2 ^ f.fracBits + divNearestEven num (den * 2 ^ shift)) (infMag f)

/-- A bit pattern from its sign and magnitude. -/
def packFloat (f : FloatFormat) (neg : Bool) (mag : Nat) : Nat :=
  if neg then signWeight f + mag else mag

def negateBits (f : FloatFormat) (x : Nat) : Nat := packFloat f (!isNegative f x) (magnitude f x)

/-- The sum; an exact zero is +0.0 unless both operands are negative. `nan` is the result where it is a NaN. -/
def addBits (f : FloatFormat) (nan x y : Nat) : Nat :=
  if isNaN f x || isNaN f y then nan
  else if isInfinite f x then (if isInfinite f y && (isNegative f x != isNegative f y) then nan else x)
  else if isInfinite f y then y
  else if units f x + units f y = 0 then packFloat f (isNegative f x && isNegative f y) 0
  else packFloat f (decide (units f x + units f y < 0)) (roundUnits f (units f x + units f y).natAbs 1)

def subBits (f : FloatFormat) (nan x y : Nat) : Nat :=
  if isNaN f y then nan else addBits f nan x (negateBits f y)

def mulBits (f : FloatFormat) (nan x y : Nat) : Nat :=
  let neg := isNegative f x != isNegative f y
  let mx := magnitude f x
  let my := magnitude f y
  if isNaN f x || isNaN f y then nan
  else if isInfinite f x || isInfinite f y then (if mx = 0 || my = 0 then nan else packFloat f neg (infMag f))
  else packFloat f neg (roundUnits f (magUnits f mx * magUnits f my) (2 ^ unitShift f))

def divBits (f : FloatFormat) (nan x y : Nat) : Nat :=
  let neg := isNegative f x != isNegative f y
  let mx := magnitude f x
  let my := magnitude f y
  if isNaN f x || isNaN f y then nan
  else if isInfinite f x then (if isInfinite f y then nan else packFloat f neg (infMag f))
  else if isInfinite f y then packFloat f neg 0
  else if my = 0 then (if mx = 0 then nan else packFloat f neg (infMag f))
  else packFloat f neg (roundUnits f (magUnits f mx * 2 ^ unitShift f) (magUnits f my))

/-- The ordered comparison `x >= y`: false when either is a NaN. -/
def geBits (f : FloatFormat) (x y : Nat) : Bool :=
  !isNaN f x && !isNaN f y && decide (units f y ≤ units f x)

/-- A quiet NaN with the free sign and payload of log entry 7; `op` numbers the operation (0 add, 1 subtract,
2 multiply, 3 divide). -/
def nan32 (op : Nat) (x y : F32) : Nat :=
  let free := (Config.freeNaN32 op x y).toNat
  packFloat binary32 (decide (free / 2 ^ 22 = 1)) (infMag binary32 + 2 ^ 22 + free % 2 ^ 22)

def nan64 (op : Nat) (x y : F64) : Nat :=
  let free := (Config.freeNaN64 op x y).toNat
  packFloat binary64 (decide (free / 2 ^ 51 = 1)) (infMag binary64 + 2 ^ 51 + free % 2 ^ 51)

/-- 00_scope.md, Notation: `f32add`. -/
def f32add (x y : F32) : F32 := BitVec.ofNat 32 (addBits binary32 (nan32 0 x y) x.toNat y.toNat)

/-- 00_scope.md, Notation: `f32mul`. -/
def f32mul (x y : F32) : F32 := BitVec.ofNat 32 (mulBits binary32 (nan32 2 x y) x.toNat y.toNat)

/-- 00_scope.md, Notation: `f64add`. -/
def f64add (x y : F64) : F64 := BitVec.ofNat 64 (addBits binary64 (nan64 0 x y) x.toNat y.toNat)

/-- 00_scope.md, Notation: `f64sub`. -/
def f64sub (x y : F64) : F64 := BitVec.ofNat 64 (subBits binary64 (nan64 1 x y) x.toNat y.toNat)

/-- 00_scope.md, Notation: `f64div`. -/
def f64div (x y : F64) : F64 := BitVec.ofNat 64 (divBits binary64 (nan64 3 x y) x.toNat y.toNat)

/-- 00_scope.md, Notation: the ordered comparison `a >= b` of binary64 values. -/
def f64ge (x y : F64) : Bool := geBits binary64 x.toNat y.toNat

/-- 00_scope.md, Notation: `toF64(n)`; exact for the integers the spec converts, which are below 2^32 (D12). -/
def toF64 (n : Nat) : F64 := BitVec.ofNat 64 (roundUnits binary64 (n * 2 ^ unitShift binary64) 1)

/-- Neither a NaN nor an infinity. -/
def f64Finite (x : F64) : Bool := isFinite binary64 x.toNat

/-- Neither a NaN nor an infinity. -/
def f32Finite (x : F32) : Bool := isFinite binary32 x.toNat

end Sys2Proof.Machine
end

