-- ==== Sys2Proof/Machine/Ops.lean ====
section
/-! DEFINITION. The named operations the meanings share: the sample buffers (10_state.md R27), the host's byte buffer
(00_scope.md, Notation: MemRead, MemWrite), the register file and the latch (10_state.md R14 to R17), taking the next
transaction, returning a value, and the one way an error is reported (60_exceptions.md R106, R109): the block has no
exception to take and none to return from. -/

namespace Sys2Proof.Machine

/-! ## Sample buffers -/

/-- R27: element `k` of a buffer. -/
def Memory.read : Memory → Nat → F32
  | [], _ => Memory.unlisted
  | (j, w) :: m, k => if k = j then w else Memory.read m k

/-- The cells that hold `v` at `k`: none when `v` is what an unlisted element reads as. -/
def Memory.cell (k : Nat) (v : F32) : Memory := if v = Memory.unlisted then [] else [(k, v)]

/-- R27: `buf[k] <- v`, keeping the canonical form. -/
def Memory.write : Memory → Nat → F32 → Memory
  | [], k, v => Memory.cell k v
  | (j, w) :: m, k, v =>
    if k < j then Memory.cell k v ++ (j, w) :: m
    else if k = j then Memory.cell k v ++ m
    else (j, w) :: Memory.write m k v

/-- The first `n` elements of a buffer. -/
def Memory.firstElements (m : Memory) (n : Nat) : List F32 := (List.range n).map (Memory.read m)

/-! ## The host's byte buffer -/

/-- 00_scope.md, Notation: `MemRead(addr, n)`, little-endian (R35). -/
def memRead (buf : List Byte) (addr : Nat) : Nat → Nat
  | 0 => 0
  | n + 1 => (buf.getD addr 0).toNat + 256 * memRead buf (addr + 1) n

/-- 00_scope.md, Notation: `MemWrite(addr, n, v)`, the `n` low-order bytes of `v`, little-endian (R35). -/
def memWrite (buf : List Byte) (addr : Nat) : Nat → Nat → List Byte
  | 0, _ => buf
  | n + 1, v => memWrite (buf.set addr (BitVec.ofNat 8 v)) (addr + 1) n (v / 256)

/-! ## Register file and latch -/

/-- R17: the latch becomes `(ch, t)`. -/
def State.setLatch (s : State) (ch : Fin 4) (t : LatchType) : State :=
  { s with latchedChannel := ch, latchedType := t }

/-- R14: `tone_reg[i] <- v`. Nothing else changes; the counter keeps running (R71). -/
def State.setToneReg (s : State) (i : Fin 3) (v : BitVec 10) : State := { s with toneReg := s.toneReg.set i v }

/-- R60, R65: every write of the noise register restarts the LFSR. -/
def State.setNoiseReg (s : State) (v : BitVec 3) : State :=
  { s with noiseReg := v, noiseShift := lfsrInitial s.config.variant }

/-- R16: `volume[i] <- v`. -/
def State.setVolume (s : State) (i : Fin 4) (v : BitVec 4) : State := { s with volume := s.volume.set i v }

/-! ## Transactions, results and errors -/

/-- R42: the next transaction in issue order, and the state with it taken from the queue. A transaction that returns
nothing else returns Ok (R107, code 0). -/
def State.accept (s : State) (rest : List Transaction) : State := { s with pending := rest, result := .ok }

/-- A transaction completes and returns `r`. -/
def State.ret (s : State) (r : Result) : State := { s with result := r }

/-- R106, R109: a transaction reports the error `e` to its caller: no element of the block changes, nor does the host's
buffer. -/
def State.raise (s : State) (e : Error) (buf : List Byte) : State := s.ret (.failed e buf)

/-- R107: the numeric code of a result (D23). -/
def Result.code : Result → Nat
  | .failed .bufferTooSmall _ => 1
  | .failed (.unsupportedVersion _) _ => 2
  | .failed (.invalidState _) _ => 3
  | .ok | .dropped _ | .sample _ | .gain _ | .clocksPerSample _ | .view _ _ | .size _ | .saved _ => 0
  | .toneRegister _ | .volumeRegister _ | .noiseRegister _ | .noiseShiftRegister _ | .volumeTable _ => 0

end Sys2Proof.Machine
end

