-- ==== Sys2Proof/Machine/Operands.lean ====
section
/-! DEFINITION. Operand assembly (30_encoding.md R50), and the operands of host transactions (60_exceptions.md R110,
R111). -/

namespace Sys2Proof.Machine

/-- R50: the low field of a tone register: `(tone_reg & 0x3F0) | b[3:0]`. -/
def toneWithLow (r : BitVec 10) (d : BitVec 4) : BitVec 10 := (r &&& 0x3F0) ||| d.zeroExtend 10

/-- R50: the high field of a tone register: `(b[5:0] << 4) | (tone_reg & 0x00F)`. -/
def toneWithHigh (r : BitVec 10) (d : BitVec 6) : BitVec 10 := (d.zeroExtend 10 <<< 4) ||| (r &&& 0x00F)

/-- R50: `noise_reg <- b[3:0] & 0b111`. -/
def noiseFromNibble (d : BitVec 4) : BitVec 3 := (d &&& 0b111).truncate 3

/-- R50: `noise_reg <- b[5:0] & 0b111`. -/
def noiseFromData (d : BitVec 6) : BitVec 3 := (d &&& 0b111).truncate 3

/-- R110: a channel index within 0 ..= `n` - 1, never reduced into the range. -/
def channelIndex (n : Nat) (ch : Int) : Option (Fin n) :=
  if h : 0 ≤ ch ∧ ch < n then some ⟨ch.toNat, by omega⟩ else none

/-- R89, D24: a clock count the interface accepts. -/
def clockCount (n : Int) : Option Nat := if clockCountLegal n then some n.toNat else none

end Sys2Proof.Machine
end

