-- ==== Sys2Proof/Machine/Flags.lean ====
section
/-! DEFINITION. The block has no condition codes or flags (10_state.md R13), so no flag is computed. What comes nearest
are its single output bits, which this file reads. -/

namespace Sys2Proof.Machine

/-- R83: the output bit of channel `c`: `tone_out[c]` for the tone channels, the captured `noise_out` for channel 3,
never the live bit of the LFSR (R23). -/
def outputBit (s : State) (c : Fin 4) : Bool :=
  if h : c.val < 3 then s.toneOut[c.val] else s.noiseOut

end Sys2Proof.Machine
end

