-- ==== Sys2Proof/Machine/DataByte.lean ====
section
/-! DEFINITION. The data form (40_write_port.md R65). -/

namespace Sys2Proof.Machine

/-- R65: `DATA #d` and `DATA.X #d`. Bit 6, `x`, is not read (R49). -/
def execData (_x : Bool) (d : BitVec 6) (s : State) : Host.Outcome State Fault Refusal :=
  match s.latchedType with
  | .volume => .next s
  | .toneOrNoise =>
    if h : s.latchedChannel.val < 3 then
      .next (s.setToneReg ⟨s.latchedChannel.val, h⟩ (toneWithHigh s.toneReg[s.latchedChannel.val] d))
    else
      .next (s.setNoiseReg (noiseFromData d))

end Sys2Proof.Machine
end

