-- ==== Sys2Proof/Machine/NoiseLatch.lean ====
section
/-! DEFINITION. The noise latch form (40_write_port.md R60). -/

namespace Sys2Proof.Machine

/-- R60: `LATCH.N #d`. -/
def execLatchN (d : BitVec 4) (s : State) : Host.Outcome State Fault Refusal :=
  .next ((s.setLatch 3 .toneOrNoise).setNoiseReg (noiseFromNibble d))

end Sys2Proof.Machine
end

