-- ==== Sys2Proof/Machine/ToneLatch.lean ====
section
/-! DEFINITION. The tone latch forms (40_write_port.md R56 to R59). -/

namespace Sys2Proof.Machine

/-- R56: a format L byte of tone channel `i` latches `(i, TONE_OR_NOISE)`, then writes the low nibble. -/
def latchTone (i : Fin 3) (d : BitVec 4) (s : State) : State :=
  (s.setLatch (i.castLE (by decide)) .toneOrNoise).setToneReg i (toneWithLow s.toneReg[i] d)

/-- R57: `LATCH.T0 #d`. -/
def execLatchT0 (d : BitVec 4) (s : State) : Host.Outcome State Fault Refusal := .next (latchTone 0 d s)

/-- R58: `LATCH.T1 #d`. -/
def execLatchT1 (d : BitVec 4) (s : State) : Host.Outcome State Fault Refusal := .next (latchTone 1 d s)

/-- R59: `LATCH.T2 #d`. -/
def execLatchT2 (d : BitVec 4) (s : State) : Host.Outcome State Fault Refusal := .next (latchTone 2 d s)

end Sys2Proof.Machine
end

