-- ==== Sys2Proof/Machine/VolumeLatch.lean ====
section
/-! DEFINITION. The volume latch forms (40_write_port.md R56, R61 to R64). -/

namespace Sys2Proof.Machine

/-- R56: a format L byte with T = 1 latches `(i, VOLUME)`, then writes the volume. -/
def latchVolume (i : Fin 4) (d : BitVec 4) (s : State) : State := (s.setLatch i .volume).setVolume i d

/-- R61: `LATCH.V0 #d`. -/
def execLatchV0 (d : BitVec 4) (s : State) : Host.Outcome State Fault Refusal := .next (latchVolume 0 d s)

/-- R62: `LATCH.V1 #d`. -/
def execLatchV1 (d : BitVec 4) (s : State) : Host.Outcome State Fault Refusal := .next (latchVolume 1 d s)

/-- R63: `LATCH.V2 #d`. -/
def execLatchV2 (d : BitVec 4) (s : State) : Host.Outcome State Fault Refusal := .next (latchVolume 2 d s)

/-- R64: `LATCH.V3 #d`. -/
def execLatchV3 (d : BitVec 4) (s : State) : Host.Outcome State Fault Refusal := .next (latchVolume 3 d s)

end Sys2Proof.Machine
end

