-- ==== Sys2Proof/Machine/Dispatch.lean ====
section
/-! DEFINITION. One arm per command form: the meaning of each row of spec/opcode_table.json. -/

namespace Sys2Proof.Machine

def exec (i : Instr) (s : State) : Host.Outcome State Fault Refusal :=
  match i with
  | .latchT0 d => Sys2Proof.Machine.execLatchT0 d s
  | .latchV0 d => Sys2Proof.Machine.execLatchV0 d s
  | .latchT1 d => Sys2Proof.Machine.execLatchT1 d s
  | .latchV1 d => Sys2Proof.Machine.execLatchV1 d s
  | .latchT2 d => Sys2Proof.Machine.execLatchT2 d s
  | .latchV2 d => Sys2Proof.Machine.execLatchV2 d s
  | .latchN d => Sys2Proof.Machine.execLatchN d s
  | .latchV3 d => Sys2Proof.Machine.execLatchV3 d s
  | .data x d => Sys2Proof.Machine.execData x d s

end Sys2Proof.Machine
end

