-- ==== Sys2Proof/Machine/Tone.lean ====
section
/-! DEFINITION. The tone generators (41_prescaler_tone.md R68 to R71). -/

namespace Sys2Proof.Machine

/-- R69, R73: a tone register's reload value: the register, or the variant's `tone_zero_value` where it is 0. -/
def reloadFromTone (v : Variant) (r : BitVec 10) : BitVec 11 :=
  if r = 0 then BitVec.ofNat 11 v.toneZeroValue else r.zeroExtend 11

/-- R69. -/
def toneReload (s : State) (i : Fin 3) : BitVec 11 := reloadFromTone s.config.variant s.toneReg[i]

/-- R68, R72: a counter's value after the decrement of one tick, which stays at 0 when it is 0. -/
def countDown (c : BitVec 11) : BitVec 11 := if c = 0 then 0 else c - 1

/-- R68 (order by C1): decrement, then in the same tick reload and toggle at 0. -/
def toneStep (i : Fin 3) (s : State) : State :=
  let c := countDown s.toneCounter[i]
  { s with
    toneCounter := s.toneCounter.set i (if c = 0 then toneReload s i else c)
    toneOut := s.toneOut.set i (if c = 0 then !s.toneOut[i] else s.toneOut[i]) }

end Sys2Proof.Machine
end

