-- ==== Sys2Proof/Machine/Noise.lean ====
section
/-! DEFINITION. The noise generator (42_noise.md R72 to R78). -/

namespace Sys2Proof.Machine

/-- 00_scope.md, Notation: the XOR of the `n` low bits of `v`. -/
def parityBelow (v : BitVec 16) : Nat → Bool
  | 0 => false
  | n + 1 => xor (v.getLsbD n) (parityBelow v n)

/-- 00_scope.md, Notation: `parity(v)`, true when an odd number of bits are set. -/
def parity (v : BitVec 16) : Bool := parityBelow v 16

/-- R7: `feedback_shift`. -/
def feedbackShift (v : Variant) : Nat := v.lfsrBits - 1

/-- R76, R77: the bit fed back: in white mode the parity of the tapped bits, in periodic mode bit 0. -/
def feedbackBit (v : Variant) (white : Bool) (shift : BitVec 16) : Bool :=
  if white then parity (shift &&& BitVec.ofNat 16 v.whiteTaps) else shift.getLsbD 0

/-- R78: one shift of the LFSR. -/
def lfsrShift (v : Variant) (white : Bool) (shift : BitVec 16) : BitVec 16 :=
  (shift >>> 1) ||| (if feedbackBit v white shift then 1#16 <<< feedbackShift v else 0)

/-- R15: the mode bit of the noise register; true is white noise. -/
def noiseIsWhite (s : State) : Bool := s.noiseReg.getLsbD 2

/-- R73: the noise reload value, by the rate field. -/
def noiseReload (s : State) : BitVec 11 :=
  match (s.noiseReg.extractLsb' 0 2).toNat with
  | 0 => 0x10
  | 1 => 0x20
  | 2 => 0x40
  | _ => reloadFromTone s.config.variant s.toneReg[2]

/-- R74: a rising edge is an expiry at which the toggle becomes true. -/
def risingEdge (s : State) : Bool := decide (countDown s.noiseCounter = 0) && !s.noiseToggle

/-- R72 to R78 (order by D2): decrement; at 0 reload and toggle; on a rising edge capture bit 0, and shift. -/
def noiseStep (s : State) : State :=
  let c := countDown s.noiseCounter
  { s with
    noiseCounter := if c = 0 then noiseReload s else c
    noiseToggle := if c = 0 then !s.noiseToggle else s.noiseToggle
    noiseOut := if risingEdge s then s.noiseShift.getLsbD 0 else s.noiseOut
    noiseShift :=
      if risingEdge s then lfsrShift s.config.variant (noiseIsWhite s) s.noiseShift else s.noiseShift }

end Sys2Proof.Machine
end

