-- ==== Sys2Proof/Machine/Prescaler.lean ====
section
/-! DEFINITION. The clock prescaler and the internal tick (41_prescaler_tone.md R66, R67). -/

namespace Sys2Proof.Machine

/-- R67: the three tone channels, then the noise channel. -/
def internalTick (s : State) : State := noiseStep (toneStep 2 (toneStep 1 (toneStep 0 s)))

/-- R66: one input clock. -/
def clockStep (s : State) : State :=
  if s.clockDivider = 15 then internalTick { s with clockDivider := 0 }
  else { s with clockDivider := s.clockDivider + 1 }

end Sys2Proof.Machine
end

