-- ==== Sys2Proof/Machine/Mixer.lean ====
section
/-! DEFINITION. The volume table, the mixer and the gain (43_mixer_volume.md R81 to R86). -/

namespace Sys2Proof.Machine

/-- R82: `VOLUME_TABLE`, as the bit patterns the spec pins (D26). -/
def volumeTable : Vector F32 16 :=
  #v[0x3F800000, 0x3F4B5918, 0x3F21866C, 0x3F004DCE, 0x3ECBD4B4, 0x3EA1E89B, 0x3E809BCC, 0x3E4C509B,
     0x3E224B06, 0x3E00E9F9, 0x3DCCCCCD, 0x3DA2ADAD, 0x3D813856, 0x3D4D494A, 0x3D231090, 0x00000000]

/-- R16, R81: the amplitude of an attenuation index. -/
def amplitude (v : BitVec 4) : F32 := volumeTable[v.toFin]

/-- R83: the level of channel `c`. -/
def level (s : State) (c : Fin 4) : F32 := if outputBit s c then amplitude s.volume[c] else 0

/-- R84, R93, D9: four values added in channel order, then multiplied by the gain. -/
def mix (l0 l1 l2 l3 gain : F32) : F32 := f32mul (f32add (f32add (f32add l0 l1) l2) l3) gain

/-- R84: the point-in-time mix. -/
def sampleValue (s : State) : F32 := mix (level s 0) (level s 1) (level s 2) (level s 3) s.gain

/-- R84: `sample()` changes no state (D31). -/
def doSample (s : State) : Host.Outcome State Fault Refusal := .next (s.ret (.sample (sampleValue s)))

/-- R85: `set_gain(g)`; a NaN or infinite `g` is refused (R111, D14). -/
def doSetGain (g : F32) (s : State) : Host.Outcome State Fault Refusal :=
  if gainLegal g then .next { s with gain := g } else .refused (.nonFiniteGain g)

/-- R85: `get_gain()`. -/
def doGetGain (s : State) : Host.Outcome State Fault Refusal := .next (s.ret (.gain s.gain))

end Sys2Proof.Machine
end

