-- ==== Sys2Proof/Machine/Introspection.lean ====
section
/-! DEFINITION. The read-only introspection accessors (45_snapshot_introspection.md R104, R105). -/

namespace Sys2Proof.Machine

/-- R104: `tone_reg(ch)`; an index outside 0 ..= 2 faults (R110). -/
def doToneRegister (ch : Int) (s : State) : Host.Outcome State Fault Refusal :=
  match channelIndex 3 ch with
  | some i => .next (s.ret (.toneRegister s.toneReg[i]))
  | none => .fault (.boundsViolation .toneRegister ch)

/-- R104: `volume(ch)`; an index outside 0 ..= 3 faults (R110). -/
def doVolumeRegister (ch : Int) (s : State) : Host.Outcome State Fault Refusal :=
  match channelIndex 4 ch with
  | some i => .next (s.ret (.volumeRegister s.volume[i]))
  | none => .fault (.boundsViolation .volumeRegister ch)

/-- R104: `noise_reg()`. -/
def doNoiseRegister (s : State) : Host.Outcome State Fault Refusal := .next (s.ret (.noiseRegister s.noiseReg))

/-- R104: `noise_shift()`. -/
def doNoiseShiftRegister (s : State) : Host.Outcome State Fault Refusal :=
  .next (s.ret (.noiseShiftRegister s.noiseShift))

/-- R105: the volume table accessor. -/
def doVolumeTable (s : State) : Host.Outcome State Fault Refusal := .next (s.ret (.volumeTable volumeTable.toList))

end Sys2Proof.Machine
end

