-- ==== Sys2Proof/Machine/Lifecycle.lean ====
section
/-! DEFINITION. Construction and reset (70_reset_and_hazards.md R118, R119). -/

namespace Sys2Proof.Machine

/-- R119: `reset()`: every mutable element but the buffers' contents; the gain and the configuration stay. -/
def resetState (s : State) : State :=
  { s with
    toneReg := Vector.replicate 3 0
    noiseReg := 0
    volume := Vector.replicate 4 15
    latchedChannel := 0
    latchedType := .toneOrNoise
    toneCounter := Vector.replicate 3 0
    toneOut := Vector.replicate 3 false
    noiseCounter := 0
    noiseShift := lfsrInitial s.config.variant
    noiseToggle := false
    noiseOut := false
    clockDivider := 0
    clockCounter := 0
    bufferPos := 0 }

/-- R119: `reset()`. -/
def doReset (s : State) : Host.Outcome State Fault Refusal := .next (resetState s)

/-- R118: construction. The new instance is the one the model holds from here on (log entry 4); the host's queue
goes on. A bad parameter or variant is refused (R111). -/
def doConstruct (clockFreq sampleRate bufferCapacity : Int) (v : Variant) (s : State) :
    Host.Outcome State Fault Refusal :=
  if parameterLegal clockFreq ∧ parameterLegal sampleRate ∧ parameterLegal bufferCapacity ∧ v.legal then
    .next { State.constructed
        { clockFreq := clockFreq.toNat, sampleRate := sampleRate.toNat, bufferCapacity := bufferCapacity.toNat,
          variant := v } with pending := s.pending }
  else .refused .illegalConstruction

end Sys2Proof.Machine
end

