-- ==== Sys2Proof/Machine/Resampler.lean ====
section
/-! DEFINITION. The resampler, the frame driver and the sample buffers (44_resampler.md R87 to R94). -/

namespace Sys2Proof.Machine

/-- R10: `clock_freq / sample_rate` in binary64. -/
def clocksPerSample (c : Config) : F64 := f64div (toF64 c.clockFreq) (toF64 c.sampleRate)

/-- 1.0 in binary64. -/
def f64One : F64 := 0x3FF0000000000000

/-- R88: the four levels are written at `buffer_pos`, one in each channel buffer. -/
def writeLevels (s : State) : Vector Memory 4 :=
  Vector.ofFn fun c => Memory.write s.chBuf[c] s.bufferPos (level s c)

/-- R88: one emission, and 1 if it was dropped, else 0. -/
def emit (s : State) : State × Nat :=
  if s.bufferPos < s.config.bufferCapacity then
    ({ s with chBuf := writeLevels s, bufferPos := s.bufferPos + 1 }, 0)
  else (s, 1)

/-- R87, second half: the resampler's part of one input clock. -/
def resample (s : State) : State × Nat :=
  if f64ge (f64add s.clockCounter f64One) (clocksPerSample s.config) then
    emit { s with clockCounter := f64sub (f64add s.clockCounter f64One) (clocksPerSample s.config) }
  else ({ s with clockCounter := f64add s.clockCounter f64One }, 0)

/-- R87: one sample clock: the prescaler and the channels first, then the resampler. -/
def sampleClock (s : State) : State × Nat := resample (clockStep s)

/-- R89: one turn of the loop of `run`: `dropped <- dropped + sample_clock()`. -/
def runTurn (p : State × Nat) : State × Nat := ((sampleClock p.1).1, p.2 + (sampleClock p.1).2)

/-- R89: `repeat n times`. -/
def runLoop : Nat → State × Nat → State × Nat
  | 0, p => p
  | n + 1, p => runLoop n (runTurn p)

/-- R89: `n` sample clocks, and how many of their emissions were dropped (`dropped` starts at 0). -/
def runClocks (n : Nat) (s : State) : State × Nat := runLoop n (s, 0)

/-- R91: `buffer_pos <- 0`, and nothing else. -/
def resetBuffer (s : State) : State := { s with bufferPos := 0 }

/-- R66: `clock()`, which does not touch the resampler (D8). -/
def doClock (s : State) : Host.Outcome State Fault Refusal := .next (clockStep s)

/-- R89: `run(clocks)`; a count outside 0 ..= 2^32 - 1 is refused (R111). -/
def doRun (clocks : Int) (s : State) : Host.Outcome State Fault Refusal :=
  match clockCount clocks with
  | some n =>
    let r := runClocks n s
    .next (r.1.ret (.dropped r.2))
  | none => .refused (.illegalClockCount clocks)

/-- R90: `generate_samples(clocks)`. -/
def doGenerateSamples (clocks : Int) (s : State) : Host.Outcome State Fault Refusal := doRun clocks (resetBuffer s)

/-- R91: `reset_buffer()`. -/
def doResetBuffer (s : State) : Host.Outcome State Fault Refusal := .next (resetBuffer s)

/-- R94: `clocks_per_sample()`. -/
def doClocksPerSample (s : State) : Host.Outcome State Fault Refusal :=
  .next (s.ret (.clocksPerSample (clocksPerSample s.config)))

/-- R92: the channel buffer accessor; an index outside 0 ..= 3 faults (R110). -/
def doChannelBuffer (ch : Int) (s : State) : Host.Outcome State Fault Refusal :=
  match channelIndex 4 ch with
  | some c => .next (s.ret (.view (Memory.firstElements s.chBuf[c] s.bufferPos) s.bufferPos))
  | none => .fault (.boundsViolation .channelBuffer ch)

/-- R93: element `k` of the mixed buffer, from the four channel buffers and the gain current at the call (D27). -/
def mixedElement (s : State) (k : Nat) : F32 :=
  mix (Memory.read s.chBuf[0] k) (Memory.read s.chBuf[1] k) (Memory.read s.chBuf[2] k) (Memory.read s.chBuf[3] k) s.gain

/-- R93: the mixed buffer with its elements below `n` computed anew. -/
def mixedBelow (s : State) : Nat → Memory
  | 0 => s.mixBuf
  | n + 1 => Memory.write (mixedBelow s n) n (mixedElement s n)

/-- R93: the mixed buffer accessor; it writes `mix_buf` and no other state (R39). -/
def doMixedBuffer (s : State) : Host.Outcome State Fault Refusal :=
  .next ({ s with mixBuf := mixedBelow s s.bufferPos }.ret
    (.view (Memory.firstElements (mixedBelow s s.bufferPos) s.bufferPos) s.bufferPos))

end Sys2Proof.Machine
end

