-- ==== Sys2Proof/Machine/Snapshot.lean ====
section
/-! DEFINITION. The state snapshot (45_snapshot_introspection.md R97 to R103). -/

namespace Sys2Proof.Machine

/-- R97. -/
def snapshotSize : Nat := 40

/-- R98: the snapshot version. -/
def snapshotVersion : Byte := 1

/-- R98: LOW is 0 and HIGH is 1. -/
def levelByte (b : Bool) : Nat := if b then 1 else 0

/-- R98, D16. -/
def latchTypeByte : LatchType → Nat
  | .toneOrNoise => 0
  | .volume => 1

/-- R99: bit 0 is `noise_out`, bit 1 is `noise_toggle`. -/
def noiseBitsByte (s : State) : Nat := levelByte s.noiseOut + 2 * levelByte s.noiseToggle

/-- R98, R100: the fields of the image after the version byte, in offset order: offset, size in bytes, value. -/
def snapshotFields (s : State) : List (Nat × Nat × Nat) :=
  [ (1, 2, s.toneReg[0].toNat), (3, 2, s.toneReg[1].toNat), (5, 2, s.toneReg[2].toNat),
    (7, 2, s.toneCounter[0].toNat), (9, 2, s.toneCounter[1].toNat), (11, 2, s.toneCounter[2].toNat),
    (13, 1, levelByte s.toneOut[0]), (14, 1, levelByte s.toneOut[1]), (15, 1, levelByte s.toneOut[2]),
    (16, 1, s.noiseReg.toNat), (17, 2, s.noiseCounter.toNat), (19, 2, s.noiseShift.toNat),
    (21, 1, noiseBitsByte s),
    (22, 1, s.volume[0].toNat), (23, 1, s.volume[1].toNat), (24, 1, s.volume[2].toNat), (25, 1, s.volume[3].toNat),
    (26, 1, s.latchedChannel.val), (27, 1, latchTypeByte s.latchedType),
    (28, 4, s.clockDivider.toNat), (32, 8, s.clockCounter.toNat) ]

/-- R100: each field in turn is written to the host's buffer. -/
def writeFields (buf : List Byte) : List (Nat × Nat × Nat) → List Byte
  | [] => buf
  | (addr, n, v) :: fields => writeFields (memWrite buf addr n v) fields

/-- R100: the host's buffer with the image of `s` in its first 40 bytes. -/
def writeImage (s : State) (buf : List Byte) : List Byte :=
  writeFields (memWrite buf 0 1 snapshotVersion.toNat) (snapshotFields s)

/-- R97: `serialize_size()`. -/
def doSerializeSize (s : State) : Host.Outcome State Fault Refusal := .next (s.ret (.size snapshotSize))

/-- R100: `serialize(buf)`. -/
def doSerialize (buf : List Byte) (s : State) : Host.Outcome State Fault Refusal :=
  if buf.length < snapshotSize then .next (s.raise .bufferTooSmall buf)
  else .next (s.ret (.saved (writeImage s buf)))

/-- R102: the greatest value a counter can hold. -/
def counterBound (v : Variant) : Nat := max 1023 v.toneZeroValue

/-- R102: `clock_divider` as an i32 lies in 0 ..= 15. -/
def dividerLegal (buf : List Byte) : Bool :=
  let d := (BitVec.ofNat 32 (memRead buf 28 4)).toInt
  decide (0 ≤ d ∧ d ≤ 15)

/-- R102: `clock_counter` as a binary64 is finite and not less than 0. -/
def counterImageLegal (buf : List Byte) : Bool :=
  let x : F64 := BitVec.ofNat 64 (memRead buf 32 8)
  f64Finite x && f64ge x 0

/-- R102: the checks on the fields of an image, in offset order, each with the offset it reports. -/
def imageChecks (v : Variant) (buf : List Byte) : List (Nat × Bool) :=
  [ (1, decide (memRead buf 1 2 ≤ 0x3FF)), (3, decide (memRead buf 3 2 ≤ 0x3FF)), (5, decide (memRead buf 5 2 ≤ 0x3FF)),
    (7, decide (memRead buf 7 2 ≤ counterBound v)), (9, decide (memRead buf 9 2 ≤ counterBound v)),
    (11, decide (memRead buf 11 2 ≤ counterBound v)),
    (13, decide (memRead buf 13 1 ≤ 1)), (14, decide (memRead buf 14 1 ≤ 1)), (15, decide (memRead buf 15 1 ≤ 1)),
    (16, decide (memRead buf 16 1 ≤ 7)), (17, decide (memRead buf 17 2 ≤ counterBound v)),
    (19, decide (1 ≤ memRead buf 19 2 ∧ memRead buf 19 2 ≤ 2 ^ v.lfsrBits - 1)),
    (21, decide (memRead buf 21 1 ≤ 3)),
    (22, decide (memRead buf 22 1 ≤ 15)), (23, decide (memRead buf 23 1 ≤ 15)), (24, decide (memRead buf 24 1 ≤ 15)),
    (25, decide (memRead buf 25 1 ≤ 15)),
    (26, decide (memRead buf 26 1 ≤ 3)), (27, decide (memRead buf 27 1 ≤ 1)),
    (28, dividerLegal buf), (32, counterImageLegal buf) ]

/-- R108: the lowest offset of a failing field, if any fails. -/
def firstFailure : List (Nat × Bool) → Option Nat
  | [] => none
  | (offset, passes) :: checks => if passes then firstFailure checks else some offset

/-- R103: a channel field of the image, which R102 has found in range. -/
def channelFromByte (n : Nat) : Fin 4 := Fin.ofNat 4 n

/-- R103: every element of the image is set, then `buffer_pos`. -/
def loadImage (buf : List Byte) (s : State) : State :=
  { s with
    toneReg := #v[BitVec.ofNat 10 (memRead buf 1 2), BitVec.ofNat 10 (memRead buf 3 2), BitVec.ofNat 10 (memRead buf 5 2)]
    toneCounter :=
      #v[BitVec.ofNat 11 (memRead buf 7 2), BitVec.ofNat 11 (memRead buf 9 2), BitVec.ofNat 11 (memRead buf 11 2)]
    toneOut := #v[memRead buf 13 1 == 1, memRead buf 14 1 == 1, memRead buf 15 1 == 1]
    noiseReg := BitVec.ofNat 3 (memRead buf 16 1)
    noiseCounter := BitVec.ofNat 11 (memRead buf 17 2)
    noiseShift := BitVec.ofNat 16 (memRead buf 19 2)
    noiseOut := memRead buf 21 1 % 2 == 1
    noiseToggle := memRead buf 21 1 / 2 % 2 == 1
    volume :=
      #v[BitVec.ofNat 4 (memRead buf 22 1), BitVec.ofNat 4 (memRead buf 23 1), BitVec.ofNat 4 (memRead buf 24 1),
        BitVec.ofNat 4 (memRead buf 25 1)]
    latchedChannel := channelFromByte (memRead buf 26 1)
    latchedType := if memRead buf 27 1 = 1 then .volume else .toneOrNoise
    clockDivider := BitVec.ofNat 4 (memRead buf 28 4)
    clockCounter := BitVec.ofNat 64 (memRead buf 32 8)
    bufferPos := 0 }

/-- R101: the checks in their order: the length, the version, the fields. -/
def imageError (v : Variant) (buf : List Byte) : Option Error :=
  if buf.length < snapshotSize then some .bufferTooSmall
  else if buf.getD 0 0 ≠ snapshotVersion then some (.unsupportedVersion (buf.getD 0 0))
  else (firstFailure (imageChecks v buf)).map .invalidState

/-- R101: `deserialize(buf)`. -/
def doDeserialize (buf : List Byte) (s : State) : Host.Outcome State Fault Refusal :=
  match imageError s.config.variant buf with
  | some e => .next (s.raise e buf)
  | none => .next (loadImage buf s)

end Sys2Proof.Machine
end

