-- ==== Sys2Proof/Machine/Transactions.lean ====
section
/-! DEFINITION. The host transactions (00_scope.md R11), one arm each. -/

namespace Sys2Proof.Machine

/-- R56: one byte to the write port: it is decoded and its command runs at once (R42). -/
def doWrite (b : Byte) (s : State) : Host.Outcome State Fault Refusal := exec (decodeByte b) s

/-- R11: one host transaction, atomic, on the state from which it has been taken. -/
def perform (t : Transaction) (s : State) : Host.Outcome State Fault Refusal :=
  match t with
  | .construct cf sr cap v => doConstruct cf sr cap v s
  | .write b => doWrite b s
  | .clock => doClock s
  | .run n => doRun n s
  | .generateSamples n => doGenerateSamples n s
  | .resetBuffer => doResetBuffer s
  | .reset => doReset s
  | .sample => doSample s
  | .setGain g => doSetGain g s
  | .getGain => doGetGain s
  | .clocksPerSample => doClocksPerSample s
  | .channelBuffer ch => doChannelBuffer ch s
  | .mixedBuffer => doMixedBuffer s
  | .serializeSize => doSerializeSize s
  | .serialize buf => doSerialize buf s
  | .deserialize buf => doDeserialize buf s
  | .toneRegister ch => doToneRegister ch s
  | .volumeRegister ch => doVolumeRegister ch s
  | .noiseRegister => doNoiseRegister s
  | .noiseShiftRegister => doNoiseShiftRegister s
  | .volumeTable => doVolumeTable s
  | .secondAgent => .refused .secondAgent

/-- R11, R42: the oldest pending transaction runs; with none pending the block holds its state (R117). -/
def takeTransaction (s : State) : Host.Outcome State Fault Refusal :=
  match s.pending with
  | [] => .next s
  | t :: rest => perform t (s.accept rest)

/-- The state in which the byte `b` is the host's next write, ahead of whatever it has pending. -/
def issueWrite (b : Byte) (s : State) : State := { s with pending := .write b :: s.pending }

end Sys2Proof.Machine
end

