-- ==== Sys2Proof/Machine/Step.lean ====
section
/-! DEFINITION. One step of the machine: one host transaction. -/

namespace Sys2Proof.Machine

/-- R11, R42. -/
def step (s : State) : Host.Outcome State Fault Refusal := takeTransaction s

/-- `s` with the command of the `nbits` low bits of `w` as the host's next write (log entry 1). -/
def State.withFetchWord (s : State) (nbits w : Nat) : State := issueWrite (tableByte nbits w) s

end Sys2Proof.Machine
end

