-- ==== Sys2Proof/Machine/Assembler.lean ====
section
/-! DEFINITION. The spec's assembler: each line is a sequence of host transactions (30_encoding.md R54, R55). -/

namespace Sys2Proof.Machine

/-- The write of a command. -/
def writeOf (i : Instr) : Transaction := .write (encode i)

/-- R54: `LATCH.T<ch> #d`, for ch in 0 ..= 2. -/
def latchToneLine (ch d : Nat) : Transaction :=
  match ch with
  | 0 => writeOf (.latchT0 (BitVec.ofNat 4 d))
  | 1 => writeOf (.latchT1 (BitVec.ofNat 4 d))
  | _ => writeOf (.latchT2 (BitVec.ofNat 4 d))

/-- R54: `LATCH.V<ch> #a`, for ch in 0 ..= 3. -/
def latchVolumeLine (ch a : Nat) : Transaction :=
  match ch with
  | 0 => writeOf (.latchV0 (BitVec.ofNat 4 a))
  | 1 => writeOf (.latchV1 (BitVec.ofNat 4 a))
  | 2 => writeOf (.latchV2 (BitVec.ofNat 4 a))
  | _ => writeOf (.latchV3 (BitVec.ofNat 4 a))

/-- The transactions of a line whose operands are in range. -/
def expandLine : AsmLine → List Transaction
  | .latchT0 d => [latchToneLine 0 d]
  | .latchT1 d => [latchToneLine 1 d]
  | .latchT2 d => [latchToneLine 2 d]
  | .latchN d => [writeOf (.latchN (BitVec.ofNat 4 d))]
  | .latchV0 d => [latchVolumeLine 0 d]
  | .latchV1 d => [latchVolumeLine 1 d]
  | .latchV2 d => [latchVolumeLine 2 d]
  | .latchV3 d => [latchVolumeLine 3 d]
  | .data d => [writeOf (.data false (BitVec.ofNat 6 d))]
  | .dataX d => [writeOf (.data true (BitVec.ofNat 6 d))]
  | .clock n => List.replicate n .clock
  | .run n => [.run n]
  | .gen n => [.generateSamples n]
  | .resetBuf => [.resetBuffer]
  | .reset => [.reset]
  | .sample => [.sample]
  | .gain g => [.setGain g]
  | .save buf => [.serialize buf]
  | .load img => [.deserialize img]
  | .tone ch n => [latchToneLine ch (n % 16), writeOf (.data false (BitVec.ofNat 6 (n / 16)))]
  | .noise m r => [writeOf (.latchN (BitVec.ofNat 4 (4 * m + r)))]
  | .vol ch a => [latchVolumeLine ch a]
  | .tick k => List.replicate (16 * k) .clock

/-- R54, R55: the expansion of a line, none when an operand is out of its range. -/
def assemble (line : AsmLine) : Option (List Transaction) := if line.wf then some (expandLine line) else none

end Sys2Proof.Machine
end

