-- ==== Sys2Proof/Safety.lean ====
section
/-! DEFINITION. What a legal state is (10_state.md R12, R31), and the terms the statements use. -/

namespace Sys2Proof

/-- The transactions that R39 says change no state of the block. -/
def Transaction.isRead : Transaction → Bool
  | .sample | .getGain | .clocksPerSample | .channelBuffer _ | .serializeSize | .serialize _ => true
  | .toneRegister _ | .volumeRegister _ | .noiseRegister | .noiseShiftRegister | .volumeTable => true
  | .construct _ _ _ _ | .write _ | .clock | .run _ | .generateSamples _ | .resetBuffer | .reset => false
  | .setGain _ | .mixedBuffer | .deserialize _ | .secondAgent => false

/-- The transactions that advance input clocks (R66, R89, R90). -/
def Transaction.isClock : Transaction → Bool
  | .clock | .run _ | .generateSamples _ => true
  | .sample | .getGain | .clocksPerSample | .channelBuffer _ | .serializeSize | .serialize _ => false
  | .toneRegister _ | .volumeRegister _ | .noiseRegister | .noiseShiftRegister | .volumeTable => false
  | .construct _ _ _ _ | .write _ | .resetBuffer | .reset | .setGain _ | .mixedBuffer => false
  | .deserialize _ | .secondAgent => false

/-- The transactions that set the whole state anew or load it: construct, reset, deserialize (R30). -/
def Transaction.isLoad : Transaction → Bool
  | .construct _ _ _ _ | .reset | .deserialize _ => true
  | .write _ | .clock | .run _ | .generateSamples _ | .resetBuffer | .setGain _ | .mixedBuffer => false
  | .sample | .getGain | .clocksPerSample | .channelBuffer _ | .serializeSize | .serialize _ => false
  | .toneRegister _ | .volumeRegister _ | .noiseRegister | .noiseShiftRegister | .volumeTable | .secondAgent => false

/-- A write to the command port. -/
def Transaction.isWrite : Transaction → Bool
  | .write _ => true
  | .clock | .run _ | .generateSamples _ | .resetBuffer | .setGain _ | .mixedBuffer => false
  | .construct _ _ _ _ | .reset | .deserialize _ | .secondAgent => false
  | .sample | .getGain | .clocksPerSample | .channelBuffer _ | .serializeSize | .serialize _ => false
  | .toneRegister _ | .volumeRegister _ | .noiseRegister | .noiseShiftRegister | .volumeTable => false

/-- The channel index of a transaction is within its accessor's range (R110). -/
def Transaction.indexLegal : Transaction → Bool
  | .channelBuffer ch => decide (channelLegal 4 ch)
  | .toneRegister ch => decide (channelLegal 3 ch)
  | .volumeRegister ch => decide (channelLegal 4 ch)
  | .construct _ _ _ _ | .write _ | .clock | .run _ | .generateSamples _ | .resetBuffer | .reset => true
  | .sample | .getGain | .setGain _ | .clocksPerSample | .mixedBuffer | .serializeSize | .serialize _ => true
  | .deserialize _ | .noiseRegister | .noiseShiftRegister | .volumeTable | .secondAgent => true

end Sys2Proof

namespace Sys2Proof.Machine

/-! ## Legal states -/

/-- R12, R31: the registers, counters, LFSR and buffer position lie in their ranges, and the configuration is legal. The
widths that types already give (10, 3, 4, 2 and 4 bits) need no clause. -/
abbrev State.RegistersLegal (s : State) : Prop :=
  s.config.legal ∧
    (∀ i : Fin 3, s.toneCounter[i].toNat ≤ counterBound s.config.variant) ∧
    s.noiseCounter.toNat ≤ counterBound s.config.variant ∧
    1 ≤ s.noiseShift.toNat ∧ s.noiseShift.toNat ≤ 2 ^ s.config.variant.lfsrBits - 1 ∧
    s.bufferPos ≤ s.config.bufferCapacity

/-- R27: one buffer is in its canonical form and lists no element at or beyond the capacity. -/
abbrev bufferLegal (capacity : Nat) (m : Memory) : Prop := m.wf ∧ ∀ c ∈ m, c.1 < capacity

/-- R27: the five buffers are legal. -/
abbrev State.BuffersLegal (s : State) : Prop :=
  (∀ c : Fin 4, bufferLegal s.config.bufferCapacity s.chBuf[c]) ∧ bufferLegal s.config.bufferCapacity s.mixBuf

/-- R27, R88: the channel buffers hold nothing but values of the volume table. -/
abbrev State.LevelsOnly (s : State) : Prop :=
  ∀ c : Fin 4, ∀ cell ∈ s.chBuf[c], cell.2 ∈ volumeTable.toList

/-- R25, R9: `clock_counter` is finite and not less than 0, and the gain is finite. -/
abbrev State.NumbersLegal (s : State) : Prop :=
  f64Finite s.clockCounter = true ∧ f64ge s.clockCounter 0 = true ∧ gainLegal s.gain

/-! ## Terms of the statements -/

/-- The latch form of tone channel `i` (R57, R58, R59). -/
def toneLatch (i : Fin 3) (d : BitVec 4) : Instr :=
  match i with
  | 0 => .latchT0 d
  | 1 => .latchT1 d
  | 2 => .latchT2 d

/-- The latch form of volume `i` (R61 to R64). -/
def volumeLatch (i : Fin 4) (d : BitVec 4) : Instr :=
  match i with
  | 0 => .latchV0 d
  | 1 => .latchV1 d
  | 2 => .latchV2 d
  | 3 => .latchV3 d

/-- The value a register reloads, as a number: the register, or `tone_zero_value` where it is 0 (R69, R73). -/
def reloadNumber (v : Variant) (r : BitVec 10) : Nat := if r.toNat = 0 then v.toneZeroValue else r.toNat

/-- The rate field of the noise register, as a number (R15). -/
def rateNumber (s : State) : Nat := s.noiseReg.toNat % 4

/-- R73's table, as numbers. -/
def noiseReloadNumber (s : State) : Nat :=
  if rateNumber s = 0 then 16
  else if rateNumber s = 1 then 32
  else if rateNumber s = 2 then 64
  else reloadNumber s.config.variant s.toneReg[2]

/-- Bit `k` of a number. -/
def bitOf (x k : Nat) : Nat := x / 2 ^ k % 2

/-- How many of the 16 low bits of `x` are also in `mask`. -/
def commonBits (x mask : Nat) : Nat := ((List.range 16).map fun k => bitOf x k * bitOf mask k).sum

/-- R102's table, by the offset of a field; any other offset has no field to fail. -/
def FieldLegal (v : Variant) (buf : List Byte) (offset : Nat) : Prop :=
  match offset with
  | 1 | 3 | 5 => memRead buf offset 2 ≤ 0x3FF
  | 7 | 9 | 11 | 17 => memRead buf offset 2 ≤ max 1023 v.toneZeroValue
  | 13 | 14 | 15 | 27 => memRead buf offset 1 = 0 ∨ memRead buf offset 1 = 1
  | 16 => memRead buf offset 1 ≤ 7
  | 19 => 1 ≤ memRead buf offset 2 ∧ memRead buf offset 2 ≤ 2 ^ v.lfsrBits - 1
  | 21 | 26 => memRead buf offset 1 ≤ 3
  | 22 | 23 | 24 | 25 => memRead buf offset 1 ≤ 15
  | 28 => memRead buf offset 4 ≤ 15
  | 32 => f64Finite (BitVec.ofNat 64 (memRead buf offset 8)) = true ∧
      f64ge (BitVec.ofNat 64 (memRead buf offset 8)) 0 = true
  | _ => True

/-- The state `u` with every element of the snapshot image taken from `s`, and `buffer_pos` 0 (R103). -/
def restored (s u : State) : State :=
  { u with
    toneReg := s.toneReg, toneCounter := s.toneCounter, toneOut := s.toneOut
    noiseReg := s.noiseReg, noiseCounter := s.noiseCounter, noiseShift := s.noiseShift
    noiseOut := s.noiseOut, noiseToggle := s.noiseToggle, volume := s.volume
    latchedChannel := s.latchedChannel, latchedType := s.latchedType
    clockDivider := s.clockDivider, clockCounter := s.clockCounter, bufferPos := 0 }

/-- How many emissions took `s` to `t` when `d` of them were dropped: those stored, and those dropped (R88). -/
def emissions (s t : State) (d : Nat) : Nat := t.bufferPos - s.bufferPos + d

end Sys2Proof.Machine
end

