-- ==== Sys2Proof/Certificates/Slice0/Obligations.lean ====
section
/-! DEFINITION. The statements for the provers, in the order of OBLIGATIONS.json. -/

open Sys2Proof Sys2Proof.Machine

/-! ## Transactions and steps -/

/-- R56, R42: when the byte at the head of the queue decodes to `i`, a step is `exec i` on the state from which the
transaction has been taken (its result is Ok until the transaction returns another). -/
def Obligations.StepRunsTheDecodedCommand : Prop :=
  ∀ (s : State) (b : Byte) (rest : List Transaction) (tail : List Byte) (i : Instr),
    s.pending = .write b :: rest → decode (b :: tail) = .ok (i, tail) →
      step s = exec i { s with pending := rest, result := .ok }

/-- R11, R42, R117: a step runs the oldest pending transaction; with none pending the block holds its state. That
transactions reach the block through a queue is the model's own (log entry 1). -/
def Obligations.StepTakesTheOldestTransaction : Prop :=
  ∀ s : State,
    (∀ (t : Transaction) (rest : List Transaction), s.pending = t :: rest →
      step s = perform t { s with pending := rest, result := .ok }) ∧
    (s.pending = [] → step s = .next s)

/-- R11, R42: every transaction that completes has consumed exactly itself, so the order of effects is the issue
order. -/
def Obligations.EachStepConsumesOneTransaction : Prop :=
  ∀ (s s' : State) (t : Transaction) (rest : List Transaction),
    s.pending = t :: rest → step s = .next s' → s'.pending = rest

/-! ## The write port -/

/-- R57, R58, R59: the tone latch form of channel `i`, byte `0x80 | 0x20 * i | d`, sets the low nibble of its tone
register, keeps the high six bits, latches `(i, TONE_OR_NOISE)`, and changes nothing else. -/
def Obligations.ToneLatchSetsLowNibbleAndLatch : Prop :=
  ∀ (i : Fin 3) (d : BitVec 4) (s : State), ∃ t : State,
    exec (toneLatch i d) s = .next t ∧
    perform (.write (BitVec.ofNat 8 (0x80 + 0x20 * i.val + d.toNat))) s = .next t ∧
    t.latchedChannel.val = i.val ∧ t.latchedType = .toneOrNoise ∧
    t.toneReg[i].toNat = 16 * (s.toneReg[i].toNat / 16) + d.toNat ∧
    (∀ j : Fin 3, j ≠ i → t.toneReg[j] = s.toneReg[j]) ∧
    t = { s with latchedChannel := t.latchedChannel, latchedType := t.latchedType, toneReg := t.toneReg }

/-- R60: the noise latch form, byte `0xE0 | d`, sets the noise register to the low three bits, restarts the LFSR, latches
`(3, TONE_OR_NOISE)`, and changes nothing else. -/
def Obligations.NoiseLatchSetsRegisterAndRestartsLfsr : Prop :=
  ∀ (d : BitVec 4) (s : State), ∃ t : State,
    exec (.latchN d) s = .next t ∧
    perform (.write (BitVec.ofNat 8 (0xE0 + d.toNat))) s = .next t ∧
    t.latchedChannel.val = 3 ∧ t.latchedType = .toneOrNoise ∧
    t.noiseReg.toNat = d.toNat % 8 ∧
    (s.config.variant.legal → t.noiseShift.toNat = 2 ^ (s.config.variant.lfsrBits - 1)) ∧
    t = { s with
      latchedChannel := t.latchedChannel, latchedType := t.latchedType, noiseReg := t.noiseReg
      noiseShift := lfsrInitial s.config.variant }

/-- R61 to R64: the volume latch form of channel `i`, byte `0x90 | 0x20 * i | d`, sets its volume, latches
`(i, VOLUME)`, and changes nothing else. -/
def Obligations.VolumeLatchSetsVolumeAndLatch : Prop :=
  ∀ (i : Fin 4) (d : BitVec 4) (s : State), ∃ t : State,
    exec (volumeLatch i d) s = .next t ∧
    perform (.write (BitVec.ofNat 8 (0x90 + 0x20 * i.val + d.toNat))) s = .next t ∧
    t.latchedChannel = i ∧ t.latchedType = .volume ∧ t.volume[i] = d ∧
    (∀ j : Fin 4, j ≠ i → t.volume[j] = s.volume[j]) ∧
    t = { s with latchedChannel := t.latchedChannel, latchedType := t.latchedType, volume := t.volume }

/-- R65: a data byte, `d` with bit 6 either way, by the latch: the high six bits of a tone register, the noise register with a restart of the
LFSR, or nothing. The latch never changes. -/
def Obligations.DataByteActsOnTheLatchedRegister : Prop :=
  ∀ (x : Bool) (d : BitVec 6) (s : State), ∃ t : State,
    exec (.data x d) s = .next t ∧
    perform (.write (BitVec.ofNat 8 ((if x then 0x40 else 0) + d.toNat))) s = .next t ∧
    (s.latchedType = .volume → t = s) ∧
    (s.latchedType = .toneOrNoise → ∀ i : Fin 3, s.latchedChannel.val = i.val →
      t.toneReg[i].toNat = 16 * d.toNat + s.toneReg[i].toNat % 16 ∧
      (∀ j : Fin 3, j ≠ i → t.toneReg[j] = s.toneReg[j]) ∧
      t = { s with toneReg := t.toneReg }) ∧
    (s.latchedType = .toneOrNoise → s.latchedChannel.val = 3 →
      t.noiseReg.toNat = d.toNat % 8 ∧
      t = { s with noiseReg := t.noiseReg, noiseShift := lfsrInitial s.config.variant })

/-- R33: every one of the 256 bytes completes, and none changes a counter, an output bit, the prescaler, the resampler
or a buffer: each buffer element reads as before. -/
def Obligations.EveryByteCompletesAndWritesOnlyRegisters : Prop :=
  ∀ (b : Byte) (s : State), ∃ t : State,
    perform (.write b) s = .next t ∧
    (∀ (c : Fin 4) (k : Nat), Memory.read t.chBuf[c] k = Memory.read s.chBuf[c] k) ∧
    (∀ k : Nat, Memory.read t.mixBuf k = Memory.read s.mixBuf k) ∧
    t = { s with
      toneReg := t.toneReg, noiseReg := t.noiseReg, noiseShift := t.noiseShift, volume := t.volume
      latchedChannel := t.latchedChannel, latchedType := t.latchedType }

/-- R56: a byte with bit 7 set latches its CC and T fields and writes exactly the register they select. -/
def Obligations.FormatLByteSelectsByItsFields : Prop :=
  ∀ (b : Byte) (s : State), b.getLsbD 7 = true → ∃ t : State,
    perform (.write b) s = .next t ∧
    t.latchedChannel.val = b.toNat / 32 % 4 ∧
    (t.latchedType = .volume ↔ b.toNat / 16 % 2 = 1) ∧
    (b.toNat / 16 % 2 = 1 →
      (∀ c : Fin 4, t.volume[c].toNat = if c.val = b.toNat / 32 % 4 then b.toNat % 16 else s.volume[c].toNat) ∧
      t.toneReg = s.toneReg ∧ t.noiseReg = s.noiseReg ∧ t.noiseShift = s.noiseShift) ∧
    (b.toNat / 16 % 2 = 0 →
      t.volume = s.volume ∧
      (∀ i : Fin 3, t.toneReg[i].toNat =
        if i.val = b.toNat / 32 % 4 then 16 * (s.toneReg[i].toNat / 16) + b.toNat % 16 else s.toneReg[i].toNat) ∧
      (b.toNat / 32 % 4 = 3 → t.noiseReg.toNat = b.toNat % 8 ∧ t.noiseShift = lfsrInitial s.config.variant) ∧
      (b.toNat / 32 % 4 ≠ 3 → t.noiseReg = s.noiseReg ∧ t.noiseShift = s.noiseShift))

/-- R52: every byte is a command that completes, and the bits the table lists are accepted and ignored. -/
def Obligations.IgnoredBitsHaveNoEffect : Prop :=
  ∀ s : State,
    (∀ b : Byte, ∃ t : State, perform (.write b) s = .next t) ∧
    (∀ (x y : Bool) (d : BitVec 6), exec (.data x d) s = exec (.data y d) s) ∧
    (∀ d e : BitVec 4, d.toNat % 8 = e.toNat % 8 → exec (.latchN d) s = exec (.latchN e) s) ∧
    (s.latchedType = .toneOrNoise → s.latchedChannel.val = 3 →
      ∀ (x y : Bool) (d e : BitVec 6), d.toNat % 8 = e.toNat % 8 → exec (.data x d) s = exec (.data y e) s) ∧
    (s.latchedType = .volume → ∀ (x : Bool) (d : BitVec 6), exec (.data x d) s = .next s)

/-! ## Encoding -/

/-- R51: each of the 256 bytes matches exactly one row of the opcode map, the row of the command it decodes to. -/
def Obligations.OpcodeRowsPartitionTheBytes : Prop :=
  ∀ b : Byte, (opcodeRows.filter fun r => r.matches b).map (fun r => r.mnemonic) = [(decodeByte b).mnemonic]

/-- R48, R49: words written out bit by bit from the two formats decode to the commands they stand for. -/
def Obligations.SpecWordsDecode : Prop :=
  decodeByte 0b10000100 = .latchT0 4 ∧ decodeByte 0b10100011 = .latchT1 3 ∧ decodeByte 0b11000101 = .latchT2 5 ∧
  decodeByte 0b11100011 = .latchN 3 ∧ decodeByte 0b10010000 = .latchV0 0 ∧ decodeByte 0b10110100 = .latchV1 4 ∧
  decodeByte 0b11011111 = .latchV2 15 ∧ decodeByte 0b11110000 = .latchV3 0 ∧
  decodeByte 0b00010000 = .data false 16 ∧ decodeByte 0b01111111 = .data true 63

/-- R47, R53: any sequence of commands is read back from its bytes, with every operand at every value; and any byte
stream is the encoding of the commands read from it, so no bit is dropped and no byte has two meanings. -/
def Obligations.CommandStreamsRoundTrip : Prop :=
  (∀ program : List Instr, decodeStream (encodeStream program) = program) ∧
  (∀ bytes : List Byte, encodeStream (decodeStream bytes) = bytes)

/-- R55: the pseudo-instructions TONE, NOISE and VOL, run from any state, leave the register they name at their
operand. -/
def Obligations.PseudoInstructionsSetTheirRegister : Prop :=
  (∀ (ch : Fin 3) (n : Nat) (s : State), n ≤ 1023 → ∃ (ts : List Transaction) (t : State),
    assemble (.tone ch.val n) = some ts ∧ Sys2Proof.core.run ts.length { s with pending := ts } = .next t ∧
    t.toneReg[ch].toNat = n ∧ (∀ j : Fin 3, j ≠ ch → t.toneReg[j] = s.toneReg[j]) ∧
    t.toneCounter = s.toneCounter ∧ t.toneOut = s.toneOut) ∧
  (∀ (m r : Nat) (s : State), m ≤ 1 → r ≤ 3 → ∃ (ts : List Transaction) (t : State),
    assemble (.noise m r) = some ts ∧ Sys2Proof.core.run ts.length { s with pending := ts } = .next t ∧
    t.noiseReg.toNat = 4 * m + r ∧ t.noiseShift = lfsrInitial s.config.variant) ∧
  (∀ (ch : Fin 4) (a : Nat) (s : State), a ≤ 15 → ∃ (ts : List Transaction) (t : State),
    assemble (.vol ch.val a) = some ts ∧ Sys2Proof.core.run ts.length { s with pending := ts } = .next t ∧
    t.volume[ch].toNat = a ∧ ∀ j : Fin 4, j ≠ ch → t.volume[j] = s.volume[j])

/-! ## Prescaler and tone generators -/

/-- R66: `clock()` completes and leaves the resampler and the buffers; short of the sixteenth clock only the divider
moves; and any `16 * k` consecutive clocks are exactly `k` internal ticks, whatever the divider was. The spec marks the
last clause as its own inference (from R66 and R24), and that `clock()` leaves the resampler and the buffers as its
decision D8 (log entry 15). -/
def Obligations.SixteenClocksMakeOneTick : Prop :=
  ∀ (s : State) (k : Nat),
    perform .clock s = .next (clockStep s) ∧
    (clockStep s).clockCounter = s.clockCounter ∧ (clockStep s).bufferPos = s.bufferPos ∧
    (clockStep s).chBuf = s.chBuf ∧ (clockStep s).mixBuf = s.mixBuf ∧
    (s.clockDivider.toNat + k < 16 →
      clockStep^[k] s = { s with clockDivider := BitVec.ofNat 4 (s.clockDivider.toNat + k) }) ∧
    clockStep^[16 * k] s = internalTick^[k] s

/-- R67, R66, R87, R30: an internal tick changes only the generators' own elements, `clock()` those and the divider, and
a run of any length those, the accumulator, `buffer_pos` and the channel buffers. -/
def Obligations.ClocksChangeOnlyTheirElements : Prop :=
  ∀ s : State,
    internalTick s = { s with
      toneCounter := (internalTick s).toneCounter, toneOut := (internalTick s).toneOut
      noiseCounter := (internalTick s).noiseCounter, noiseToggle := (internalTick s).noiseToggle
      noiseOut := (internalTick s).noiseOut, noiseShift := (internalTick s).noiseShift } ∧
    (∃ t : State, perform .clock s = .next t ∧ t = { s with
      toneCounter := t.toneCounter, toneOut := t.toneOut, noiseCounter := t.noiseCounter
      noiseToggle := t.noiseToggle, noiseOut := t.noiseOut, noiseShift := t.noiseShift
      clockDivider := t.clockDivider }) ∧
    (∀ n : Nat, n ≤ 2 ^ 32 - 1 → ∃ t : State, perform (.run n) s = .next t ∧ t = { s with
      toneCounter := t.toneCounter, toneOut := t.toneOut, noiseCounter := t.noiseCounter
      noiseToggle := t.noiseToggle, noiseOut := t.noiseOut, noiseShift := t.noiseShift
      clockDivider := t.clockDivider, clockCounter := t.clockCounter, bufferPos := t.bufferPos
      chBuf := t.chBuf, result := t.result })

/-- R68, R69: at each tick a tone counter above 1 counts down; otherwise it reloads and its output toggles. -/
def Obligations.ToneStepCountsDownThenReloads : Prop :=
  ∀ s : State, s.config.variant.legal → ∀ i : Fin 3,
    (1 < s.toneCounter[i].toNat →
      (internalTick s).toneCounter[i].toNat = s.toneCounter[i].toNat - 1 ∧
      (internalTick s).toneOut[i] = s.toneOut[i]) ∧
    (s.toneCounter[i].toNat ≤ 1 →
      (internalTick s).toneCounter[i].toNat = reloadNumber s.config.variant s.toneReg[i] ∧
      (internalTick s).toneOut[i] = !s.toneOut[i])

/-- R70, the period law: from a reload, after `k` ticks the counter and the output are those of a square wave whose
half-period is the reload value. -/
def Obligations.TonePeriodLaw : Prop :=
  ∀ s : State, s.config.variant.legal → ∀ i : Fin 3,
    s.toneCounter[i].toNat = reloadNumber s.config.variant s.toneReg[i] → ∀ k : Nat,
      (internalTick^[k] s).toneCounter[i].toNat =
        reloadNumber s.config.variant s.toneReg[i] - k % reloadNumber s.config.variant s.toneReg[i] ∧
      (internalTick^[k] s).toneOut[i] =
        xor s.toneOut[i] (decide (k / reloadNumber s.config.variant s.toneReg[i] % 2 = 1))

/-- R71: a command byte moves no running counter and no output: the counter runs out as if nothing had been written,
and then reloads from the register as written. -/
def Obligations.ToneWriteWaitsForTheReload : Prop :=
  ∀ (s t : State) (b : Byte) (i : Fin 3),
    s.config.variant.legal → perform (.write b) s = .next t → 1 ≤ s.toneCounter[i].toNat →
      (∀ k : Nat, k < s.toneCounter[i].toNat →
        (internalTick^[k] t).toneCounter[i] = (internalTick^[k] s).toneCounter[i] ∧
        (internalTick^[k] t).toneOut[i] = s.toneOut[i]) ∧
      (internalTick^[s.toneCounter[i].toNat] t).toneCounter[i].toNat =
        reloadNumber s.config.variant t.toneReg[i] ∧
      (internalTick^[s.toneCounter[i].toNat] t).toneOut[i] = !s.toneOut[i]

/-- R18, R20, R31: after an internal tick every counter is at least 1. -/
def Obligations.CountersAreAtLeastOneAfterATick : Prop :=
  ∀ s : State, s.config.variant.legal →
    (∀ i : Fin 3, 1 ≤ (internalTick s).toneCounter[i].toNat) ∧ 1 ≤ (internalTick s).noiseCounter.toNat

/-! ## Noise generator -/

/-- R72 to R75, R78: the noise step, with R73's reload values: the counter, the toggle, and on a rising edge only the
capture of bit 0 and then the shift. -/
def Obligations.NoiseStepFollowsItsCounter : Prop :=
  ∀ s : State, s.config.variant.legal →
    (1 < s.noiseCounter.toNat →
      (internalTick s).noiseCounter.toNat = s.noiseCounter.toNat - 1 ∧
      (internalTick s).noiseToggle = s.noiseToggle ∧
      (internalTick s).noiseOut = s.noiseOut ∧ (internalTick s).noiseShift = s.noiseShift) ∧
    (s.noiseCounter.toNat ≤ 1 →
      (internalTick s).noiseCounter.toNat = noiseReloadNumber s ∧
      (internalTick s).noiseToggle = !s.noiseToggle ∧
      (s.noiseToggle = true →
        (internalTick s).noiseOut = s.noiseOut ∧ (internalTick s).noiseShift = s.noiseShift) ∧
      (s.noiseToggle = false →
        (internalTick s).noiseOut = decide (s.noiseShift.toNat % 2 = 1) ∧
        (internalTick s).noiseShift =
          lfsrShift s.config.variant (decide (s.noiseReg.toNat / 4 = 1)) s.noiseShift))

/-- R80: from just after a rising edge, with the registers left alone, the next shift comes exactly `2 * R` internal
ticks later, `R` being R73's reload value; in between neither the LFSR nor the captured bit moves. -/
def Obligations.NoiseShiftsEveryTwoReloads : Prop :=
  ∀ s : State, s.config.variant.legal → s.noiseToggle = true → s.noiseCounter.toNat = noiseReloadNumber s →
    (∀ k : Nat, k < 2 * noiseReloadNumber s →
      (internalTick^[k] s).noiseShift = s.noiseShift ∧ (internalTick^[k] s).noiseOut = s.noiseOut ∧
      (internalTick^[k] s).noiseToggle = decide (k < noiseReloadNumber s)) ∧
    (internalTick^[2 * noiseReloadNumber s] s).noiseShift =
      lfsrShift s.config.variant (decide (s.noiseReg.toNat / 4 = 1)) s.noiseShift ∧
    (internalTick^[2 * noiseReloadNumber s] s).noiseOut = decide (s.noiseShift.toNat % 2 = 1) ∧
    (internalTick^[2 * noiseReloadNumber s] s).noiseToggle = true ∧
    (internalTick^[2 * noiseReloadNumber s] s).noiseCounter.toNat = noiseReloadNumber s

/-- R76, R77, R78: one shift moves every bit down by one and puts the feedback in the top bit: the parity of the tapped
bits in white mode, bit 0 in periodic mode. -/
def Obligations.LfsrShiftPutsFeedbackInTheTopBit : Prop :=
  ∀ (v : Variant) (x : BitVec 16), v.legal → x.toNat < 2 ^ v.lfsrBits →
    (lfsrShift v true x).toNat = x.toNat / 2 + commonBits x.toNat v.whiteTaps % 2 * 2 ^ (v.lfsrBits - 1) ∧
    (lfsrShift v false x).toNat = x.toNat / 2 + x.toNat % 2 * 2 ^ (v.lfsrBits - 1)

/-- R77, R79: in periodic mode every N-bit value returns after N shifts, and from the initial value bit 0 is set
before exactly one shift in N, the N-th. -/
def Obligations.PeriodicNoiseRepeatsEveryNShifts : Prop :=
  ∀ v : Variant, v.legal →
    (∀ x : BitVec 16, x.toNat < 2 ^ v.lfsrBits → (lfsrShift v false)^[v.lfsrBits] x = x) ∧
    (∀ k : Nat, ((lfsrShift v false)^[k] (lfsrInitial v)).getLsbD 0 = decide (k % v.lfsrBits = v.lfsrBits - 1))

/-- R79: the period of the white sequence from the initial value, in shifts, on the two predefined variants. -/
def Obligations.WhiteNoisePeriods : Prop :=
  Function.minimalPeriod (lfsrShift Variant.sega true) (lfsrInitial Variant.sega) = 57337 ∧
  Function.minimalPeriod (lfsrShift Variant.ti true) (lfsrInitial Variant.ti) = 32767

/-! ## Volume table, mixer, gain -/

/-- R81: every entry below 15 is the binary32 nearest to `10 ^ (-i / 10)` (its neighbours half a step away lie on either
side, compared through tenth powers), entry 15 is +0.0, and neighbouring entries fall by a ratio in [0.7, 0.9]. -/
def Obligations.VolumeTableIsTheRoundedPower : Prop :=
  volumeTable[15] = 0 ∧
  (∀ i : Fin 15,
    let u := magUnits binary32 volumeTable[i.val].toNat
    let ulp := 2 ^ (volumeTable[i.val].toNat / 2 ^ 23 - 1)
    (2 * u - ulp) ^ 10 * 10 ^ i.val ≤ (2 ^ 150) ^ 10 ∧ (2 ^ 150) ^ 10 ≤ (2 * u + ulp) ^ 10 * 10 ^ i.val) ∧
  (∀ i : Fin 14,
    7 * magUnits binary32 volumeTable[i.val].toNat ≤ 10 * magUnits binary32 volumeTable[i.val + 1].toNat ∧
    10 * magUnits binary32 volumeTable[i.val + 1].toNat ≤ 9 * magUnits binary32 volumeTable[i.val].toNat)

/-- R83, R84: `sample()` returns the four levels added in channel order and multiplied by the gain, and changes
nothing but the returned value. -/
def Obligations.SampleReturnsTheGainedSum : Prop :=
  ∀ s : State, ∃ l0 l1 l2 l3 : F32,
    l0 = (if s.toneOut[0] then volumeTable[s.volume[0].toNat] else 0) ∧
    l1 = (if s.toneOut[1] then volumeTable[s.volume[1].toNat] else 0) ∧
    l2 = (if s.toneOut[2] then volumeTable[s.volume[2].toNat] else 0) ∧
    l3 = (if s.noiseOut then volumeTable[s.volume[3].toNat] else 0) ∧
    perform .sample s =
      .next { s with result := .sample (f32mul (f32add (f32add (f32add l0 l1) l2) l3) s.gain) }

/-- R84: when every channel is LOW or at volume 15 the sample is a zero, with the sign of the gain. -/
def Obligations.SilentSampleIsAZero : Prop :=
  ∀ s : State, gainLegal s.gain → (∀ c : Fin 4, outputBit s c = false ∨ s.volume[c] = 15) →
    sampleValue s = if s.gain.getLsbD 31 then 0x80000000 else 0

/-- R84: with all four channels HIGH at volume 0 the sum is exactly 4.0 and the sample is 4.0 times the gain. -/
def Obligations.FullScaleSampleIsFourTimesTheGain : Prop :=
  ∀ s : State, (∀ c : Fin 4, outputBit s c = true ∧ s.volume[c] = 0) → sampleValue s = f32mul 0x40800000 s.gain

/-- R86: with a finite gain whose sign is positive, the sample is never negative and never a NaN. -/
def Obligations.MixIsUnipolar : Prop :=
  ∀ s : State, gainLegal s.gain → s.gain.getLsbD 31 = false →
    (sampleValue s).getLsbD 31 = false ∧ isNaN binary32 (sampleValue s).toNat = false

/-- R85, R111: `set_gain` stores a finite binary32 bit for bit and refuses a NaN or an infinity; `get_gain` returns what
is stored. -/
def Obligations.GainIsStoredBitForBit : Prop :=
  ∀ (g : F32) (s : State),
    (f32Finite g = true → perform (.setGain g) s = .next { s with gain := g }) ∧
    (f32Finite g = false → perform (.setGain g) s = .refused (.nonFiniteGain g)) ∧
    perform .getGain s = .next { s with result := .gain s.gain }

/-! ## Floating point (00_scope.md, Notation; D9, D10) -/

/-- Rounding is to the nearest magnitude of the format (the infinity counting as the next one after the largest finite),
and on a tie to the even one. Rounding to nearest even is D9, D10; that a value past the largest finite one rounds to
infinity by this same rule is IEEE 754's, log entry 15. -/
def Obligations.RoundingIsToNearestEven : Prop :=
  ∀ f : FloatFormat, f = binary32 ∨ f = binary64 → ∀ num den m : Nat, 0 < den → m ≤ infMag f →
    |(num : ℤ) - magUnits f (roundUnits f num den) * den| ≤ |(num : ℤ) - magUnits f m * den| ∧
    (|(num : ℤ) - magUnits f (roundUnits f num den) * den| = |(num : ℤ) - magUnits f m * den| →
      m ≠ roundUnits f num den → roundUnits f num den % 2 = 0)

/-- The five operations on finite operands: no finite value of the format is nearer to the exact result than the result,
where that is finite. -/
def Obligations.FloatOperationsAreNearest : Prop :=
  (∀ x y w : F32, f32Finite x = true → f32Finite y = true → f32Finite w = true → f32Finite (f32add x y) = true →
    |units binary32 (f32add x y).toNat - (units binary32 x.toNat + units binary32 y.toNat)| ≤
      |units binary32 w.toNat - (units binary32 x.toNat + units binary32 y.toNat)|) ∧
  (∀ x y w : F32, f32Finite x = true → f32Finite y = true → f32Finite w = true → f32Finite (f32mul x y) = true →
    |units binary32 (f32mul x y).toNat * 2 ^ 149 - units binary32 x.toNat * units binary32 y.toNat| ≤
      |units binary32 w.toNat * 2 ^ 149 - units binary32 x.toNat * units binary32 y.toNat|) ∧
  (∀ x y w : F64, f64Finite x = true → f64Finite y = true → f64Finite w = true → f64Finite (f64add x y) = true →
    |units binary64 (f64add x y).toNat - (units binary64 x.toNat + units binary64 y.toNat)| ≤
      |units binary64 w.toNat - (units binary64 x.toNat + units binary64 y.toNat)|) ∧
  (∀ x y w : F64, f64Finite x = true → f64Finite y = true → f64Finite w = true → f64Finite (f64sub x y) = true →
    |units binary64 (f64sub x y).toNat - (units binary64 x.toNat - units binary64 y.toNat)| ≤
      |units binary64 w.toNat - (units binary64 x.toNat - units binary64 y.toNat)|) ∧
  (∀ x y w : F64, f64Finite x = true → f64Finite y = true → f64Finite w = true → f64Finite (f64div x y) = true →
    units binary64 y.toNat ≠ 0 →
    |units binary64 (f64div x y).toNat * units binary64 y.toNat - units binary64 x.toNat * 2 ^ 1074| ≤
      |units binary64 w.toNat * units binary64 y.toNat - units binary64 x.toNat * 2 ^ 1074|)

/-! ## Resampler and buffers -/

/-- R87: one sample clock advances the prescaler (and the channels) first, then adds 1.0 to the accumulator, and at or
above `clocks_per_sample` subtracts it and emits, so that the emission sees the channels after this clock's tick. -/
def Obligations.SampleClockAdvancesThenEmits : Prop :=
  ∀ s : State,
    (f64ge (f64add s.clockCounter 0x3FF0000000000000) (clocksPerSample s.config) = true →
      sampleClock s = emit { clockStep s with
        clockCounter := f64sub (f64add s.clockCounter 0x3FF0000000000000) (clocksPerSample s.config) }) ∧
    (f64ge (f64add s.clockCounter 0x3FF0000000000000) (clocksPerSample s.config) = false →
      sampleClock s =
        ({ clockStep s with clockCounter := f64add s.clockCounter 0x3FF0000000000000 }, 0))

/-- R88: an emission below the capacity writes the four levels at `buffer_pos`, leaves every other element as it was
and counts no drop; at the capacity it changes nothing and counts one. The premise is `BuffersStayLegal`'s invariant. -/
def Obligations.EmissionAppendsOrDrops : Prop :=
  ∀ s : State, s.BuffersLegal →
    (s.bufferPos < s.config.bufferCapacity →
      (emit s).2 = 0 ∧
      (∀ (c : Fin 4) (k : Nat), Memory.read (emit s).1.chBuf[c] k =
        if k = s.bufferPos then level s c else Memory.read s.chBuf[c] k) ∧
      (emit s).1 = { s with chBuf := (emit s).1.chBuf, bufferPos := s.bufferPos + 1 }) ∧
    (s.config.bufferCapacity ≤ s.bufferPos → emit s = (s, 1))

/-- R95: two runs with no write between them are one run of the summed clocks: equal states, and the dropped counts
add up. -/
def Obligations.SplitRunsEqualOneRun : Prop :=
  ∀ (a b : Nat) (s : State), a + b ≤ 2 ^ 32 - 1 → ∃ (t u : State) (d e : Nat),
    perform (.run a) s = .next t ∧ t.result = .dropped d ∧
    perform (.run b) t = .next u ∧ u.result = .dropped e ∧
    perform (.run (a + b : Nat)) s = .next { u with result := .dropped (d + e) }

/-- R26, R88, R89: a run never moves `buffer_pos` back or past the capacity, emits at most once a clock, drops only
once the buffers are full, and leaves the samples already stored. -/
def Obligations.RunFillsThenDrops : Prop :=
  ∀ (n : Nat) (s t : State) (d : Nat), s.BuffersLegal → s.bufferPos ≤ s.config.bufferCapacity →
    n ≤ 2 ^ 32 - 1 → perform (.run n) s = .next t → t.result = .dropped d →
      s.bufferPos ≤ t.bufferPos ∧ t.bufferPos ≤ s.config.bufferCapacity ∧
      emissions s t d ≤ n ∧ (0 < d → t.bufferPos = s.config.bufferCapacity) ∧
      ∀ (c : Fin 4) (k : Nat), k < s.bufferPos → Memory.read t.chBuf[c] k = Memory.read s.chBuf[c] k

/-- R90, R91, R89: `reset_buffer` sets `buffer_pos` to 0 and nothing else; `generate_samples` is `reset_buffer` then
`run`; a count outside 0 ..= 2^32 - 1 is refused by both (R111), and every other count completes. -/
def Obligations.GenerateSamplesIsResetThenRun : Prop :=
  ∀ (n : Int) (s : State),
    perform .resetBuffer s = .next { s with bufferPos := 0 } ∧
    perform (.generateSamples n) s = perform (.run n) { s with bufferPos := 0 } ∧
    (0 ≤ n ∧ n ≤ 4294967295 → ∃ t : State, perform (.run n) s = .next t) ∧
    (n < 0 ∨ 4294967295 < n → perform (.run n) s = .refused (.illegalClockCount n)) ∧
    perform (.run 0) s = .next { s with result := .dropped 0 }

/-- R92, R110: the channel buffer accessor returns a copy of the first `buffer_pos` elements and changes nothing else;
any index outside 0 ..= 3 faults. -/
def Obligations.ChannelBufferReturnsTheValidElements : Prop :=
  ∀ s : State,
    (∀ c : Fin 4, ∃ view : List F32,
      perform (.channelBuffer c.val) s = .next { s with result := .view view s.bufferPos } ∧
      view.length = s.bufferPos ∧
      ∀ k : Nat, k < s.bufferPos → view[k]? = some (Memory.read s.chBuf[c] k)) ∧
    (∀ ch : Int, ch < 0 ∨ 3 < ch → perform (.channelBuffer ch) s = .fault (.boundsViolation .channelBuffer ch))

/-- R93, R39: the mixed buffer accessor recomputes and returns the first `buffer_pos` elements with the gain of the
call, leaves the others, writes only `mix_buf`, and a second call returns the same. -/
def Obligations.MixedBufferRecomputesTheValidElements : Prop :=
  ∀ s : State, s.BuffersLegal → ∃ (t : State) (view : List F32),
    perform .mixedBuffer s = .next t ∧ t.result = .view view s.bufferPos ∧ view.length = s.bufferPos ∧
    (∀ k : Nat, k < s.bufferPos → view[k]? = some (Memory.read t.mixBuf k) ∧
      Memory.read t.mixBuf k = f32mul (f32add (f32add (f32add (Memory.read s.chBuf[0] k) (Memory.read s.chBuf[1] k))
        (Memory.read s.chBuf[2] k)) (Memory.read s.chBuf[3] k)) s.gain) ∧
    (∀ k : Nat, s.bufferPos ≤ k → Memory.read t.mixBuf k = Memory.read s.mixBuf k) ∧
    t = { s with mixBuf := t.mixBuf, result := t.result } ∧
    perform .mixedBuffer t = .next t

/-- R93: the mixed element of an emission is what `sample()` returned at that emission, under an unchanged gain. -/
def Obligations.MixedElementIsTheSampleAtEmission : Prop :=
  ∀ s : State, s.BuffersLegal → s.bufferPos < s.config.bufferCapacity →
    mixedElement (emit s).1 s.bufferPos = sampleValue s

/-- R87: with `clocks_per_sample` an integer `k` and the accumulator at +0.0, `n` clocks emit exactly `n / k` times and
leave the accumulator at `n mod k`. -/
def Obligations.IntegerRatioEmitsEveryKthClock : Prop :=
  ∀ (s : State) (k n : Nat), s.config.legal → s.config.clockFreq = k * s.config.sampleRate → s.clockCounter = 0 →
    emissions s (runClocks n s).1 (runClocks n s).2 = n / k ∧
    (runClocks n s).1.clockCounter = toF64 (n % k)

/-- R87, D11: with at least as many samples as clocks per second, every clock emits, and only once. -/
def Obligations.UpsamplingEmitsOnceEveryClock : Prop :=
  ∀ (s : State) (n : Nat), s.config.legal → s.NumbersLegal → s.config.clockFreq ≤ s.config.sampleRate →
    emissions s (runClocks n s).1 (runClocks n s).2 = n

/-- R94, R97, R105: the constant accessors and what they return, with the example of R94 and the table of R82. -/
def Obligations.ConstantAccessorsReturnTheirValues : Prop :=
  ∀ s : State,
    perform .clocksPerSample s =
      .next { s with result := .clocksPerSample (f64div (toF64 s.config.clockFreq) (toF64 s.config.sampleRate)) } ∧
    (s.config.clockFreq = 3579545 → s.config.sampleRate = 48000 →
      perform .clocksPerSample s = .next { s with result := .clocksPerSample 0x4052A4BA06D3A06D }) ∧
    perform .serializeSize s = .next { s with result := .size 40 } ∧
    perform .volumeTable s = .next { s with
      result := .volumeTable
        [0x3F800000, 0x3F4B5918, 0x3F21866C, 0x3F004DCE, 0x3ECBD4B4, 0x3EA1E89B, 0x3E809BCC, 0x3E4C509B,
         0x3E224B06, 0x3E00E9F9, 0x3DCCCCCD, 0x3DA2ADAD, 0x3D813856, 0x3D4D494A, 0x3D231090, 0x00000000] }

/-! ## Snapshot -/

/-- R98, R99, R100, R36: into a buffer of at least 40 bytes `serialize` writes the image, every field at its offset,
and no byte at or beyond offset 40; into a shorter one nothing (R107, R109). The block's state does not change. The spec
marks as its own decisions that bytes from offset 40 on are left (D18), bit 1 of byte 21 (D15) and the code of
`latched_type` (D16): log entry 15. -/
def Obligations.SerializeWritesTheImage : Prop :=
  ∀ (buf : List Byte) (s : State),
    (buf.length < 40 → perform (.serialize buf) s = .next { s with result := .failed .bufferTooSmall buf }) ∧
    (40 ≤ buf.length → ∃ out : List Byte,
      perform (.serialize buf) s = .next { s with result := .saved out } ∧
      out.length = buf.length ∧ (∀ k : Nat, 40 ≤ k → out[k]? = buf[k]?) ∧
      memRead out 0 1 = 1 ∧
      (∀ i : Fin 3, memRead out (1 + 2 * i.val) 2 = s.toneReg[i].toNat ∧
        memRead out (7 + 2 * i.val) 2 = s.toneCounter[i].toNat ∧
        memRead out (13 + i.val) 1 = (if s.toneOut[i] then 1 else 0)) ∧
      memRead out 16 1 = s.noiseReg.toNat ∧ memRead out 17 2 = s.noiseCounter.toNat ∧
      memRead out 19 2 = s.noiseShift.toNat ∧
      memRead out 21 1 = (if s.noiseOut then 1 else 0) + (if s.noiseToggle then 2 else 0) ∧
      (∀ c : Fin 4, memRead out (22 + c.val) 1 = s.volume[c].toNat) ∧
      memRead out 26 1 = s.latchedChannel.val ∧
      memRead out 27 1 = (if s.latchedType = .volume then 1 else 0) ∧
      memRead out 28 4 = s.clockDivider.toNat ∧ memRead out 32 8 = s.clockCounter.toNat)

/-- R103, the round trip: the image of a legal state loads into any instance of the same variant and gives the saved
state in every element of the image, with `buffer_pos` 0 and the receiver's own gain, configuration and buffers. -/
def Obligations.SavedStateLoadsBack : Prop :=
  ∀ (s u : State) (buf : List Byte), s.RegistersLegal → s.NumbersLegal → u.config.variant = s.config.variant →
    40 ≤ buf.length → ∃ out : List Byte,
      perform (.serialize buf) s = .next { s with result := .saved out } ∧
      perform (.deserialize out) u = .next (restored s u)

/-- R101, R102, R107, R108: `deserialize` reports the length first, then the version, then the lowest offset of a field
that is not legal, and changes nothing; when all is legal it loads. The variant is legal where it loads (a clause of
`RegistersStayLegal`'s invariant): R102's bound on a counter fits the counter's 11 bits on a legal variant only. -/
def Obligations.DeserializeReportsTheFirstFailure : Prop :=
  ∀ (buf : List Byte) (s : State),
    (buf.length < 40 → perform (.deserialize buf) s = .next { s with result := .failed .bufferTooSmall buf }) ∧
    (40 ≤ buf.length → memRead buf 0 1 ≠ 1 → perform (.deserialize buf) s =
      .next { s with result := .failed (.unsupportedVersion (BitVec.ofNat 8 (memRead buf 0 1))) buf }) ∧
    (40 ≤ buf.length → memRead buf 0 1 = 1 → ∀ offset : Nat,
      ¬ FieldLegal s.config.variant buf offset → (∀ o : Nat, o < offset → FieldLegal s.config.variant buf o) →
        perform (.deserialize buf) s = .next { s with result := .failed (.invalidState offset) buf }) ∧
    (s.config.variant.legal → 40 ≤ buf.length → memRead buf 0 1 = 1 →
      (∀ o : Nat, FieldLegal s.config.variant buf o) →
      ∃ t : State, perform (.deserialize buf) s = .next t ∧ t.bufferPos = 0 ∧
        (∀ i : Fin 3, t.toneReg[i].toNat = memRead buf (1 + 2 * i.val) 2 ∧
          t.toneCounter[i].toNat = memRead buf (7 + 2 * i.val) 2 ∧
          (t.toneOut[i] = true ↔ memRead buf (13 + i.val) 1 = 1)) ∧
        t.noiseReg.toNat = memRead buf 16 1 ∧ t.noiseCounter.toNat = memRead buf 17 2 ∧
        t.noiseShift.toNat = memRead buf 19 2 ∧
        (t.noiseOut = true ↔ memRead buf 21 1 % 2 = 1) ∧ (t.noiseToggle = true ↔ memRead buf 21 1 / 2 = 1) ∧
        (∀ c : Fin 4, t.volume[c].toNat = memRead buf (22 + c.val) 1) ∧
        t.latchedChannel.val = memRead buf 26 1 ∧ (t.latchedType = .volume ↔ memRead buf 27 1 = 1) ∧
        t.clockDivider.toNat = memRead buf 28 4 ∧ t.clockCounter.toNat = memRead buf 32 8 ∧
        t = restored t s)

/-! ## Introspection, errors and stops -/

/-- R104, R110: the introspection accessors return the registers and change nothing else; an index outside the range
faults and is never reduced. The spec marks the fault as its decision D20 (log entry 15). -/
def Obligations.IntrospectionReturnsRegistersOrFaults : Prop :=
  ∀ s : State,
    (∀ i : Fin 3, perform (.toneRegister i.val) s = .next { s with result := .toneRegister s.toneReg[i] }) ∧
    (∀ ch : Int, ch < 0 ∨ 2 < ch → perform (.toneRegister ch) s = .fault (.boundsViolation .toneRegister ch)) ∧
    (∀ c : Fin 4, perform (.volumeRegister c.val) s = .next { s with result := .volumeRegister s.volume[c] }) ∧
    (∀ ch : Int, ch < 0 ∨ 3 < ch → perform (.volumeRegister ch) s = .fault (.boundsViolation .volumeRegister ch)) ∧
    perform .noiseRegister s = .next { s with result := .noiseRegister s.noiseReg } ∧
    perform .noiseShiftRegister s = .next { s with result := .noiseShiftRegister s.noiseShift }

/-- R39: the reads change no state of the block, and the same read again returns the same. -/
def Obligations.ReadsChangeNothing : Prop :=
  ∀ (t : Transaction) (s s' : State), t.isRead = true → perform t s = .next s' →
    s' = { s with result := s'.result } ∧ perform t s' = .next s'

/-- R109, R107: a transaction that returns an error is a `serialize` or a `deserialize`, and leaves the block and the
host's buffer as they were. -/
def Obligations.ErrorsChangeNothing : Prop :=
  ∀ (s s' : State) (t : Transaction) (rest : List Transaction) (e : Error) (buf : List Byte),
    s.pending = t :: rest → step s = .next s' → s'.result = .failed e buf →
      s' = { s with pending := rest, result := .failed e buf } ∧ (t = .serialize buf ∨ t = .deserialize buf)

/-- R110, R111: a transaction faults exactly on a bad channel index, is refused exactly on the operands R111 lists, and
otherwise completes. -/
def Obligations.TransactionsStopExactlyWhereTheRulesSay : Prop :=
  ∀ (s : State) (t : Transaction) (rest : List Transaction), s.pending = t :: rest →
    ((∃ s' : State, step s = .next s') ↔ t.wf = true) ∧
    ((∃ f : Fault, step s = .fault f) ↔ t.indexLegal = false) ∧
    ((∃ r : Refusal, step s = .refused r) ↔ t.wf = false ∧ t.indexLegal = true)

/-! ## Construction and reset -/

/-- R119: `reset()` returns every mutable element but the buffers' contents to its default, and leaves the gain, the
configuration and the contents. -/
def Obligations.ResetReturnsTheDefaults : Prop :=
  ∀ s : State, ∃ t : State, perform .reset s = .next t ∧
    (∀ i : Fin 3, t.toneReg[i] = 0 ∧ t.toneCounter[i] = 0 ∧ t.toneOut[i] = false) ∧
    t.noiseReg = 0 ∧ t.noiseCounter = 0 ∧ t.noiseShift = lfsrInitial s.config.variant ∧
    t.noiseToggle = false ∧ t.noiseOut = false ∧ (∀ c : Fin 4, t.volume[c] = 15) ∧
    t.latchedChannel = 0 ∧ t.latchedType = .toneOrNoise ∧ t.clockDivider = 0 ∧ t.clockCounter = 0 ∧
    t.bufferPos = 0 ∧ t = restored t s

/-- R118, R6, R111: a legal construction gives the defaults of R118 with a gain of 0.25 and empty buffers, and `reset()`
of it changes nothing; any other construction is refused. That the new instance takes the place of the old one in the
model is log entry 4. -/
def Obligations.ConstructionGivesTheDefaults : Prop :=
  ∀ (cf sr cap : Int) (v : Variant) (s : State),
    (parameterLegal cf → parameterLegal sr → parameterLegal cap → v.legal → ∃ t : State,
      perform (.construct cf sr cap v) s = .next t ∧
      t.config = { clockFreq := cf.toNat, sampleRate := sr.toNat, bufferCapacity := cap.toNat, variant := v } ∧
      t.gain = 0x3E800000 ∧
      (∀ i : Fin 3, t.toneReg[i] = 0 ∧ t.toneCounter[i] = 0 ∧ t.toneOut[i] = false) ∧
      (∀ c : Fin 4, t.volume[c] = 15) ∧ t.noiseReg = 0 ∧ t.noiseCounter = 0 ∧
      t.noiseShift.toNat = 2 ^ (v.lfsrBits - 1) ∧ t.noiseToggle = false ∧ t.noiseOut = false ∧
      t.latchedChannel = 0 ∧ t.latchedType = .toneOrNoise ∧ t.clockDivider = 0 ∧ t.clockCounter = 0 ∧
      t.bufferPos = 0 ∧ (∀ (c : Fin 4) (k : Nat), Memory.read t.chBuf[c] k = 0 ∧ Memory.read t.mixBuf k = 0) ∧
      perform .reset t = .next t) ∧
    (¬ (parameterLegal cf ∧ parameterLegal sr ∧ parameterLegal cap ∧ v.legal) →
      perform (.construct cf sr cap v) s = .refused .illegalConstruction)

/-- R29, R9: no transaction but a construction changes the configuration, none but `set_gain` and a construction the
gain, and `reset()` and `deserialize` leave the contents of the buffers. -/
def Obligations.ConfigurationAndGainSurvive : Prop :=
  ∀ (s s' : State) (t : Transaction) (rest : List Transaction), s.pending = t :: rest → step s = .next s' →
    (∀ (cf sr cap : Int) (v : Variant), t ≠ .construct cf sr cap v) →
      s'.config = s.config ∧
      ((∀ g : F32, t ≠ .setGain g) → s'.gain = s.gain) ∧
      (t.isLoad = true → s'.chBuf = s.chBuf ∧ s'.mixBuf = s.mixBuf)

/-- R30, its column of writers: apart from construction, reset and deserialize, each element is written only by the
transactions R30 lists for it. -/
def Obligations.OnlyTheListedWritersWrite : Prop :=
  ∀ (s s' : State) (t : Transaction) (rest : List Transaction), s.pending = t :: rest → step s = .next s' →
    t.isLoad = false →
      (t.isWrite = false → s'.toneReg = s.toneReg ∧ s'.noiseReg = s.noiseReg ∧ s'.volume = s.volume ∧
        s'.latchedChannel = s.latchedChannel ∧ s'.latchedType = s.latchedType) ∧
      (t.isClock = false → s'.toneCounter = s.toneCounter ∧ s'.toneOut = s.toneOut ∧
        s'.noiseCounter = s.noiseCounter ∧ s'.noiseToggle = s.noiseToggle ∧ s'.noiseOut = s.noiseOut ∧
        s'.clockDivider = s.clockDivider) ∧
      (t.isWrite = false → t.isClock = false → s'.noiseShift = s.noiseShift) ∧
      (t.isClock = false ∨ t = .clock → s'.clockCounter = s.clockCounter ∧ s'.chBuf = s.chBuf) ∧
      (t.isClock = false ∨ t = .clock → t ≠ .resetBuffer → s'.bufferPos = s.bufferPos) ∧
      (t ≠ .mixedBuffer → s'.mixBuf = s.mixBuf)

/-! ## Invariants -/

/-- R12, R118: the state after construction is legal. The configuration is the model's choice (log entry 2). -/
def Obligations.ResetStateIsLegal : Prop :=
  State.reset.RegistersLegal ∧ State.reset.BuffersLegal ∧ State.reset.LevelsOnly ∧ State.reset.NumbersLegal

/-- R12, R21, R31: every step keeps the registers, counters and the LFSR in range: the LFSR is never 0 and stays below
`2 ^ N`, no counter exceeds max(1023, `tone_zero_value`), and `buffer_pos` never exceeds the capacity. -/
def Obligations.RegistersStayLegal : Prop :=
  ∀ s s' : State, s.RegistersLegal → step s = .next s' → s'.RegistersLegal

/-- R27, R88: every step keeps the five buffers canonical and within the capacity, and the channel buffers hold nothing
but values of the volume table. -/
def Obligations.BuffersStayLegal : Prop :=
  ∀ s s' : State, s.RegistersLegal → s.BuffersLegal → s.LevelsOnly → step s = .next s' →
    s'.BuffersLegal ∧ s'.LevelsOnly

/-- R25, R12, R85: every step keeps `clock_counter` finite and not less than 0, and the gain finite. -/
def Obligations.NumbersStayLegal : Prop :=
  ∀ s s' : State, s.config.legal → s.NumbersLegal → step s = .next s' → s'.NumbersLegal
end

