-- ==== Sys2Proof/Laws/Operands.lean ====
section
/-! SUPPORT. The operand forms as numbers: what a register write keeps and sets, and which indices and counts the
interface accepts. -/

namespace Sys2Proof.Machine

/-- R50: the low nibble is `d`, the high six bits stay. -/
theorem toneWithLow_toNat (r : BitVec 10) (d : BitVec 4) :
    (toneWithLow r d).toNat = 16 * (r.toNat / 16) + d.toNat := by
  have hs : toneWithLow r d = r.extractLsb' 4 6 ++ d := by
    apply BitVec.eq_of_getLsbD_eq
    intro i hi
    rw [BitVec.getLsbD_append]
    interval_cases i <;> simp [toneWithLow]
  rw [hs, BitVec.toNat_append]
  have hd := d.isLt
  have hr := r.isLt
  rw [← Nat.shiftLeft_add_eq_or_of_lt hd, Nat.shiftLeft_eq, BitVec.extractLsb'_toNat, Nat.shiftRight_eq_div_pow]
  omega

/-- R50: the high six bits are `d`, the low nibble stays. -/
theorem toneWithHigh_toNat (r : BitVec 10) (d : BitVec 6) :
    (toneWithHigh r d).toNat = 16 * d.toNat + r.toNat % 16 := by
  have hs : toneWithHigh r d = d ++ r.extractLsb' 0 4 := by
    apply BitVec.eq_of_getLsbD_eq
    intro i hi
    rw [BitVec.getLsbD_append]
    interval_cases i <;> simp [toneWithHigh]
  rw [hs, BitVec.toNat_append]
  have hr := (r.extractLsb' 0 4).isLt
  rw [← Nat.shiftLeft_add_eq_or_of_lt hr, Nat.shiftLeft_eq, BitVec.extractLsb'_toNat]
  omega

/-- R50: the noise register is the low three bits of a format L byte. -/
theorem noiseFromNibble_toNat (d : BitVec 4) : (noiseFromNibble d).toNat = d.toNat % 8 := by
  revert d; decide

/-- R50: and of a format D byte. -/
theorem noiseFromData_toNat (d : BitVec 6) : (noiseFromData d).toNat = d.toNat % 8 := by
  revert d; decide

/-- R110: the index is accepted exactly in its range, as it is. -/
theorem channelIndex_eq_some {n : Nat} {ch : Int} {c : Fin n} : channelIndex n ch = some c ↔ ch = c.val := by
  have := c.isLt
  unfold channelIndex
  split
  · rename_i h
    rw [Option.some_inj, Fin.ext_iff]
    show ch.toNat = c.val ↔ _
    omega
  · simp only [reduceCtorEq, false_iff]
    omega

/-- R110: outside it, never. -/
theorem channelIndex_eq_none {n : Nat} {ch : Int} : channelIndex n ch = none ↔ ¬ channelLegal n ch := by
  unfold channelIndex channelLegal
  split <;> simp_all

@[simp] theorem channelIndex_val {n : Nat} (c : Fin n) : channelIndex n c.val = some c := channelIndex_eq_some.2 rfl

/-- D24: the counts the interface accepts. -/
theorem clockCount_eq_some {n : Int} {k : Nat} : clockCount n = some k ↔ clockCountLegal n ∧ n = k := by
  unfold clockCount
  by_cases h : clockCountLegal n
  · rw [if_pos h, Option.some_inj]
    have := h.1
    exact ⟨fun hk => ⟨h, by omega⟩, fun hk => by omega⟩
  · rw [if_neg h]
    exact ⟨fun hk => (nomatch hk), fun hk => absurd hk.1 h⟩

theorem clockCount_eq_none {n : Int} : clockCount n = none ↔ ¬ clockCountLegal n := by
  unfold clockCount
  by_cases h : clockCountLegal n
  · rw [if_pos h]; exact ⟨fun hk => (nomatch hk), fun hk => absurd h hk⟩
  · rw [if_neg h]; exact ⟨fun _ => h, fun _ => rfl⟩

end Sys2Proof.Machine
end

