-- ==== Sys2Proof/Laws/State.lean ====
section
/-! SUPPORT. One lemma per field per named update of the state: what the update sets, and that it sets nothing else. -/

namespace Sys2Proof.Machine

/-! ## `setLatch` -/

@[simp] theorem setLatch_config (s : State) (ch : Fin 4) (t : LatchType) : (s.setLatch ch t).config = s.config := rfl
@[simp] theorem setLatch_gain (s : State) (ch : Fin 4) (t : LatchType) : (s.setLatch ch t).gain = s.gain := rfl
@[simp] theorem setLatch_toneReg (s : State) (ch : Fin 4) (t : LatchType) : (s.setLatch ch t).toneReg = s.toneReg := rfl
@[simp] theorem setLatch_noiseReg (s : State) (ch : Fin 4) (t : LatchType) : (s.setLatch ch t).noiseReg = s.noiseReg := rfl
@[simp] theorem setLatch_volume (s : State) (ch : Fin 4) (t : LatchType) : (s.setLatch ch t).volume = s.volume := rfl
@[simp] theorem setLatch_latchedChannel (s : State) (ch : Fin 4) (t : LatchType) : (s.setLatch ch t).latchedChannel = ch := rfl
@[simp] theorem setLatch_latchedType (s : State) (ch : Fin 4) (t : LatchType) : (s.setLatch ch t).latchedType = t := rfl
@[simp] theorem setLatch_toneCounter (s : State) (ch : Fin 4) (t : LatchType) : (s.setLatch ch t).toneCounter = s.toneCounter := rfl
@[simp] theorem setLatch_toneOut (s : State) (ch : Fin 4) (t : LatchType) : (s.setLatch ch t).toneOut = s.toneOut := rfl
@[simp] theorem setLatch_noiseCounter (s : State) (ch : Fin 4) (t : LatchType) : (s.setLatch ch t).noiseCounter = s.noiseCounter := rfl
@[simp] theorem setLatch_noiseShift (s : State) (ch : Fin 4) (t : LatchType) : (s.setLatch ch t).noiseShift = s.noiseShift := rfl
@[simp] theorem setLatch_noiseToggle (s : State) (ch : Fin 4) (t : LatchType) : (s.setLatch ch t).noiseToggle = s.noiseToggle := rfl
@[simp] theorem setLatch_noiseOut (s : State) (ch : Fin 4) (t : LatchType) : (s.setLatch ch t).noiseOut = s.noiseOut := rfl
@[simp] theorem setLatch_clockDivider (s : State) (ch : Fin 4) (t : LatchType) : (s.setLatch ch t).clockDivider = s.clockDivider := rfl
@[simp] theorem setLatch_clockCounter (s : State) (ch : Fin 4) (t : LatchType) : (s.setLatch ch t).clockCounter = s.clockCounter := rfl
@[simp] theorem setLatch_bufferPos (s : State) (ch : Fin 4) (t : LatchType) : (s.setLatch ch t).bufferPos = s.bufferPos := rfl
@[simp] theorem setLatch_chBuf (s : State) (ch : Fin 4) (t : LatchType) : (s.setLatch ch t).chBuf = s.chBuf := rfl
@[simp] theorem setLatch_mixBuf (s : State) (ch : Fin 4) (t : LatchType) : (s.setLatch ch t).mixBuf = s.mixBuf := rfl
@[simp] theorem setLatch_pending (s : State) (ch : Fin 4) (t : LatchType) : (s.setLatch ch t).pending = s.pending := rfl
@[simp] theorem setLatch_result (s : State) (ch : Fin 4) (t : LatchType) : (s.setLatch ch t).result = s.result := rfl

/-! ## `setToneReg` -/

@[simp] theorem setToneReg_config (s : State) (i : Fin 3) (v : BitVec 10) : (s.setToneReg i v).config = s.config := rfl
@[simp] theorem setToneReg_gain (s : State) (i : Fin 3) (v : BitVec 10) : (s.setToneReg i v).gain = s.gain := rfl
@[simp] theorem setToneReg_toneReg (s : State) (i : Fin 3) (v : BitVec 10) : (s.setToneReg i v).toneReg = s.toneReg.set i v := rfl
@[simp] theorem setToneReg_noiseReg (s : State) (i : Fin 3) (v : BitVec 10) : (s.setToneReg i v).noiseReg = s.noiseReg := rfl
@[simp] theorem setToneReg_volume (s : State) (i : Fin 3) (v : BitVec 10) : (s.setToneReg i v).volume = s.volume := rfl
@[simp] theorem setToneReg_latchedChannel (s : State) (i : Fin 3) (v : BitVec 10) : (s.setToneReg i v).latchedChannel = s.latchedChannel := rfl
@[simp] theorem setToneReg_latchedType (s : State) (i : Fin 3) (v : BitVec 10) : (s.setToneReg i v).latchedType = s.latchedType := rfl
@[simp] theorem setToneReg_toneCounter (s : State) (i : Fin 3) (v : BitVec 10) : (s.setToneReg i v).toneCounter = s.toneCounter := rfl
@[simp] theorem setToneReg_toneOut (s : State) (i : Fin 3) (v : BitVec 10) : (s.setToneReg i v).toneOut = s.toneOut := rfl
@[simp] theorem setToneReg_noiseCounter (s : State) (i : Fin 3) (v : BitVec 10) : (s.setToneReg i v).noiseCounter = s.noiseCounter := rfl
@[simp] theorem setToneReg_noiseShift (s : State) (i : Fin 3) (v : BitVec 10) : (s.setToneReg i v).noiseShift = s.noiseShift := rfl
@[simp] theorem setToneReg_noiseToggle (s : State) (i : Fin 3) (v : BitVec 10) : (s.setToneReg i v).noiseToggle = s.noiseToggle := rfl
@[simp] theorem setToneReg_noiseOut (s : State) (i : Fin 3) (v : BitVec 10) : (s.setToneReg i v).noiseOut = s.noiseOut := rfl
@[simp] theorem setToneReg_clockDivider (s : State) (i : Fin 3) (v : BitVec 10) : (s.setToneReg i v).clockDivider = s.clockDivider := rfl
@[simp] theorem setToneReg_clockCounter (s : State) (i : Fin 3) (v : BitVec 10) : (s.setToneReg i v).clockCounter = s.clockCounter := rfl
@[simp] theorem setToneReg_bufferPos (s : State) (i : Fin 3) (v : BitVec 10) : (s.setToneReg i v).bufferPos = s.bufferPos := rfl
@[simp] theorem setToneReg_chBuf (s : State) (i : Fin 3) (v : BitVec 10) : (s.setToneReg i v).chBuf = s.chBuf := rfl
@[simp] theorem setToneReg_mixBuf (s : State) (i : Fin 3) (v : BitVec 10) : (s.setToneReg i v).mixBuf = s.mixBuf := rfl
@[simp] theorem setToneReg_pending (s : State) (i : Fin 3) (v : BitVec 10) : (s.setToneReg i v).pending = s.pending := rfl
@[simp] theorem setToneReg_result (s : State) (i : Fin 3) (v : BitVec 10) : (s.setToneReg i v).result = s.result := rfl

/-! ## `setNoiseReg` -/

@[simp] theorem setNoiseReg_config (s : State) (v : BitVec 3) : (s.setNoiseReg v).config = s.config := rfl
@[simp] theorem setNoiseReg_gain (s : State) (v : BitVec 3) : (s.setNoiseReg v).gain = s.gain := rfl
@[simp] theorem setNoiseReg_toneReg (s : State) (v : BitVec 3) : (s.setNoiseReg v).toneReg = s.toneReg := rfl
@[simp] theorem setNoiseReg_noiseReg (s : State) (v : BitVec 3) : (s.setNoiseReg v).noiseReg = v := rfl
@[simp] theorem setNoiseReg_volume (s : State) (v : BitVec 3) : (s.setNoiseReg v).volume = s.volume := rfl
@[simp] theorem setNoiseReg_latchedChannel (s : State) (v : BitVec 3) : (s.setNoiseReg v).latchedChannel = s.latchedChannel := rfl
@[simp] theorem setNoiseReg_latchedType (s : State) (v : BitVec 3) : (s.setNoiseReg v).latchedType = s.latchedType := rfl
@[simp] theorem setNoiseReg_toneCounter (s : State) (v : BitVec 3) : (s.setNoiseReg v).toneCounter = s.toneCounter := rfl
@[simp] theorem setNoiseReg_toneOut (s : State) (v : BitVec 3) : (s.setNoiseReg v).toneOut = s.toneOut := rfl
@[simp] theorem setNoiseReg_noiseCounter (s : State) (v : BitVec 3) : (s.setNoiseReg v).noiseCounter = s.noiseCounter := rfl
@[simp] theorem setNoiseReg_noiseShift (s : State) (v : BitVec 3) : (s.setNoiseReg v).noiseShift = lfsrInitial s.config.variant := rfl
@[simp] theorem setNoiseReg_noiseToggle (s : State) (v : BitVec 3) : (s.setNoiseReg v).noiseToggle = s.noiseToggle := rfl
@[simp] theorem setNoiseReg_noiseOut (s : State) (v : BitVec 3) : (s.setNoiseReg v).noiseOut = s.noiseOut := rfl
@[simp] theorem setNoiseReg_clockDivider (s : State) (v : BitVec 3) : (s.setNoiseReg v).clockDivider = s.clockDivider := rfl
@[simp] theorem setNoiseReg_clockCounter (s : State) (v : BitVec 3) : (s.setNoiseReg v).clockCounter = s.clockCounter := rfl
@[simp] theorem setNoiseReg_bufferPos (s : State) (v : BitVec 3) : (s.setNoiseReg v).bufferPos = s.bufferPos := rfl
@[simp] theorem setNoiseReg_chBuf (s : State) (v : BitVec 3) : (s.setNoiseReg v).chBuf = s.chBuf := rfl
@[simp] theorem setNoiseReg_mixBuf (s : State) (v : BitVec 3) : (s.setNoiseReg v).mixBuf = s.mixBuf := rfl
@[simp] theorem setNoiseReg_pending (s : State) (v : BitVec 3) : (s.setNoiseReg v).pending = s.pending := rfl
@[simp] theorem setNoiseReg_result (s : State) (v : BitVec 3) : (s.setNoiseReg v).result = s.result := rfl

/-! ## `setVolume` -/

@[simp] theorem setVolume_config (s : State) (i : Fin 4) (v : BitVec 4) : (s.setVolume i v).config = s.config := rfl
@[simp] theorem setVolume_gain (s : State) (i : Fin 4) (v : BitVec 4) : (s.setVolume i v).gain = s.gain := rfl
@[simp] theorem setVolume_toneReg (s : State) (i : Fin 4) (v : BitVec 4) : (s.setVolume i v).toneReg = s.toneReg := rfl
@[simp] theorem setVolume_noiseReg (s : State) (i : Fin 4) (v : BitVec 4) : (s.setVolume i v).noiseReg = s.noiseReg := rfl
@[simp] theorem setVolume_volume (s : State) (i : Fin 4) (v : BitVec 4) : (s.setVolume i v).volume = s.volume.set i v := rfl
@[simp] theorem setVolume_latchedChannel (s : State) (i : Fin 4) (v : BitVec 4) : (s.setVolume i v).latchedChannel = s.latchedChannel := rfl
@[simp] theorem setVolume_latchedType (s : State) (i : Fin 4) (v : BitVec 4) : (s.setVolume i v).latchedType = s.latchedType := rfl
@[simp] theorem setVolume_toneCounter (s : State) (i : Fin 4) (v : BitVec 4) : (s.setVolume i v).toneCounter = s.toneCounter := rfl
@[simp] theorem setVolume_toneOut (s : State) (i : Fin 4) (v : BitVec 4) : (s.setVolume i v).toneOut = s.toneOut := rfl
@[simp] theorem setVolume_noiseCounter (s : State) (i : Fin 4) (v : BitVec 4) : (s.setVolume i v).noiseCounter = s.noiseCounter := rfl
@[simp] theorem setVolume_noiseShift (s : State) (i : Fin 4) (v : BitVec 4) : (s.setVolume i v).noiseShift = s.noiseShift := rfl
@[simp] theorem setVolume_noiseToggle (s : State) (i : Fin 4) (v : BitVec 4) : (s.setVolume i v).noiseToggle = s.noiseToggle := rfl
@[simp] theorem setVolume_noiseOut (s : State) (i : Fin 4) (v : BitVec 4) : (s.setVolume i v).noiseOut = s.noiseOut := rfl
@[simp] theorem setVolume_clockDivider (s : State) (i : Fin 4) (v : BitVec 4) : (s.setVolume i v).clockDivider = s.clockDivider := rfl
@[simp] theorem setVolume_clockCounter (s : State) (i : Fin 4) (v : BitVec 4) : (s.setVolume i v).clockCounter = s.clockCounter := rfl
@[simp] theorem setVolume_bufferPos (s : State) (i : Fin 4) (v : BitVec 4) : (s.setVolume i v).bufferPos = s.bufferPos := rfl
@[simp] theorem setVolume_chBuf (s : State) (i : Fin 4) (v : BitVec 4) : (s.setVolume i v).chBuf = s.chBuf := rfl
@[simp] theorem setVolume_mixBuf (s : State) (i : Fin 4) (v : BitVec 4) : (s.setVolume i v).mixBuf = s.mixBuf := rfl
@[simp] theorem setVolume_pending (s : State) (i : Fin 4) (v : BitVec 4) : (s.setVolume i v).pending = s.pending := rfl
@[simp] theorem setVolume_result (s : State) (i : Fin 4) (v : BitVec 4) : (s.setVolume i v).result = s.result := rfl

/-! ## `accept` -/

@[simp] theorem accept_config (s : State) (rest : List Transaction) : (s.accept rest).config = s.config := rfl
@[simp] theorem accept_gain (s : State) (rest : List Transaction) : (s.accept rest).gain = s.gain := rfl
@[simp] theorem accept_toneReg (s : State) (rest : List Transaction) : (s.accept rest).toneReg = s.toneReg := rfl
@[simp] theorem accept_noiseReg (s : State) (rest : List Transaction) : (s.accept rest).noiseReg = s.noiseReg := rfl
@[simp] theorem accept_volume (s : State) (rest : List Transaction) : (s.accept rest).volume = s.volume := rfl
@[simp] theorem accept_latchedChannel (s : State) (rest : List Transaction) : (s.accept rest).latchedChannel = s.latchedChannel := rfl
@[simp] theorem accept_latchedType (s : State) (rest : List Transaction) : (s.accept rest).latchedType = s.latchedType := rfl
@[simp] theorem accept_toneCounter (s : State) (rest : List Transaction) : (s.accept rest).toneCounter = s.toneCounter := rfl
@[simp] theorem accept_toneOut (s : State) (rest : List Transaction) : (s.accept rest).toneOut = s.toneOut := rfl
@[simp] theorem accept_noiseCounter (s : State) (rest : List Transaction) : (s.accept rest).noiseCounter = s.noiseCounter := rfl
@[simp] theorem accept_noiseShift (s : State) (rest : List Transaction) : (s.accept rest).noiseShift = s.noiseShift := rfl
@[simp] theorem accept_noiseToggle (s : State) (rest : List Transaction) : (s.accept rest).noiseToggle = s.noiseToggle := rfl
@[simp] theorem accept_noiseOut (s : State) (rest : List Transaction) : (s.accept rest).noiseOut = s.noiseOut := rfl
@[simp] theorem accept_clockDivider (s : State) (rest : List Transaction) : (s.accept rest).clockDivider = s.clockDivider := rfl
@[simp] theorem accept_clockCounter (s : State) (rest : List Transaction) : (s.accept rest).clockCounter = s.clockCounter := rfl
@[simp] theorem accept_bufferPos (s : State) (rest : List Transaction) : (s.accept rest).bufferPos = s.bufferPos := rfl
@[simp] theorem accept_chBuf (s : State) (rest : List Transaction) : (s.accept rest).chBuf = s.chBuf := rfl
@[simp] theorem accept_mixBuf (s : State) (rest : List Transaction) : (s.accept rest).mixBuf = s.mixBuf := rfl
@[simp] theorem accept_pending (s : State) (rest : List Transaction) : (s.accept rest).pending = rest := rfl
@[simp] theorem accept_result (s : State) (rest : List Transaction) : (s.accept rest).result = .ok := rfl

/-! ## `ret` -/

@[simp] theorem ret_config (s : State) (r : Result) : (s.ret r).config = s.config := rfl
@[simp] theorem ret_gain (s : State) (r : Result) : (s.ret r).gain = s.gain := rfl
@[simp] theorem ret_toneReg (s : State) (r : Result) : (s.ret r).toneReg = s.toneReg := rfl
@[simp] theorem ret_noiseReg (s : State) (r : Result) : (s.ret r).noiseReg = s.noiseReg := rfl
@[simp] theorem ret_volume (s : State) (r : Result) : (s.ret r).volume = s.volume := rfl
@[simp] theorem ret_latchedChannel (s : State) (r : Result) : (s.ret r).latchedChannel = s.latchedChannel := rfl
@[simp] theorem ret_latchedType (s : State) (r : Result) : (s.ret r).latchedType = s.latchedType := rfl
@[simp] theorem ret_toneCounter (s : State) (r : Result) : (s.ret r).toneCounter = s.toneCounter := rfl
@[simp] theorem ret_toneOut (s : State) (r : Result) : (s.ret r).toneOut = s.toneOut := rfl
@[simp] theorem ret_noiseCounter (s : State) (r : Result) : (s.ret r).noiseCounter = s.noiseCounter := rfl
@[simp] theorem ret_noiseShift (s : State) (r : Result) : (s.ret r).noiseShift = s.noiseShift := rfl
@[simp] theorem ret_noiseToggle (s : State) (r : Result) : (s.ret r).noiseToggle = s.noiseToggle := rfl
@[simp] theorem ret_noiseOut (s : State) (r : Result) : (s.ret r).noiseOut = s.noiseOut := rfl
@[simp] theorem ret_clockDivider (s : State) (r : Result) : (s.ret r).clockDivider = s.clockDivider := rfl
@[simp] theorem ret_clockCounter (s : State) (r : Result) : (s.ret r).clockCounter = s.clockCounter := rfl
@[simp] theorem ret_bufferPos (s : State) (r : Result) : (s.ret r).bufferPos = s.bufferPos := rfl
@[simp] theorem ret_chBuf (s : State) (r : Result) : (s.ret r).chBuf = s.chBuf := rfl
@[simp] theorem ret_mixBuf (s : State) (r : Result) : (s.ret r).mixBuf = s.mixBuf := rfl
@[simp] theorem ret_pending (s : State) (r : Result) : (s.ret r).pending = s.pending := rfl
@[simp] theorem ret_result (s : State) (r : Result) : (s.ret r).result = r := rfl

/-! ## `raise` -/

@[simp] theorem raise_config (s : State) (e : Error) (buf : List Byte) : (s.raise e buf).config = s.config := rfl
@[simp] theorem raise_gain (s : State) (e : Error) (buf : List Byte) : (s.raise e buf).gain = s.gain := rfl
@[simp] theorem raise_toneReg (s : State) (e : Error) (buf : List Byte) : (s.raise e buf).toneReg = s.toneReg := rfl
@[simp] theorem raise_noiseReg (s : State) (e : Error) (buf : List Byte) : (s.raise e buf).noiseReg = s.noiseReg := rfl
@[simp] theorem raise_volume (s : State) (e : Error) (buf : List Byte) : (s.raise e buf).volume = s.volume := rfl
@[simp] theorem raise_latchedChannel (s : State) (e : Error) (buf : List Byte) : (s.raise e buf).latchedChannel = s.latchedChannel := rfl
@[simp] theorem raise_latchedType (s : State) (e : Error) (buf : List Byte) : (s.raise e buf).latchedType = s.latchedType := rfl
@[simp] theorem raise_toneCounter (s : State) (e : Error) (buf : List Byte) : (s.raise e buf).toneCounter = s.toneCounter := rfl
@[simp] theorem raise_toneOut (s : State) (e : Error) (buf : List Byte) : (s.raise e buf).toneOut = s.toneOut := rfl
@[simp] theorem raise_noiseCounter (s : State) (e : Error) (buf : List Byte) : (s.raise e buf).noiseCounter = s.noiseCounter := rfl
@[simp] theorem raise_noiseShift (s : State) (e : Error) (buf : List Byte) : (s.raise e buf).noiseShift = s.noiseShift := rfl
@[simp] theorem raise_noiseToggle (s : State) (e : Error) (buf : List Byte) : (s.raise e buf).noiseToggle = s.noiseToggle := rfl
@[simp] theorem raise_noiseOut (s : State) (e : Error) (buf : List Byte) : (s.raise e buf).noiseOut = s.noiseOut := rfl
@[simp] theorem raise_clockDivider (s : State) (e : Error) (buf : List Byte) : (s.raise e buf).clockDivider = s.clockDivider := rfl
@[simp] theorem raise_clockCounter (s : State) (e : Error) (buf : List Byte) : (s.raise e buf).clockCounter = s.clockCounter := rfl
@[simp] theorem raise_bufferPos (s : State) (e : Error) (buf : List Byte) : (s.raise e buf).bufferPos = s.bufferPos := rfl
@[simp] theorem raise_chBuf (s : State) (e : Error) (buf : List Byte) : (s.raise e buf).chBuf = s.chBuf := rfl
@[simp] theorem raise_mixBuf (s : State) (e : Error) (buf : List Byte) : (s.raise e buf).mixBuf = s.mixBuf := rfl
@[simp] theorem raise_pending (s : State) (e : Error) (buf : List Byte) : (s.raise e buf).pending = s.pending := rfl
@[simp] theorem raise_result (s : State) (e : Error) (buf : List Byte) : (s.raise e buf).result = .failed e buf := rfl

end Sys2Proof.Machine
end

