-- ==== Sys2Proof/Laws/Exec.lean ====
section
/-! SUPPORT. What a command byte can do, said once: five effects, and which commands have which. -/

namespace Sys2Proof.Machine

/-- The effects a command can have on `s` (40_write_port.md). -/
inductive CommandEffect (s : State) : State → Prop where
  | toneLow (i : Fin 3) (d : BitVec 4) : CommandEffect s (latchTone i d s)
  | volume (i : Fin 4) (d : BitVec 4) : CommandEffect s (latchVolume i d s)
  | noise (v : BitVec 3) : CommandEffect s ((s.setLatch 3 .toneOrNoise).setNoiseReg v)
  | toneHigh (i : Fin 3) (d : BitVec 6) : CommandEffect s (s.setToneReg i (toneWithHigh s.toneReg[i] d))
  | noiseAgain (v : BitVec 3) : CommandEffect s (s.setNoiseReg v)
  | nothing : CommandEffect s s

/-- R65, by the latch. -/
theorem execData_volume {s : State} (h : s.latchedType = .volume) (x : Bool) (d : BitVec 6) :
    execData x d s = .next s := by simp [execData, h]

theorem execData_tone {s : State} (h : s.latchedType = .toneOrNoise) {i : Fin 3} (hi : s.latchedChannel.val = i.val)
    (x : Bool) (d : BitVec 6) :
    execData x d s = .next (s.setToneReg i (toneWithHigh s.toneReg[i] d)) := by
  have hlt : s.latchedChannel.val < 3 := by omega
  have he : (⟨s.latchedChannel.val, hlt⟩ : Fin 3) = i := Fin.ext hi
  subst he
  simp [execData, h, hlt]

theorem execData_noise {s : State} (h : s.latchedType = .toneOrNoise) (hi : s.latchedChannel.val = 3)
    (x : Bool) (d : BitVec 6) : execData x d s = .next (s.setNoiseReg (noiseFromData d)) := by
  simp [execData, h, hi]

/-- Every command completes with one of the effects. -/
theorem exec_effect (i : Instr) (s : State) : ∃ t, exec i s = .next t ∧ CommandEffect s t := by
  cases i with
  | latchT0 d => exact ⟨_, rfl, .toneLow 0 d⟩
  | latchT1 d => exact ⟨_, rfl, .toneLow 1 d⟩
  | latchT2 d => exact ⟨_, rfl, .toneLow 2 d⟩
  | latchV0 d => exact ⟨_, rfl, .volume 0 d⟩
  | latchV1 d => exact ⟨_, rfl, .volume 1 d⟩
  | latchV2 d => exact ⟨_, rfl, .volume 2 d⟩
  | latchV3 d => exact ⟨_, rfl, .volume 3 d⟩
  | latchN d => exact ⟨_, rfl, .noise _⟩
  | data x d =>
    rcases ht : s.latchedType with _ | _
    · by_cases hc : s.latchedChannel.val < 3
      · exact ⟨_, execData_tone ht (i := ⟨s.latchedChannel.val, hc⟩) rfl x d, .toneHigh _ d⟩
      · exact ⟨_, execData_noise ht (by omega) x d, .noiseAgain _⟩
    · exact ⟨s, execData_volume ht x d, .nothing⟩

theorem effect_of_exec {i : Instr} {s t : State} (h : exec i s = .next t) : CommandEffect s t := by
  obtain ⟨u, hu, he⟩ := exec_effect i s
  rw [hu] at h
  cases h
  exact he

/-- A frame over all effects: a property of the elements no command writes. -/
theorem CommandEffect.frame {α : Type} (f : State → α)
    (latch : ∀ s ch t, f (State.setLatch s ch t) = f s) (tone : ∀ s i v, f (State.setToneReg s i v) = f s)
    (noise : ∀ s v, f (State.setNoiseReg s v) = f s) (volume : ∀ s i v, f (State.setVolume s i v) = f s)
    {s t : State} (h : CommandEffect s t) : f t = f s := by
  cases h with
  | toneLow i d => exact (tone _ _ _).trans (latch _ _ _)
  | volume i d => exact (volume _ _ _).trans (latch _ _ _)
  | noise v => exact (noise _ _).trans (latch _ _ _)
  | toneHigh i d => exact tone _ _ _
  | noiseAgain v => exact noise _ _
  | nothing => rfl

/-- A command changes the LFSR only to its initial value. -/
theorem CommandEffect.noiseShift {s t : State} (h : CommandEffect s t) :
    t.noiseShift = s.noiseShift ∨ t.noiseShift = lfsrInitial s.config.variant := by
  cases h <;> simp [latchTone, latchVolume]

end Sys2Proof.Machine
end

