-- ==== Sys2Proof/Laws/Float.lean ====
section
/-! SUPPORT. Rounding: the value of a magnitude grows with it, rounding is monotone, and a representable value rounds to
itself. -/

namespace Sys2Proof.Machine

/-! ## Round-to-nearest-even quotients -/

/-- The quotient is the floor or the next integer. -/
theorem divNearestEven_cases (n d : Nat) :
    divNearestEven n d = n / d ∨ (divNearestEven n d = n / d + 1 ∧ d ≤ 2 * (n % d)) := by
  unfold divNearestEven
  split
  · exact .inl rfl
  · split
    · exact .inr ⟨rfl, by omega⟩
    · have := Nat.mod_two_eq_zero_or_one (n / d)
      rcases this with h | h
      · exact .inl (by omega)
      · exact .inr ⟨by omega, by omega⟩

theorem divNearestEven_mono {a b d : Nat} (h : a ≤ b) : divNearestEven a d ≤ divNearestEven b d := by
  have hq : a / d ≤ b / d := Nat.div_le_div_right h
  rcases Nat.lt_or_eq_of_le hq with hlt | heq
  · have hb : b / d ≤ divNearestEven b d := by rcases divNearestEven_cases b d with h | ⟨h, -⟩ <;> omega
    have ha : divNearestEven a d ≤ a / d + 1 := by rcases divNearestEven_cases a d with h | ⟨h, -⟩ <;> omega
    omega
  · have hr : a % d ≤ b % d := by
      have h1 := Nat.div_add_mod a d
      have h2 := Nat.div_add_mod b d
      rw [heq] at h1
      omega
    unfold divNearestEven
    rw [heq]
    split_ifs <;> omega

theorem divNearestEven_mul {n d : Nat} (hd : 0 < d) : divNearestEven (n * d) d = n := by
  simp [divNearestEven, hd]

/-! ## The value of a magnitude -/

/-- A significand `n` at shift `s` is the magnitude `s * 2 ^ fracBits + n`. -/
theorem magUnits_shift (f : FloatFormat) {s n : Nat} (hn : n ≤ 2 * 2 ^ f.fracBits) (hs : s = 0 ∨ 2 ^ f.fracBits ≤ n) :
    magUnits f (s * 2 ^ f.fracBits + n) = n * 2 ^ s := by
  unfold magUnits
  have hB : 0 < 2 ^ f.fracBits := Nat.two_pow_pos _
  generalize 2 ^ f.fracBits = B at *
  rcases Nat.lt_or_ge n B with h1 | h1
  · have hs0 : s = 0 := by omega
    subst hs0
    simp [Nat.div_eq_of_lt h1]
  · rcases Nat.lt_or_ge n (2 * B) with h2 | h2
    · have hq : (s * B + n) / B = s + 1 := by
        have : s * B + n = (n - B) + (s + 1) * B := by rw [Nat.add_mul]; omega
        rw [this, Nat.add_mul_div_right _ _ hB, Nat.div_eq_of_lt (by omega)]; omega
      have hm : (s * B + n) % B = n - B := by
        have : s * B + n = (n - B) + (s + 1) * B := by rw [Nat.add_mul]; omega
        rw [this, Nat.add_mul_mod_self_right, Nat.mod_eq_of_lt (by omega)]
      rw [hq, hm, if_neg (by omega)]
      have : B + (n - B) = n := by omega
      rw [this, Nat.add_sub_cancel]
    · have hn2 : n = 2 * B := by omega
      have he : s * B + n = (s + 2) * B := by rw [hn2, Nat.add_mul]
      rw [he, Nat.mul_div_cancel _ hB, Nat.mul_mod_left, if_neg (by omega), hn2]
      have : s + 2 - 1 = s + 1 := by omega
      rw [this, Nat.pow_succ]
      ring

/-- Every magnitude is a significand at a shift. -/
theorem exists_shift (f : FloatFormat) (m : Nat) :
    ∃ s n, m = s * 2 ^ f.fracBits + n ∧ n < 2 * 2 ^ f.fracBits ∧ (s = 0 ∨ 2 ^ f.fracBits ≤ n) := by
  have hB : 0 < 2 ^ f.fracBits := Nat.two_pow_pos _
  generalize 2 ^ f.fracBits = B at *
  have hm := Nat.div_add_mod m B
  have hr := Nat.mod_lt m hB
  rcases hq : m / B with _ | q
  · refine ⟨0, m, by simp, ?_, .inl rfl⟩
    rw [hq] at hm; omega
  · refine ⟨q, B + m % B, ?_, by omega, .inr (by omega)⟩
    have h2 : B * (q + 1) = q * B + B := by ring
    rw [hq] at hm
    omega

/-- A greater magnitude is a greater value. -/
theorem magUnits_lt_succ (f : FloatFormat) (m : Nat) : magUnits f m < magUnits f (m + 1) := by
  obtain ⟨s, n, rfl, hn, hs⟩ := exists_shift f m
  rw [magUnits_shift f (by omega) hs, Nat.add_assoc, magUnits_shift f (by omega) (by omega)]
  exact Nat.mul_lt_mul_of_pos_right (by omega) (Nat.two_pow_pos s)

theorem magUnits_strictMono (f : FloatFormat) : StrictMono (magUnits f) :=
  strictMono_nat_of_lt_succ (magUnits_lt_succ f)

@[simp] theorem magUnits_zero (f : FloatFormat) : magUnits f 0 = 0 := by simp [magUnits]

theorem magUnits_le_iff (f : FloatFormat) {a b : Nat} : magUnits f a ≤ magUnits f b ↔ a ≤ b :=
  (magUnits_strictMono f).le_iff_le

theorem magUnits_eq_zero (f : FloatFormat) {m : Nat} : magUnits f m = 0 ↔ m = 0 := by
  have := (magUnits_strictMono f).injective.eq_iff (a := m) (b := 0)
  simpa using this

/-! ## Rounding -/

/-- The shift of `roundUnits`. -/
def roundShift (f : FloatFormat) (num den : Nat) : Nat := Nat.log2 (num / den) - f.fracBits

/-- The significand of `roundUnits`. -/
def roundSignificand (f : FloatFormat) (num den : Nat) : Nat := divNearestEven num (den * 2 ^ roundShift f num den)

theorem roundUnits_eq (f : FloatFormat) (num den : Nat) :
    roundUnits f num den =
      min (roundShift f num den * 2 ^ f.fracBits + roundSignificand f num den) (infMag f) := rfl

/-- The significand fits, and is normalised unless the shift is 0. -/
theorem roundSignificand_bounds (f : FloatFormat) (num den : Nat) :
    roundSignificand f num den ≤ 2 * 2 ^ f.fracBits ∧
    (roundShift f num den = 0 ∨ 2 ^ f.fracBits ≤ roundSignificand f num den) := by
  have hfloor : num / (den * 2 ^ roundShift f num den) = num / den / 2 ^ roundShift f num den :=
    (Nat.div_div_eq_div_mul _ _ _).symm
  have hup : num / den / 2 ^ roundShift f num den < 2 * 2 ^ f.fracBits := by
    rw [Nat.div_lt_iff_lt_mul (Nat.two_pow_pos _)]
    have h1 : num / den < 2 ^ (Nat.log2 (num / den) + 1) := Nat.lt_log2_self
    have h2 : 2 ^ (Nat.log2 (num / den) + 1) ≤ 2 ^ (f.fracBits + 1 + roundShift f num den) :=
      Nat.pow_le_pow_right (by omega) (by unfold roundShift; omega)
    calc num / den < 2 ^ (f.fracBits + 1 + roundShift f num den) := Nat.lt_of_lt_of_le h1 h2
      _ = 2 * 2 ^ f.fracBits * 2 ^ roundShift f num den := by rw [pow_add, pow_succ]; ring
  have hcases := divNearestEven_cases num (den * 2 ^ roundShift f num den)
  unfold roundSignificand
  constructor
  · rcases hcases with h | ⟨h, -⟩ <;> omega
  · by_cases hs : roundShift f num den = 0
    · exact .inl hs
    · right
      have hpos : num / den ≠ 0 := by
        intro h0; apply hs; simp [roundShift, h0]
      have h1 : 2 ^ Nat.log2 (num / den) ≤ num / den := Nat.log2_self_le hpos
      have hlow : 2 ^ f.fracBits ≤ num / den / 2 ^ roundShift f num den := by
        rw [Nat.le_div_iff_mul_le (Nat.two_pow_pos _), ← pow_add]
        have : f.fracBits + roundShift f num den = Nat.log2 (num / den) := by
          unfold roundShift at hs ⊢; omega
        rw [this]; exact h1
      rcases hcases with h | ⟨h, -⟩ <;> omega

/-- The value that rounding gives before it is capped at infinity. -/
theorem magUnits_round (f : FloatFormat) (num den : Nat) :
    magUnits f (roundShift f num den * 2 ^ f.fracBits + roundSignificand f num den) =
      roundSignificand f num den * 2 ^ roundShift f num den :=
  magUnits_shift f (roundSignificand_bounds f num den).1 (roundSignificand_bounds f num den).2

theorem roundUnits_le_infMag (f : FloatFormat) (num den : Nat) : roundUnits f num den ≤ infMag f := Nat.min_le_right _ _

/-- Rounding is monotone. -/
theorem roundUnits_mono (f : FloatFormat) {a b den : Nat} (h : a ≤ b) :
    roundUnits f a den ≤ roundUnits f b den := by
  rw [roundUnits_eq, roundUnits_eq]
  apply min_le_min_right
  have hq : a / den ≤ b / den := Nat.div_le_div_right h
  have hlog : Nat.log2 (a / den) ≤ Nat.log2 (b / den) := by
    rw [Nat.log2_eq_log_two, Nat.log2_eq_log_two]
    exact Nat.log_mono_right hq
  have hs : roundShift f a den ≤ roundShift f b den := by unfold roundShift; omega
  have ba := roundSignificand_bounds f a den
  have bb := roundSignificand_bounds f b den
  rcases Nat.lt_or_eq_of_le hs with hlt | heq
  · have hb : 2 ^ f.fracBits ≤ roundSignificand f b den := by
      rcases bb.2 with h0 | h0
      · omega
      · exact h0
    have hm : (roundShift f a den + 1) * 2 ^ f.fracBits ≤ roundShift f b den * 2 ^ f.fracBits :=
      Nat.mul_le_mul_right _ hlt
    have := Nat.add_mul (roundShift f a den) 1 (2 ^ f.fracBits)
    omega
  · have : roundSignificand f a den ≤ roundSignificand f b den := by
      unfold roundSignificand
      rw [heq]
      exact divNearestEven_mono h
    rw [heq]; omega

theorem log_mul_two_pow {n : Nat} (hn : 0 < n) (s : Nat) : Nat.log 2 (n * 2 ^ s) = Nat.log 2 n + s := by
  induction s with
  | zero => simp
  | succ s ih =>
    have h : n * 2 ^ s ≠ 0 := Nat.mul_ne_zero (by omega) (Nat.two_pow_pos s).ne'
    rw [Nat.pow_succ, ← Nat.mul_assoc, Nat.log_mul_base (by omega) h, ih, Nat.add_assoc]

/-- A representable value rounds to itself. -/
theorem roundUnits_exact (f : FloatFormat) {m den : Nat} (hd : 0 < den) (hm : m ≤ infMag f) :
    roundUnits f (magUnits f m * den) den = m := by
  obtain ⟨s, n, rfl, hn, hs⟩ := exists_shift f m
  have hv := magUnits_shift f (s := s) (n := n) (by omega) hs
  have hq : magUnits f (s * 2 ^ f.fracBits + n) * den / den = n * 2 ^ s := by
    rw [hv, Nat.mul_div_cancel _ hd]
  have hshift : roundShift f (magUnits f (s * 2 ^ f.fracBits + n) * den) den = s := by
    unfold roundShift
    rw [hq, Nat.log2_eq_log_two]
    rcases Nat.eq_zero_or_pos n with h0 | h0
    · subst h0
      have : s = 0 := by
        rcases hs with h | h
        · exact h
        · have := Nat.two_pow_pos f.fracBits; omega
      simp [this]
    · rw [log_mul_two_pow h0]
      rcases hs with h | h
      · subst h
        have : Nat.log 2 n < f.fracBits + 1 := Nat.log_lt_of_lt_pow (by omega) (by rw [pow_succ]; omega)
        omega
      · have : Nat.log 2 n = f.fracBits := by
          rw [Nat.log_eq_iff (by omega)]
          exact ⟨h, by rw [pow_succ]; omega⟩
        omega
  rw [roundUnits_eq, roundSignificand, hshift, hv]
  have he : n * 2 ^ s * den = n * (den * 2 ^ s) := by ring
  rw [he, divNearestEven_mul (Nat.mul_pos hd (Nat.two_pow_pos s))]
  exact min_eq_left hm

end Sys2Proof.Machine
end

