-- ==== Sys2Proof/Laws/FloatOps.lean ====
section
/-! SUPPORT. The operations on finite operands: one exact result in units, and one rounding of it. -/

namespace Sys2Proof.Machine

/-! ## Packing -/

theorem signWeight_eq (f : FloatFormat) : signWeight f = 2 ^ f.expBits * 2 ^ f.fracBits := by
  rw [signWeight, pow_add]

theorem infMag_lt_signWeight (f : FloatFormat) : infMag f < signWeight f := by
  rw [signWeight_eq, infMag, Nat.mul_lt_mul_right (Nat.two_pow_pos _)]
  have := Nat.two_pow_pos f.expBits
  omega

theorem isNegative_packFloat (f : FloatFormat) (neg : Bool) {m : Nat} (h : m < signWeight f) :
    isNegative f (packFloat f neg m) = neg := by
  have hp : 0 < signWeight f := by omega
  cases neg
  · simp [isNegative, packFloat, Nat.div_eq_of_lt h]
  · simp [isNegative, packFloat, Nat.add_div_left _ hp, Nat.div_eq_of_lt h]

theorem magnitude_packFloat (f : FloatFormat) (neg : Bool) {m : Nat} (h : m < signWeight f) :
    magnitude f (packFloat f neg m) = m := by
  cases neg <;> simp [magnitude, packFloat, Nat.mod_eq_of_lt h]

/-- The value of a packed pattern. -/
theorem units_packFloat (f : FloatFormat) (neg : Bool) {m : Nat} (h : m < signWeight f) :
    units f (packFloat f neg m) = if neg then -(magUnits f m : Int) else (magUnits f m : Int) := by
  rw [units, isNegative_packFloat f neg h, magnitude_packFloat f neg h]

/-- A packed pattern fits the format's bits. -/
theorem packFloat_lt (f : FloatFormat) (neg : Bool) {m : Nat} (h : m < signWeight f) :
    packFloat f neg m < 2 * signWeight f := by
  cases neg <;> simp [packFloat] <;> omega

theorem roundUnits_lt_signWeight (f : FloatFormat) (num den : Nat) : roundUnits f num den < signWeight f :=
  Nat.lt_of_le_of_lt (roundUnits_le_infMag f num den) (infMag_lt_signWeight f)

/-! ## Finite operands -/

theorem not_isNaN_of_isFinite {f : FloatFormat} {x : Nat} (h : isFinite f x = true) : isNaN f x = false := by
  simp only [isFinite, isNaN, decide_eq_true_eq, decide_eq_false_iff_not] at *
  omega

theorem not_isInfinite_of_isFinite {f : FloatFormat} {x : Nat} (h : isFinite f x = true) :
    isInfinite f x = false := by
  simp only [isFinite, isInfinite, decide_eq_true_eq, decide_eq_false_iff_not] at *
  omega

/-- The sum of finite operands: a signed zero, or the exact sum rounded once. -/
theorem addBits_of_finite {f : FloatFormat} {x y : Nat} (hx : isFinite f x = true) (hy : isFinite f y = true)
    (nan : Nat) :
    addBits f nan x y =
      if units f x + units f y = 0 then packFloat f (isNegative f x && isNegative f y) 0
      else packFloat f (decide (units f x + units f y < 0)) (roundUnits f (units f x + units f y).natAbs 1) := by
  simp [addBits, not_isNaN_of_isFinite, not_isInfinite_of_isFinite, hx, hy]

/-- The difference of finite operands is the sum with the negated second one. -/
theorem subBits_of_finite {f : FloatFormat} {y : Nat} (hy : isFinite f y = true) (nan x : Nat) :
    subBits f nan x y = addBits f nan x (negateBits f y) := by
  simp [subBits, not_isNaN_of_isFinite hy]

theorem negateBits_isFinite {f : FloatFormat} {x : Nat} (h : isFinite f x = true) :
    isFinite f (negateBits f x) = true := by
  have hm : magnitude f x < signWeight f := Nat.mod_lt _ (by rw [signWeight]; exact Nat.two_pow_pos _)
  simpa [isFinite, negateBits, magnitude_packFloat f _ hm] using h

theorem units_negateBits (f : FloatFormat) (x : Nat) : units f (negateBits f x) = -units f x := by
  have hm : magnitude f x < signWeight f := Nat.mod_lt _ (by rw [signWeight]; exact Nat.two_pow_pos _)
  rw [negateBits, units_packFloat f _ hm, units]
  cases isNegative f x <;> simp

/-- The product of finite operands: the signs' exclusive or, and the exact product rounded once. -/
theorem mulBits_of_finite {f : FloatFormat} {x y : Nat} (hx : isFinite f x = true) (hy : isFinite f y = true)
    (nan : Nat) :
    mulBits f nan x y = packFloat f (isNegative f x != isNegative f y)
      (roundUnits f (magUnits f (magnitude f x) * magUnits f (magnitude f y)) (2 ^ unitShift f)) := by
  simp [mulBits, not_isNaN_of_isFinite, not_isInfinite_of_isFinite, hx, hy]

/-- The quotient of finite operands, the divisor no zero. -/
theorem divBits_of_finite {f : FloatFormat} {x y : Nat} (hx : isFinite f x = true) (hy : isFinite f y = true)
    (h0 : magnitude f y ≠ 0) (nan : Nat) :
    divBits f nan x y = packFloat f (isNegative f x != isNegative f y)
      (roundUnits f (magUnits f (magnitude f x) * 2 ^ unitShift f) (magUnits f (magnitude f y))) := by
  simp [divBits, not_isNaN_of_isFinite, not_isInfinite_of_isFinite, hx, hy, h0]

/-- The comparison of finite operands is that of their values. -/
theorem geBits_of_finite {f : FloatFormat} {x y : Nat} (hx : isFinite f x = true) (hy : isFinite f y = true) :
    geBits f x y = decide (units f y ≤ units f x) := by
  simp [geBits, not_isNaN_of_isFinite, hx, hy]

end Sys2Proof.Machine
end

