-- ==== Sys2Proof/Laws/Memory.lean ====
section
/-! SUPPORT. The sample buffers: what a write does to every element, that it keeps the canonical form, and that canonical
buffers that read alike are equal. -/

namespace Sys2Proof.Machine

/-- Every index of `m` is at least `k`. -/
abbrev Memory.From (k : Nat) (m : Memory) : Prop := ∀ c ∈ m, k ≤ c.1

@[simp] theorem Memory.read_nil (k : Nat) : Memory.read [] k = Memory.unlisted := rfl

theorem Memory.read_cons (j k : Nat) (w : F32) (m : Memory) :
    Memory.read ((j, w) :: m) k = if k = j then w else Memory.read m k := rfl

/-- An index below all listed ones reads as unlisted. -/
theorem Memory.read_below {m : Memory} {b k : Nat} (h : Memory.From b m) (hk : k < b) :
    Memory.read m k = Memory.unlisted := by
  induction m with
  | nil => rfl
  | cons c m ih =>
    have hc := h c (by simp)
    have : k ≠ c.1 := by omega
    obtain ⟨j, w⟩ := c
    rw [Memory.read_cons, if_neg this]
    exact ih fun d hd => h d (by simp [hd])

theorem Memory.wf_nil : Memory.wf [] := by simp [Memory.wf]

/-- A canonical buffer is a first cell below a canonical rest. -/
theorem Memory.wf_cons {j : Nat} {w : F32} {m : Memory} :
    Memory.wf ((j, w) :: m) ↔ w ≠ Memory.unlisted ∧ Memory.From (j + 1) m ∧ m.wf := by
  constructor
  · rintro ⟨hp, hz⟩
    rw [List.pairwise_cons] at hp
    exact ⟨hz (j, w) (by simp), fun c hc => hp.1 c hc, hp.2, fun c hc => hz c (by simp [hc])⟩
  · rintro ⟨hw, hf, hp, hz⟩
    refine ⟨List.pairwise_cons.2 ⟨fun c hc => hf c hc, hp⟩, ?_⟩
    intro c hc
    rcases List.mem_cons.1 hc with rfl | hc
    · exact hw
    · exact hz c hc

theorem Memory.read_cell (k : Nat) (v : F32) (m : Memory) (j : Nat) (h : v = Memory.unlisted → Memory.read m k = v) :
    Memory.read (Memory.cell k v ++ m) j = if j = k then v else Memory.read m j := by
  unfold Memory.cell
  split
  · rename_i hv
    by_cases hj : j = k
    · subst hj; simpa using h hv
    · simp [hj]
  · simp [Memory.read_cons]

/-- A write sets its own element and leaves every other. -/
theorem Memory.read_write {m : Memory} (hm : m.wf) (k : Nat) (v : F32) (j : Nat) :
    Memory.read (Memory.write m k v) j = if j = k then v else Memory.read m j := by
  induction m with
  | nil =>
    have := Memory.read_cell k v [] j (by intro h; simp [h])
    simpa [Memory.write] using this
  | cons c m ih =>
    obtain ⟨i, w⟩ := c
    obtain ⟨hw, hf, hwf⟩ := Memory.wf_cons.1 hm
    unfold Memory.write
    split
    · rename_i hk
      refine Memory.read_cell k v _ j fun hv => ?_
      rw [hv]
      exact Memory.read_below (b := i) (fun c hc => by
        rcases List.mem_cons.1 hc with rfl | hc
        · exact Nat.le_refl _
        · have := hf c hc; omega) hk
    · split
      · rename_i hk
        subst hk
        rw [Memory.read_cell k v m j fun hv => by rw [hv]; exact Memory.read_below hf (by omega)]
        by_cases hj : j = k <;> simp [hj, Memory.read_cons]
      · rename_i h1 h2
        rw [Memory.read_cons, Memory.read_cons, ih hwf]
        by_cases hj : j = i
        · subst hj; simp [show j ≠ k by omega]
        · simp [hj]

/-- What a write may list: what was listed, and the cell written. -/
theorem Memory.mem_write {m : Memory} {k : Nat} {v : F32} {c : Nat × F32} (h : c ∈ Memory.write m k v) :
    c ∈ m ∨ (c = (k, v) ∧ v ≠ Memory.unlisted) := by
  have cell_cases : ∀ rest : Memory, c ∈ Memory.cell k v ++ rest → c ∈ rest ∨ (c = (k, v) ∧ v ≠ Memory.unlisted) := by
    intro rest hc
    unfold Memory.cell at hc
    split at hc
    · exact .inl (by simpa using hc)
    · rename_i hv
      rcases List.mem_append.1 hc with hc | hc
      · exact .inr ⟨by simpa using hc, hv⟩
      · exact .inl hc
  induction m with
  | nil => simpa [Memory.write] using cell_cases [] (by simpa [Memory.write] using h)
  | cons d m ih =>
    obtain ⟨i, w⟩ := d
    unfold Memory.write at h
    split at h
    · exact cell_cases _ h
    · split at h
      · rcases cell_cases _ h with h | h
        · exact .inl (by simp [h])
        · exact .inr h
      · rcases List.mem_cons.1 h with rfl | h
        · exact .inl (by simp)
        · rcases ih h with h | h
          · exact .inl (by simp [h])
          · exact .inr h

theorem Memory.wf_cell {k : Nat} {v : F32} {m : Memory} (hm : m.wf) (hf : Memory.From (k + 1) m) :
    Memory.wf (Memory.cell k v ++ m) := by
  unfold Memory.cell
  split
  · simpa using hm
  · rename_i hv
    exact Memory.wf_cons.2 ⟨hv, hf, hm⟩

/-- A write keeps the canonical form. -/
theorem Memory.wf_write {m : Memory} (hm : m.wf) (k : Nat) (v : F32) : (Memory.write m k v).wf := by
  induction m with
  | nil => simpa [Memory.write] using Memory.wf_cell (k := k) (v := v) Memory.wf_nil (by simp)
  | cons c m ih =>
    obtain ⟨i, w⟩ := c
    obtain ⟨hw, hf, hwf⟩ := Memory.wf_cons.1 hm
    unfold Memory.write
    split
    · rename_i hk
      refine Memory.wf_cell hm fun c hc => ?_
      rcases List.mem_cons.1 hc with rfl | hc
      · exact hk
      · have := hf c hc; omega
    · split
      · rename_i hk
        subst hk
        exact Memory.wf_cell hwf hf
      · rename_i h1 h2
        refine Memory.wf_cons.2 ⟨hw, fun c hc => ?_, ih hwf⟩
        rcases Memory.mem_write hc with h | ⟨rfl, -⟩
        · exact hf c h
        · show i + 1 ≤ k; omega

/-- Canonical buffers that read alike are the same list, so equal contents are equal data. -/
theorem Memory.eq_of_read {m n : Memory} (hm : m.wf) (hn : n.wf) (h : ∀ k, Memory.read m k = Memory.read n k) :
    m = n := by
  induction m generalizing n with
  | nil =>
    cases n with
    | nil => rfl
    | cons c n =>
      obtain ⟨j, w⟩ := c
      have := h j
      simp only [Memory.read_nil, Memory.read_cons, if_true] at this
      exact absurd this.symm (Memory.wf_cons.1 hn).1
  | cons c m ih =>
    obtain ⟨i, v⟩ := c
    obtain ⟨hv, hfm, hwm⟩ := Memory.wf_cons.1 hm
    cases n with
    | nil =>
      have := h i
      simp only [Memory.read_nil, Memory.read_cons, if_true] at this
      exact absurd this hv
    | cons d n =>
      obtain ⟨j, w⟩ := d
      obtain ⟨hw, hfn, hwn⟩ := Memory.wf_cons.1 hn
      have hij : i = j := by
        rcases Nat.lt_trichotomy i j with hlt | heq | hgt
        · have hi := h i
          rw [Memory.read_cons, if_pos rfl, Memory.read_cons, if_neg (by omega),
            Memory.read_below hfn (by omega)] at hi
          exact absurd hi hv
        · exact heq
        · have hj := h j
          rw [Memory.read_cons, if_neg (by omega), Memory.read_below hfm (by omega), Memory.read_cons,
            if_pos rfl] at hj
          exact absurd hj.symm hw
      subst hij
      have hvw : v = w := by
        have := h i
        simpa [Memory.read_cons] using this
      subst hvw
      congr 1
      refine ih hwm hwn fun k => ?_
      by_cases hk : k = i
      · subst hk
        rw [Memory.read_below hfm (by omega), Memory.read_below hfn (by omega)]
      · have := h k
        simpa [Memory.read_cons, hk] using this

@[simp] theorem Memory.firstElements_length (m : Memory) (n : Nat) : (Memory.firstElements m n).length = n := by
  simp [Memory.firstElements]

theorem Memory.firstElements_getElem? (m : Memory) {n k : Nat} (h : k < n) :
    (Memory.firstElements m n)[k]? = some (Memory.read m k) := by
  simp [Memory.firstElements, h]

end Sys2Proof.Machine
end

