-- ==== Sys2Proof/Laws/PerInstr.lean ====
section
/-! SUPPORT. One lemma per command form: its byte lies in exactly its own row of the opcode map (30_encoding.md R51), and
it is read back whole. -/

namespace Sys2Proof.Laws.EncodeRow

/-- The byte of `i` matches the rows of the map whose mnemonic is `i`'s and no other, decodes to `i`, and `i` is
well-formed. -/
def Statement (i : Instr) : Prop :=
  (∀ r ∈ opcodeRows, r.matches (encode i) = decide (r.mnemonic = i.mnemonic)) ∧ decodeByte (encode i) = i ∧ i.wf = true

theorem latchT0 (d : BitVec 4) : Statement (.latchT0 d) := by unfold Statement; revert d; decide

theorem latchV0 (d : BitVec 4) : Statement (.latchV0 d) := by unfold Statement; revert d; decide

theorem latchT1 (d : BitVec 4) : Statement (.latchT1 d) := by unfold Statement; revert d; decide

theorem latchV1 (d : BitVec 4) : Statement (.latchV1 d) := by unfold Statement; revert d; decide

theorem latchT2 (d : BitVec 4) : Statement (.latchT2 d) := by unfold Statement; revert d; decide

theorem latchV2 (d : BitVec 4) : Statement (.latchV2 d) := by unfold Statement; revert d; decide

theorem latchN (d : BitVec 4) : Statement (.latchN d) := by unfold Statement; revert d; decide

theorem latchV3 (d : BitVec 4) : Statement (.latchV3 d) := by unfold Statement; revert d; decide

theorem data (x : Bool) (d : BitVec 6) : Statement (.data x d) := by unfold Statement; revert x d; decide

end Sys2Proof.Laws.EncodeRow
end

