-- ==== Sys2Proof/Laws/Tick.lean ====
section
/-! SUPPORT. What the generators' steps, the internal tick and one input clock do: each field they change, and that they
change no other. -/

namespace Sys2Proof.Machine

/-! ## Counters and reloads -/

@[simp] theorem countDown_toNat (c : BitVec 11) : (countDown c).toNat = c.toNat - 1 := by
  unfold countDown
  split
  · rename_i h; simp [h]
  · rename_i h
    have : c.toNat ≠ 0 := fun h0 => h (BitVec.eq_of_toNat_eq (by simpa using h0))
    have := c.isLt
    rw [BitVec.toNat_sub]
    simp
    omega

theorem countDown_eq_zero (c : BitVec 11) : countDown c = 0#11 ↔ c.toNat ≤ 1 := by
  constructor
  · intro h
    have := congrArg BitVec.toNat h
    simp only [countDown_toNat, BitVec.toNat_ofNat, Nat.zero_mod] at this
    omega
  · intro h
    apply BitVec.eq_of_toNat_eq
    simp only [countDown_toNat, BitVec.toNat_ofNat, Nat.zero_mod]
    omega

theorem reloadFromTone_toNat {v : Variant} (hv : v.legal) (r : BitVec 10) :
    (reloadFromTone v r).toNat = reloadNumber v r := by
  unfold reloadFromTone reloadNumber
  have hr := r.isLt
  by_cases h : r = 0
  · subst h
    rcases hv.2.1 with h | h <;> simp [h]
  · have : r.toNat ≠ 0 := fun h0 => h (BitVec.eq_of_toNat_eq (by simpa using h0))
    rw [if_neg h, if_neg this]
    simp
    omega

theorem reloadNumber_pos {v : Variant} (hv : v.legal) (r : BitVec 10) : 1 ≤ reloadNumber v r := by
  unfold reloadNumber
  split
  · rcases hv.2.1 with h | h <;> omega
  · omega

theorem reloadNumber_le {v : Variant} (r : BitVec 10) : reloadNumber v r ≤ counterBound v := by
  unfold reloadNumber counterBound
  have := r.isLt
  split <;> omega

theorem counterBound_ge (v : Variant) : 1023 ≤ counterBound v := Nat.le_max_left _ _

/-! ## The tone step -/

/-- The new value of a tone counter that holds `c`. -/
def toneCounterNext (s : State) (i : Fin 3) : BitVec 11 :=
  if s.toneCounter[i].toNat ≤ 1 then toneReload s i else countDown s.toneCounter[i]

/-- The new level of a tone output. -/
def toneOutNext (s : State) (i : Fin 3) : Bool :=
  if s.toneCounter[i].toNat ≤ 1 then !s.toneOut[i] else s.toneOut[i]

/-- All that a tone step does. -/
theorem toneStep_eq (i : Fin 3) (s : State) :
    toneStep i s = { s with
      toneCounter := s.toneCounter.set i (toneCounterNext s i)
      toneOut := s.toneOut.set i (toneOutNext s i) } := by
  simp [toneStep, toneCounterNext, toneOutNext, countDown_eq_zero]

/-! ## The noise step -/

/-- All that a noise step does. -/
theorem noiseStep_cases (s : State) :
    (1 < s.noiseCounter.toNat ∧ noiseStep s = { s with noiseCounter := countDown s.noiseCounter }) ∨
    (s.noiseCounter.toNat ≤ 1 ∧ s.noiseToggle = true ∧
      noiseStep s = { s with noiseCounter := noiseReload s, noiseToggle := false }) ∨
    (s.noiseCounter.toNat ≤ 1 ∧ s.noiseToggle = false ∧
      noiseStep s = { s with
        noiseCounter := noiseReload s, noiseToggle := true, noiseOut := s.noiseShift.getLsbD 0
        noiseShift := lfsrShift s.config.variant (noiseIsWhite s) s.noiseShift }) := by
  by_cases h : s.noiseCounter.toNat ≤ 1
  · cases ht : s.noiseToggle
    · exact .inr (.inr ⟨h, rfl, by simp [noiseStep, risingEdge, countDown_eq_zero, h, ht]⟩)
    · exact .inr (.inl ⟨h, rfl, by simp [noiseStep, risingEdge, countDown_eq_zero, h, ht]⟩)
  · exact .inl ⟨by omega, by simp [noiseStep, risingEdge, countDown_eq_zero, h]⟩

theorem noiseReload_toNat {s : State} (hv : s.config.variant.legal) :
    (noiseReload s).toNat = noiseReloadNumber s := by
  have hr : (s.noiseReg.extractLsb' 0 2).toNat = rateNumber s := by
    simp [rateNumber]
  have hlt : rateNumber s < 4 := Nat.mod_lt _ (by omega)
  unfold noiseReload noiseReloadNumber
  rw [hr]
  generalize rateNumber s = n at *
  match n, hlt with
  | 0, _ => rfl
  | 1, _ => rfl
  | 2, _ => rfl
  | 3, _ => simpa using reloadFromTone_toNat hv _

theorem noiseReloadNumber_pos {s : State} (hv : s.config.variant.legal) : 1 ≤ noiseReloadNumber s := by
  unfold noiseReloadNumber
  have := reloadNumber_pos hv s.toneReg[2]
  split_ifs <;> omega

theorem noiseReloadNumber_le (s : State) : noiseReloadNumber s ≤ counterBound s.config.variant := by
  unfold noiseReloadNumber
  have := reloadNumber_le (v := s.config.variant) s.toneReg[2]
  have := counterBound_ge s.config.variant
  split_ifs <;> omega

/-! ## The internal tick -/

/-- The fields a tone or noise step may change, taken from `t`, and all others from `s`. -/
def withGenerators (s t : State) : State :=
  { s with
    toneCounter := t.toneCounter, toneOut := t.toneOut, noiseCounter := t.noiseCounter
    noiseToggle := t.noiseToggle, noiseOut := t.noiseOut, noiseShift := t.noiseShift }

/-- R67: a tick changes only the generators' elements. -/
theorem withGenerators_internalTick (s : State) : withGenerators s (internalTick s) = internalTick s := rfl

@[simp] theorem noiseStep_toneCounter (s : State) : (noiseStep s).toneCounter = s.toneCounter := rfl
@[simp] theorem noiseStep_toneOut (s : State) : (noiseStep s).toneOut = s.toneOut := rfl
@[simp] theorem internalTick_config (s : State) : (internalTick s).config = s.config := rfl
@[simp] theorem internalTick_gain (s : State) : (internalTick s).gain = s.gain := rfl
@[simp] theorem internalTick_toneReg (s : State) : (internalTick s).toneReg = s.toneReg := rfl
@[simp] theorem internalTick_noiseReg (s : State) : (internalTick s).noiseReg = s.noiseReg := rfl
@[simp] theorem internalTick_volume (s : State) : (internalTick s).volume = s.volume := rfl
@[simp] theorem internalTick_latchedChannel (s : State) : (internalTick s).latchedChannel = s.latchedChannel := rfl
@[simp] theorem internalTick_latchedType (s : State) : (internalTick s).latchedType = s.latchedType := rfl
@[simp] theorem internalTick_clockDivider (s : State) : (internalTick s).clockDivider = s.clockDivider := rfl
@[simp] theorem internalTick_clockCounter (s : State) : (internalTick s).clockCounter = s.clockCounter := rfl
@[simp] theorem internalTick_bufferPos (s : State) : (internalTick s).bufferPos = s.bufferPos := rfl
@[simp] theorem internalTick_chBuf (s : State) : (internalTick s).chBuf = s.chBuf := rfl
@[simp] theorem internalTick_mixBuf (s : State) : (internalTick s).mixBuf = s.mixBuf := rfl
@[simp] theorem internalTick_pending (s : State) : (internalTick s).pending = s.pending := rfl
@[simp] theorem internalTick_result (s : State) : (internalTick s).result = s.result := rfl

/-- A tone step on channel `i` moves only channel `i`'s counter. -/
theorem toneStep_toneCounter (i j : Fin 3) (s : State) :
    (toneStep i s).toneCounter[j] = if j = i then toneCounterNext s i else s.toneCounter[j] := by
  rw [toneStep_eq]
  by_cases h : j = i
  · subst h; simp
  · have : i.val ≠ j.val := fun he => h (Fin.ext he.symm)
    simp [h, this]

theorem toneStep_toneOut (i j : Fin 3) (s : State) :
    (toneStep i s).toneOut[j] = if j = i then toneOutNext s i else s.toneOut[j] := by
  rw [toneStep_eq]
  by_cases h : j = i
  · subst h; simp
  · have : i.val ≠ j.val := fun he => h (Fin.ext he.symm)
    simp [h, this]

@[simp] theorem toneStep_toneReg (i : Fin 3) (s : State) : (toneStep i s).toneReg = s.toneReg := rfl
@[simp] theorem toneStep_config (i : Fin 3) (s : State) : (toneStep i s).config = s.config := rfl

/-- A tone step on another channel leaves channel `i`'s next values. -/
theorem toneNext_toneStep {i j : Fin 3} (h : i ≠ j) (s : State) :
    toneCounterNext (toneStep j s) i = toneCounterNext s i ∧ toneOutNext (toneStep j s) i = toneOutNext s i := by
  simp only [toneCounterNext, toneOutNext, toneReload, toneStep_toneCounter, toneStep_toneOut, if_neg h,
    toneStep_toneReg, toneStep_config, and_self]

/-- R68: what one tick does to tone channel `i`. -/
theorem internalTick_tone (s : State) (i : Fin 3) :
    (internalTick s).toneCounter[i] = toneCounterNext s i ∧ (internalTick s).toneOut[i] = toneOutNext s i := by
  unfold internalTick
  rw [noiseStep_toneCounter, noiseStep_toneOut]
  simp only [toneStep_toneCounter, toneStep_toneOut]
  match i with
  | 0 => simp
  | 1 => simpa using toneNext_toneStep (by decide) s
  | 2 =>
    have h1 := toneNext_toneStep (i := 2) (j := 1) (by decide) (toneStep 0 s)
    have h0 := toneNext_toneStep (i := 2) (j := 0) (by decide) s
    simpa using ⟨h1.1.trans h0.1, h1.2.trans h0.2⟩

/-- The noise step of a tick sees the noise channel as it was, whatever the tone steps did. -/
theorem internalTick_noise (s : State) :
    (internalTick s).noiseCounter = (noiseStep s).noiseCounter ∧
    (internalTick s).noiseToggle = (noiseStep s).noiseToggle ∧
    (internalTick s).noiseOut = (noiseStep s).noiseOut ∧
    (internalTick s).noiseShift = (noiseStep s).noiseShift :=
  ⟨rfl, rfl, rfl, rfl⟩

/-! ## One input clock -/

/-- R66: the two things one input clock can do. -/
theorem clockStep_cases (s : State) :
    (s.clockDivider = 15 ∧ clockStep s = internalTick { s with clockDivider := 0 }) ∨
    (s.clockDivider ≠ 15 ∧ clockStep s = { s with clockDivider := s.clockDivider + 1 }) := by
  unfold clockStep
  by_cases h : s.clockDivider = 15
  · exact .inl ⟨h, if_pos h⟩
  · exact .inr ⟨h, if_neg h⟩

/-- The divider and the generators' elements taken from `t`, all others from `s`. -/
def withClocked (s t : State) : State := { withGenerators s t with clockDivider := t.clockDivider }

/-- An input clock changes only the divider and the generators' elements. -/
theorem withClocked_clockStep (s : State) : withClocked s (clockStep s) = clockStep s := by
  rcases clockStep_cases s with ⟨-, h⟩ | ⟨-, h⟩ <;> rw [h] <;> rfl

@[simp] theorem clockStep_config (s : State) : (clockStep s).config = s.config := by
  rcases clockStep_cases s with ⟨-, h⟩ | ⟨-, h⟩ <;> simp [h]
@[simp] theorem clockStep_gain (s : State) : (clockStep s).gain = s.gain := by
  rcases clockStep_cases s with ⟨-, h⟩ | ⟨-, h⟩ <;> simp [h]
@[simp] theorem clockStep_toneReg (s : State) : (clockStep s).toneReg = s.toneReg := by
  rcases clockStep_cases s with ⟨-, h⟩ | ⟨-, h⟩ <;> simp [h]
@[simp] theorem clockStep_noiseReg (s : State) : (clockStep s).noiseReg = s.noiseReg := by
  rcases clockStep_cases s with ⟨-, h⟩ | ⟨-, h⟩ <;> simp [h]
@[simp] theorem clockStep_volume (s : State) : (clockStep s).volume = s.volume := by
  rcases clockStep_cases s with ⟨-, h⟩ | ⟨-, h⟩ <;> simp [h]
@[simp] theorem clockStep_latchedChannel (s : State) : (clockStep s).latchedChannel = s.latchedChannel := by
  rcases clockStep_cases s with ⟨-, h⟩ | ⟨-, h⟩ <;> simp [h]
@[simp] theorem clockStep_latchedType (s : State) : (clockStep s).latchedType = s.latchedType := by
  rcases clockStep_cases s with ⟨-, h⟩ | ⟨-, h⟩ <;> simp [h]
@[simp] theorem clockStep_clockCounter (s : State) : (clockStep s).clockCounter = s.clockCounter := by
  rcases clockStep_cases s with ⟨-, h⟩ | ⟨-, h⟩ <;> simp [h]
@[simp] theorem clockStep_bufferPos (s : State) : (clockStep s).bufferPos = s.bufferPos := by
  rcases clockStep_cases s with ⟨-, h⟩ | ⟨-, h⟩ <;> simp [h]
@[simp] theorem clockStep_chBuf (s : State) : (clockStep s).chBuf = s.chBuf := by
  rcases clockStep_cases s with ⟨-, h⟩ | ⟨-, h⟩ <;> simp [h]
@[simp] theorem clockStep_mixBuf (s : State) : (clockStep s).mixBuf = s.mixBuf := by
  rcases clockStep_cases s with ⟨-, h⟩ | ⟨-, h⟩ <;> simp [h]
@[simp] theorem clockStep_pending (s : State) : (clockStep s).pending = s.pending := by
  rcases clockStep_cases s with ⟨-, h⟩ | ⟨-, h⟩ <;> simp [h]
@[simp] theorem clockStep_result (s : State) : (clockStep s).result = s.result := by
  rcases clockStep_cases s with ⟨-, h⟩ | ⟨-, h⟩ <;> simp [h]

end Sys2Proof.Machine
end

