-- ==== Sys2Proof/Laws/Run.lean ====
section
/-! SUPPORT. The resampler and the frame driver: what an emission, a sample clock and a run do, and how runs compose. -/

namespace Sys2Proof.Machine

/-! ## Emission -/

@[simp] theorem writeLevels_get (s : State) (c : Fin 4) :
    (writeLevels s)[c] = Memory.write s.chBuf[c] s.bufferPos (level s c) := by
  simp [writeLevels]

/-- R88: the two things an emission can do. -/
theorem emit_cases (s : State) :
    (s.bufferPos < s.config.bufferCapacity ∧
      emit s = ({ s with chBuf := writeLevels s, bufferPos := s.bufferPos + 1 }, 0)) ∨
    (s.config.bufferCapacity ≤ s.bufferPos ∧ emit s = (s, 1)) := by
  unfold emit
  by_cases h : s.bufferPos < s.config.bufferCapacity
  · exact .inl ⟨h, if_pos h⟩
  · exact .inr ⟨by omega, if_neg h⟩

/-! ## One sample clock -/

/-- The accumulator after one clock's addition (R87). -/
def counterAfterAdd (s : State) : F64 := f64add s.clockCounter f64One

/-- R87 emits at this clock. -/
def emits (s : State) : Bool := f64ge (counterAfterAdd s) (clocksPerSample s.config)

/-- The accumulator after the whole sample clock (R87). -/
def counterAfterClock (s : State) : F64 :=
  if emits s then f64sub (counterAfterAdd s) (clocksPerSample s.config) else counterAfterAdd s

/-- The state that a sample clock's emission, if there is one, starts from. -/
def clockedState (s : State) : State := { clockStep s with clockCounter := counterAfterClock s }

/-- R87: the two things a sample clock can do. -/
theorem sampleClock_cases (s : State) :
    (emits s = true ∧ sampleClock s = emit (clockedState s)) ∨
    (emits s = false ∧ sampleClock s = (clockedState s, 0)) := by
  unfold sampleClock resample clockedState counterAfterClock
  simp only [clockStep_clockCounter, clockStep_config]
  cases h : emits s
  · right
    refine ⟨rfl, ?_⟩
    rw [if_neg (by simpa [emits, counterAfterAdd] using h)]
    simp [counterAfterAdd]
  · left
    refine ⟨rfl, ?_⟩
    rw [if_pos (by simpa [emits, counterAfterAdd] using h)]
    simp [counterAfterAdd]

/-- The fields a sample clock may change, taken from `t`, and all others from `s`. -/
def withRun (s t : State) : State :=
  { withClocked s t with clockCounter := t.clockCounter, bufferPos := t.bufferPos, chBuf := t.chBuf }

theorem withRun_trans {s t u : State} (h1 : withRun s t = t) (h2 : withRun t u = u) : withRun s u = u := by
  rw [← h1] at h2
  exact h2

/-- R87, R88: a sample clock changes only the generators, the divider, the accumulator, `buffer_pos` and `ch_buf`. -/
theorem withRun_sampleClock (s : State) : withRun s (sampleClock s).1 = (sampleClock s).1 := by
  have key : withRun s (clockedState s) = clockedState s := by
    simp [withRun, withClocked, withGenerators, clockedState]
  have emitted : withRun s (emit (clockedState s)).1 = (emit (clockedState s)).1 := by
    rcases emit_cases (clockedState s) with ⟨-, h⟩ | ⟨-, h⟩
    · rw [h]
      exact congrArg (fun t => { t with
        chBuf := writeLevels (clockedState s), bufferPos := (clockedState s).bufferPos + 1 }) key
    · rw [h]; exact key
  rcases sampleClock_cases s with ⟨-, h⟩ | ⟨-, h⟩
  · rw [h]; exact emitted
  · rw [h]; exact key

/-- The counter after a sample clock is that of R87, whether its emission was stored or dropped. -/
@[simp] theorem sampleClock_clockCounter (s : State) : (sampleClock s).1.clockCounter = counterAfterClock s := by
  rcases sampleClock_cases s with ⟨-, h⟩ | ⟨-, h⟩
  · rw [h]
    rcases emit_cases (clockedState s) with ⟨-, h'⟩ | ⟨-, h'⟩ <;> (rw [h']; rfl)
  · rw [h]; rfl

/-- R88: how one sample clock moves `buffer_pos`, and what it counts as dropped. -/
theorem sampleClock_bufferPos (s : State) :
    (emits s = true ∧ s.bufferPos < s.config.bufferCapacity ∧
      (sampleClock s).1.bufferPos = s.bufferPos + 1 ∧ (sampleClock s).2 = 0) ∨
    (emits s = true ∧ s.config.bufferCapacity ≤ s.bufferPos ∧
      (sampleClock s).1.bufferPos = s.bufferPos ∧ (sampleClock s).2 = 1) ∨
    (emits s = false ∧ (sampleClock s).1.bufferPos = s.bufferPos ∧ (sampleClock s).2 = 0) := by
  rcases sampleClock_cases s with ⟨he, h⟩ | ⟨he, h⟩
  · rw [h]
    rcases emit_cases (clockedState s) with ⟨hlt, h'⟩ | ⟨hge, h'⟩
    · refine .inl ⟨he, by simpa [clockedState] using hlt, ?_, by rw [h']⟩
      rw [h']; simp [clockedState]
    · refine .inr (.inl ⟨he, by simpa [clockedState] using hge, ?_, by rw [h']⟩)
      rw [h']; simp [clockedState]
  · refine .inr (.inr ⟨he, ?_, by rw [h]⟩)
    rw [h]; simp [clockedState]

/-- R88: the channel buffers after a sample clock: as they were, or with the levels of this clock at `buffer_pos`. -/
theorem sampleClock_chBuf (s : State) :
    (sampleClock s).1.chBuf = s.chBuf ∨
    (s.bufferPos < s.config.bufferCapacity ∧ (sampleClock s).1.chBuf = writeLevels (clockedState s)) := by
  rcases sampleClock_cases s with ⟨-, h⟩ | ⟨-, h⟩
  · rcases emit_cases (clockedState s) with ⟨hlt, h'⟩ | ⟨-, h'⟩
    · right
      refine ⟨by simpa [clockedState] using hlt, ?_⟩
      rw [h, h']
    · left; rw [h, h']; simp [clockedState]
  · left; rw [h]; simp [clockedState]

@[simp] theorem sampleClock_config (s : State) : (sampleClock s).1.config = s.config :=
  (congrArg State.config (withRun_sampleClock s)).symm

/-! ## Runs -/

theorem runLoop_add (m n : Nat) (p : State × Nat) : runLoop (m + n) p = runLoop n (runLoop m p) := by
  induction m generalizing p with
  | zero => simp [runLoop]
  | succ m ih => rw [Nat.succ_add]; exact ih _

/-- The dropped count is added up, and nothing in the loop reads it. -/
theorem runLoop_count (n : Nat) (s : State) (d : Nat) :
    runLoop n (s, d) = ((runLoop n (s, 0)).1, d + (runLoop n (s, 0)).2) := by
  induction n generalizing s d with
  | zero => rfl
  | succ n ih =>
    show runLoop n ((sampleClock s).1, d + (sampleClock s).2) =
      ((runLoop n ((sampleClock s).1, 0 + (sampleClock s).2)).1,
        d + (runLoop n ((sampleClock s).1, 0 + (sampleClock s).2)).2)
    rw [ih, ih _ (0 + (sampleClock s).2)]
    simp [Nat.add_assoc]

@[simp] theorem runClocks_zero (s : State) : runClocks 0 s = (s, 0) := rfl

/-- R89: one more clock at the front of a run. -/
theorem runClocks_succ (n : Nat) (s : State) :
    runClocks (n + 1) s =
      ((runClocks n (sampleClock s).1).1, (sampleClock s).2 + (runClocks n (sampleClock s).1).2) := by
  show runLoop n ((sampleClock s).1, 0 + (sampleClock s).2) = _
  rw [runLoop_count]
  simp [runClocks]

/-- R95: a run of `m + n` clocks is a run of `m` and then one of `n`. -/
theorem runClocks_add (m n : Nat) (s : State) :
    runClocks (m + n) s =
      ((runClocks n (runClocks m s).1).1, (runClocks m s).2 + (runClocks n (runClocks m s).1).2) := by
  show runLoop (m + n) (s, 0) = _
  rw [runLoop_add]
  show runLoop n ((runLoop m (s, 0)).1, (runLoop m (s, 0)).2) = _
  rw [runLoop_count]
  rfl

/-- What holds of a state and is kept by every sample clock holds after any run. -/
theorem runClocks_keeps {P : State → Prop} (h : ∀ s, P s → P (sampleClock s).1) (n : Nat) (s : State) (hs : P s) :
    P (runClocks n s).1 := by
  induction n generalizing s with
  | zero => exact hs
  | succ n ih => rw [runClocks_succ]; exact ih _ (h s hs)

/-- A run changes only what a sample clock may change. -/
theorem withRun_runClocks (n : Nat) (s : State) : withRun s (runClocks n s).1 = (runClocks n s).1 :=
  runClocks_keeps (P := fun t => withRun s t = t) (fun t ht => withRun_trans ht (withRun_sampleClock t)) n s rfl

@[simp] theorem runClocks_config (n : Nat) (s : State) : (runClocks n s).1.config = s.config :=
  (congrArg State.config (withRun_runClocks n s)).symm

/-- No sample clock reads the last result. -/
theorem sampleClock_ret (s : State) (r : Result) :
    sampleClock (s.ret r) = ((sampleClock s).1.ret r, (sampleClock s).2) := by
  have hc : clockStep (s.ret r) = (clockStep s).ret r := by
    unfold clockStep
    by_cases h : s.clockDivider = 15
    · rw [if_pos h, if_pos (by simpa using h)]; rfl
    · rw [if_neg h, if_neg (by simpa using h)]; rfl
  have hk : clockedState (s.ret r) = (clockedState s).ret r := by
    unfold clockedState
    rw [hc]; rfl
  have he : emits (s.ret r) = emits s := rfl
  rcases sampleClock_cases s with ⟨h1, h⟩ | ⟨h1, h⟩ <;> rcases sampleClock_cases (s.ret r) with ⟨h2, h'⟩ | ⟨h2, h'⟩
  · rw [h, h', hk]
    rcases emit_cases (clockedState s) with ⟨hp, e⟩ | ⟨hp, e⟩ <;>
      rcases emit_cases ((clockedState s).ret r) with ⟨hp', e'⟩ | ⟨hp', e'⟩
    · rw [e, e']; rfl
    · exact absurd hp (by simpa using hp')
    · exact absurd hp' (by simpa using hp)
    · rw [e, e']
  · rw [he, h1] at h2; exact absurd h2 (by simp)
  · rw [he, h1] at h2; exact absurd h2 (by simp)
  · rw [h, h', hk]

/-- No run reads the last result. -/
theorem runClocks_ret (n : Nat) (s : State) (r : Result) :
    runClocks n (s.ret r) = ((runClocks n s).1.ret r, (runClocks n s).2) := by
  induction n generalizing s with
  | zero => rfl
  | succ n ih =>
    rw [runClocks_succ, runClocks_succ, sampleClock_ret]
    simp only [ih]

/-! ## The buffers keep their canonical form -/

/-- R88: the channel buffers after an emission. -/
theorem writeLevels_wf {s : State} (h : ∀ c : Fin 4, s.chBuf[c].wf) (c : Fin 4) : ((writeLevels s)[c]).wf := by
  rw [writeLevels_get]
  exact Memory.wf_write (h c) _ _

/-- R93: the mixed buffer, however far it has been computed. -/
theorem mixedBelow_wf {s : State} (h : s.mixBuf.wf) (n : Nat) : (mixedBelow s n).wf := by
  induction n with
  | zero => exact h
  | succ n ih => exact Memory.wf_write ih _ _

/-- R93: the elements below `n` are computed anew, the others are as they were. -/
theorem read_mixedBelow {s : State} (h : s.mixBuf.wf) (n k : Nat) :
    Memory.read (mixedBelow s n) k = if k < n then mixedElement s k else Memory.read s.mixBuf k := by
  induction n with
  | zero => simp [mixedBelow]
  | succ n ih =>
    rw [mixedBelow, Memory.read_write (mixedBelow_wf h n), ih]
    by_cases hk : k = n
    · subst hk; simp
    · rw [if_neg hk]
      by_cases hlt : k < n
      · rw [if_pos hlt, if_pos (by omega)]
      · rw [if_neg hlt, if_neg (by omega)]

/-- The buffers of the machine right after construction are canonical. -/
theorem constructed_wf (c : Config) :
    (∀ i : Fin 4, (State.constructed c).chBuf[i].wf) ∧ (State.constructed c).mixBuf.wf := by
  constructor
  · intro i
    have : (State.constructed c).chBuf[i] = [] := by simp [State.constructed]
    rw [this]; exact Memory.wf_nil
  · exact Memory.wf_nil

end Sys2Proof.Machine
end

