-- ==== Sys2Proof/Laws/Snapshot.lean ====
section
/-! SUPPORT. The host's byte buffer and the snapshot image: reads after writes, and what the checks of an image say. -/

namespace Sys2Proof.Machine

/-! ## The byte buffer -/

@[simp] theorem memRead_zero (buf : List Byte) (addr : Nat) : memRead buf addr 0 = 0 := rfl

theorem memRead_succ (buf : List Byte) (addr n : Nat) :
    memRead buf addr (n + 1) = (buf.getD addr 0).toNat + 256 * memRead buf (addr + 1) n := rfl

/-- One byte. -/
theorem memRead_one (buf : List Byte) (addr : Nat) : memRead buf addr 1 = (buf.getD addr 0).toNat := by
  simp [memRead_succ]

/-- `n` bytes hold a number below `256 ^ n`. -/
theorem memRead_lt (buf : List Byte) (addr n : Nat) : memRead buf addr n < 256 ^ n := by
  induction n generalizing addr with
  | zero => simp
  | succ n ih =>
    have h1 := ih (addr + 1)
    have h2 := (buf.getD addr 0).isLt
    rw [memRead_succ, Nat.pow_succ]
    omega

/-- A read depends only on the bytes it covers. -/
theorem memRead_congr {buf out : List Byte} {addr n : Nat}
    (h : ∀ k, addr ≤ k → k < addr + n → out[k]? = buf[k]?) : memRead out addr n = memRead buf addr n := by
  induction n generalizing addr with
  | zero => rfl
  | succ n ih =>
    rw [memRead_succ, memRead_succ, ih fun k hk hk' => h k (by omega) (by omega),
      List.getD_eq_getElem?_getD, List.getD_eq_getElem?_getD, h addr (by omega) (by omega)]

@[simp] theorem memWrite_length (buf : List Byte) (addr n v : Nat) : (memWrite buf addr n v).length = buf.length := by
  induction n generalizing buf addr v with
  | zero => rfl
  | succ n ih => simp [memWrite, ih]

/-- A write leaves every byte outside the ones it covers. -/
theorem memWrite_outside (buf : List Byte) {addr n k : Nat} (v : Nat) (h : k < addr ∨ addr + n ≤ k) :
    (memWrite buf addr n v)[k]? = buf[k]? := by
  induction n generalizing buf addr v with
  | zero => rfl
  | succ n ih =>
    rw [memWrite, ih _ _ (by omega), List.getElem?_set]
    simp [show addr ≠ k by omega]

/-- A read of what was written gives its low-order bytes. -/
theorem memRead_memWrite {buf : List Byte} {addr n : Nat} (v : Nat) (h : addr + n ≤ buf.length) :
    memRead (memWrite buf addr n v) addr n = v % 256 ^ n := by
  induction n generalizing buf addr v with
  | zero => simp [Nat.mod_one]
  | succ n ih =>
    rw [memWrite, memRead_succ, ih _ (by simp; omega), List.getD_eq_getElem?_getD,
      memWrite_outside _ _ (by omega), List.getElem?_set]
    simp only [if_true, show addr < buf.length by omega, Option.getD_some, BitVec.toNat_ofNat]
    rw [show (2 : Nat) ^ 8 = 256 from rfl, show 256 ^ (n + 1) = 256 * 256 ^ n from Nat.pow_succ', Nat.mod_mul]

/-- A read elsewhere is not changed. -/
theorem memRead_memWrite_of_disjoint (buf : List Byte) {addr n a m : Nat} (v : Nat)
    (h : a + m ≤ addr ∨ addr + n ≤ a) : memRead (memWrite buf addr n v) a m = memRead buf a m :=
  memRead_congr fun _ _ _ => memWrite_outside _ _ (by omega)

/-! ## Writing the image -/

@[simp] theorem writeFields_length (buf : List Byte) (fields : List (Nat × Nat × Nat)) :
    (writeFields buf fields).length = buf.length := by
  induction fields generalizing buf with
  | nil => rfl
  | cons f fields ih => obtain ⟨a, n, v⟩ := f; simp [writeFields, ih]

/-- Fields leave every byte that none of them covers. -/
theorem writeFields_outside (buf : List Byte) (fields : List (Nat × Nat × Nat)) {k : Nat}
    (h : ∀ f ∈ fields, k < f.1 ∨ f.1 + f.2.1 ≤ k) : (writeFields buf fields)[k]? = buf[k]? := by
  induction fields generalizing buf with
  | nil => rfl
  | cons f fields ih =>
    obtain ⟨a, n, v⟩ := f
    rw [writeFields, ih _ fun f hf => h f (by simp [hf]), memWrite_outside _ _ (h (a, n, v) (by simp))]

/-- Fields in rising order, none overlapping the next, starting at or after `start`. -/
def fieldsFrom : Nat → List (Nat × Nat × Nat) → Bool
  | _, [] => true
  | start, (a, n, _) :: fields => decide (start ≤ a) && fieldsFrom (a + n) fields

theorem fieldsFrom_mono {start start' : Nat} {fields : List (Nat × Nat × Nat)} (h : start' ≤ start)
    (hf : fieldsFrom start fields = true) : fieldsFrom start' fields = true := by
  cases fields with
  | nil => rfl
  | cons f fields =>
    obtain ⟨a, n, v⟩ := f
    simp only [fieldsFrom, Bool.and_eq_true, decide_eq_true_eq] at hf ⊢
    exact ⟨by omega, hf.2⟩

theorem fieldsFrom_mem {start : Nat} {fields : List (Nat × Nat × Nat)} (hf : fieldsFrom start fields = true)
    {f : Nat × Nat × Nat} (h : f ∈ fields) : start ≤ f.1 := by
  induction fields generalizing start with
  | nil => cases h
  | cons g fields ih =>
    obtain ⟨a, n, v⟩ := g
    simp only [fieldsFrom, Bool.and_eq_true, decide_eq_true_eq] at hf
    rcases List.mem_cons.1 h with rfl | h
    · exact hf.1
    · have := ih hf.2 h; omega

/-- Every field of an ordered list reads back its value. -/
theorem memRead_writeFields {buf : List Byte} {fields : List (Nat × Nat × Nat)} {start : Nat}
    (hf : fieldsFrom start fields = true) {a n v : Nat} (h : (a, n, v) ∈ fields) (hl : a + n ≤ buf.length) :
    memRead (writeFields buf fields) a n = v % 256 ^ n := by
  induction fields generalizing buf start with
  | nil => cases h
  | cons g fields ih =>
    obtain ⟨b, m, w⟩ := g
    simp only [fieldsFrom, Bool.and_eq_true, decide_eq_true_eq] at hf
    rw [writeFields]
    rcases List.mem_cons.1 h with he | h
    · cases he
      rw [← memRead_memWrite v hl]
      exact memRead_congr fun k hk hk' => writeFields_outside _ _ fun f hm => by
        have := fieldsFrom_mem hf.2 hm
        omega
    · exact ih hf.2 h (by simpa using hl)

/-- R98: the fields of the image stand in rising order without overlap. -/
theorem snapshotFields_from (s : State) : fieldsFrom 1 (snapshotFields s) = true := rfl

/-- R98: each field reads back from the image. -/
theorem memRead_writeImage (s : State) {buf : List Byte} (hl : 40 ≤ buf.length) {a n v : Nat}
    (h : (a, n, v) ∈ snapshotFields s) (ha : a + n ≤ 40) : memRead (writeImage s buf) a n = v % 256 ^ n :=
  memRead_writeFields (snapshotFields_from s) h (by simp; omega)

@[simp] theorem writeImage_length (s : State) (buf : List Byte) : (writeImage s buf).length = buf.length := by
  simp [writeImage]

/-! ## Checking an image -/

/-- R108: no failure is reported exactly when every check passes. -/
theorem firstFailure_eq_none {checks : List (Nat × Bool)} :
    firstFailure checks = none ↔ ∀ c ∈ checks, c.2 = true := by
  induction checks with
  | nil => simp [firstFailure]
  | cons c checks ih =>
    obtain ⟨o, b⟩ := c
    cases b <;> simp [firstFailure, ih]

/-- R108: what is reported failed, and every check before it passed. -/
theorem firstFailure_eq_some {checks : List (Nat × Bool)} {o : Nat} (h : firstFailure checks = some o) :
    ∃ before after, checks = before ++ (o, false) :: after ∧ ∀ c ∈ before, c.2 = true := by
  induction checks with
  | nil => cases h
  | cons c checks ih =>
    obtain ⟨p, b⟩ := c
    cases b with
    | false =>
      simp only [firstFailure, Bool.false_eq_true, if_false, Option.some_inj] at h
      subst h
      exact ⟨[], checks, rfl, by simp⟩
    | true =>
      obtain ⟨before, after, rfl, hb⟩ := ih (by simpa [firstFailure] using h)
      exact ⟨(p, true) :: before, after, rfl, by simpa using hb⟩

/-- The three ways R101 turns an image away, and the one way it loads. -/
theorem doDeserialize_cases (buf : List Byte) (s : State) :
    (∃ e, imageError s.config.variant buf = some e ∧ doDeserialize buf s = .next (s.raise e buf)) ∨
    (imageError s.config.variant buf = none ∧ doDeserialize buf s = .next (loadImage buf s)) := by
  unfold doDeserialize
  cases h : imageError s.config.variant buf with
  | some e => exact .inl ⟨e, rfl, rfl⟩
  | none => exact .inr ⟨rfl, rfl⟩

/-- An image that loads is long enough, of version 1, and passes every check. -/
theorem imageError_eq_none {v : Variant} {buf : List Byte} (h : imageError v buf = none) :
    40 ≤ buf.length ∧ buf.getD 0 0 = 1 ∧ ∀ c ∈ imageChecks v buf, c.2 = true := by
  unfold imageError at h
  split at h
  · cases h
  · split at h
    · cases h
    · rename_i hl hv
      refine ⟨by simpa [snapshotSize] using hl, by simpa [snapshotVersion] using hv, ?_⟩
      exact firstFailure_eq_none.1 (by simpa using h)

end Sys2Proof.Machine
end

