-- ==== Sys2Proof/Laws/Transactions.lean ====
section
/-! SUPPORT. What a completed transaction can do, said once: one constructor of `Performed` per transaction, guards
included. -/

namespace Sys2Proof.Machine

/-- `Performed t s s'`: the transaction `t` took `s` to `s'`. -/
inductive Performed : Transaction → State → State → Prop where
  | construct {cf sr cap : Int} {v : Variant} {s : State}
      (h : parameterLegal cf ∧ parameterLegal sr ∧ parameterLegal cap ∧ v.legal) :
      Performed (.construct cf sr cap v) s
        { State.constructed { clockFreq := cf.toNat, sampleRate := sr.toNat, bufferCapacity := cap.toNat, variant := v }
          with pending := s.pending }
  | write {b : Byte} {s t : State} (h : CommandEffect s t) : Performed (.write b) s t
  | clock {s : State} : Performed .clock s (clockStep s)
  | run {n : Nat} {s : State} (h : n ≤ 2 ^ 32 - 1) :
      Performed (.run n) s ((runClocks n s).1.ret (.dropped (runClocks n s).2))
  | generateSamples {n : Nat} {s : State} (h : n ≤ 2 ^ 32 - 1) :
      Performed (.generateSamples n) s
        ((runClocks n (resetBuffer s)).1.ret (.dropped (runClocks n (resetBuffer s)).2))
  | resetBuffer {s : State} : Performed .resetBuffer s (resetBuffer s)
  | reset {s : State} : Performed .reset s (resetState s)
  | setGain {g : F32} {s : State} (h : gainLegal g) : Performed (.setGain g) s { s with gain := g }
  | mixedBuffer {s : State} :
      Performed .mixedBuffer s ({ s with mixBuf := mixedBelow s s.bufferPos }.ret
        (.view (Memory.firstElements (mixedBelow s s.bufferPos) s.bufferPos) s.bufferPos))
  | load {buf : List Byte} {s : State} (h : imageError s.config.variant buf = none) :
      Performed (.deserialize buf) s (loadImage buf s)
  | raise {t : Transaction} {e : Error} {buf : List Byte} {s : State} (h : t = .serialize buf ∨ t = .deserialize buf) :
      Performed t s (s.raise e buf)
  | ret {t : Transaction} {r : Result} {s : State} (hread : t.isRead = true) (h : ∀ e buf, r ≠ .failed e buf) :
      Performed t s (s.ret r)

/-- A transaction that completes did one of these. -/
theorem performed_of_next {t : Transaction} {s s' : State} (h : perform t s = .next s') : Performed t s s' := by
  cases t with
  | construct cf sr cap v =>
    simp only [perform, doConstruct] at h
    split at h
    · cases h; exact .construct ‹_›
    · cases h
  | write b => exact .write (effect_of_exec h)
  | clock => cases h; exact .clock
  | run n =>
    simp only [perform, doRun] at h
    split at h
    · rename_i k hk
      obtain ⟨hl, rfl⟩ := clockCount_eq_some.1 hk
      cases h
      exact .run (by have := hl.2; omega)
    · cases h
  | generateSamples n =>
    simp only [perform, doGenerateSamples, doRun] at h
    split at h
    · rename_i k hk
      obtain ⟨hl, rfl⟩ := clockCount_eq_some.1 hk
      cases h
      exact .generateSamples (by have := hl.2; omega)
    · cases h
  | resetBuffer => cases h; exact .resetBuffer
  | reset => cases h; exact .reset
  | sample => cases h; exact .ret rfl (by simp)
  | setGain g =>
    simp only [perform, doSetGain] at h
    split at h
    · cases h; exact .setGain ‹_›
    · cases h
  | getGain => cases h; exact .ret rfl (by simp)
  | clocksPerSample => cases h; exact .ret rfl (by simp)
  | channelBuffer ch =>
    simp only [perform, doChannelBuffer] at h
    split at h
    · cases h; exact .ret rfl (by simp)
    · cases h
  | mixedBuffer => cases h; exact .mixedBuffer
  | serializeSize => cases h; exact .ret rfl (by simp)
  | serialize buf =>
    simp only [perform, doSerialize] at h
    split at h
    · cases h; exact .raise (.inl rfl)
    · cases h; exact .ret rfl (by simp)
  | deserialize buf =>
    rcases doDeserialize_cases buf s with ⟨e, -, he⟩ | ⟨hn, he⟩
    · rw [perform, he] at h; cases h; exact .raise (.inr rfl)
    · rw [perform, he] at h; cases h; exact .load hn
  | toneRegister ch =>
    simp only [perform, doToneRegister] at h
    split at h
    · cases h; exact .ret rfl (by simp)
    · cases h
  | volumeRegister ch =>
    simp only [perform, doVolumeRegister] at h
    split at h
    · cases h; exact .ret rfl (by simp)
    · cases h
  | noiseRegister => cases h; exact .ret rfl (by simp)
  | noiseShiftRegister => cases h; exact .ret rfl (by simp)
  | volumeTable => cases h; exact .ret rfl (by simp)
  | secondAgent => cases h

/-- A step with nothing pending holds the state; otherwise it performed the oldest transaction. -/
theorem step_cases {s s' : State} (h : step s = .next s') :
    (s.pending = [] ∧ s' = s) ∨
    (∃ t rest, s.pending = t :: rest ∧ Performed t (s.accept rest) s') := by
  unfold step takeTransaction at h
  split at h
  · rename_i hp; cases h; exact .inl ⟨hp, rfl⟩
  · rename_i t rest hp; exact .inr ⟨t, rest, hp, performed_of_next h⟩

end Sys2Proof.Machine
end

