-- ==== Sys2Proof/Tests/Slice0.lean ====
section
/-! SUPPORT. The model's own tests. Expected values come from spec/: the encodings of 30_encoding.md, the vectors of
95_test_vectors.md, the ranges of the rules cited. Witnesses show that the hypotheses of each statement can be met. -/

namespace Sys2Proof.Tests

open Sys2Proof Sys2Proof.Machine

/-! ## Helpers -/

/-- The state after a transaction that completes; the state itself otherwise. -/
def after (t : Transaction) (s : State) : State :=
  match perform t s with
  | .next u => u
  | .fault _ => s
  | .refused _ => s

/-- A transaction completes. -/
def completes (t : Transaction) (s : State) : Bool :=
  match perform t s with
  | .next _ => true
  | .fault _ => false
  | .refused _ => false

/-- Command bytes one after another. -/
def afterBytes : List Byte → State → State
  | [], s => s
  | b :: bs, s => afterBytes bs (after (.write b) s)

/-- The settings of 95_test_vectors.md: Sega, gain 1.0. -/
def sega : State := { State.reset with gain := 0x3F800000 }

/-- TI, gain 1.0. -/
def ti : State := { State.constructed { Config.standard with variant := Variant.ti } with gain := 0x3F800000 }

/-- An instance of small parameters (programs P1 to P4), gain 1.0. -/
def small (clockFreq sampleRate capacity : Nat) (v : Variant) : State :=
  { State.constructed ⟨clockFreq, sampleRate, capacity, v⟩ with gain := 0x3F800000 }

/-- Sega, all four outputs HIGH, with these volumes (95_test_vectors.md 2.4). -/
def allHigh (volume : Vector (BitVec 4) 4) : State :=
  { sega with volume := volume, toneOut := #v[true, true, true], noiseOut := true }

/-- The image of the TI reset state (95_test_vectors.md 2.6). -/
def tiImage : List Byte :=
  [0x01, 0, 0, 0, 0, 0, 0, 0, 0, 0, 0, 0, 0, 0, 0, 0, 0, 0, 0, 0x00] ++
  [0x40, 0x00, 0x0F, 0x0F, 0x0F, 0x0F, 0, 0, 0, 0, 0, 0, 0, 0, 0, 0, 0, 0, 0, 0]

/-- The image after `GEN 200` of program P4 (95_test_vectors.md). -/
def p4Image : List Byte :=
  [0x01, 0, 0, 0, 0, 0x01, 0, 0xF5, 0x03, 0xF5, 0x03, 0x01, 0, 0x01, 0x01, 0, 0x07, 0x01, 0, 0x00] ++
  [0x01, 0x00, 0x0F, 0x0F, 0x0F, 0x00, 0x03, 0x01, 0x08, 0, 0, 0, 0, 0, 0, 0, 0, 0, 0x20, 0x40]

/-- The state of which that image was saved (P4, "State after GEN 200"). -/
def p4State : State :=
  { small 16 1 32 Variant.ti with
    toneReg := #v[0, 0, 1], toneCounter := #v[1013, 1013, 1], toneOut := #v[true, true, false]
    noiseReg := 7, noiseCounter := 1, noiseShift := 0x0100, volume := #v[15, 15, 15, 0]
    latchedChannel := 3, latchedType := .volume, clockDivider := 8, clockCounter := 0x4020000000000000
    bufferPos := 12 }

/-! ## WellFormed: an ill-formed term for each check -/

/-- R6: each parameter below 1 and above 2^32 - 1. -/
theorem test_wf_parameters :
    (Transaction.construct 0 48000 1024 Variant.sega).wf = false ∧
    (Transaction.construct 4294967296 48000 1024 Variant.sega).wf = false ∧
    (Transaction.construct 3579545 0 1024 Variant.sega).wf = false ∧
    (Transaction.construct 3579545 4294967296 1024 Variant.sega).wf = false ∧
    (Transaction.construct 3579545 48000 0 Variant.sega).wf = false ∧
    (Transaction.construct 3579545 48000 4294967296 Variant.sega).wf = false ∧
    (Transaction.construct 3579545 48000 1024 Variant.sega).wf = true ∧
    (Transaction.construct 4294967295 1 4294967295 Variant.ti).wf = true := by decide

/-- R28: each condition on a variant. -/
theorem test_wf_variant :
    (Transaction.construct 1 1 1 { Variant.sega with lfsrBits := 14 }).wf = false ∧
    (Transaction.construct 1 1 1 { Variant.sega with lfsrBits := 17 }).wf = false ∧
    (Transaction.construct 1 1 1 { Variant.sega with toneZeroValue := 2 }).wf = false ∧
    (Transaction.construct 1 1 1 { Variant.sega with whiteTaps := 0x10001 }).wf = false ∧
    (Transaction.construct 1 1 1 { Variant.ti with whiteTaps := 0x8001 }).wf = false ∧
    (Transaction.construct 1 1 1 { Variant.sega with whiteTaps := 0x0008 }).wf = false ∧
    (Transaction.construct 1 1 1 { Variant.sega with whiteTaps := 0x8001 }).wf = true := by decide

/-- D24: the clock counts. -/
theorem test_wf_clockCount :
    (Transaction.run (-1)).wf = false ∧ (Transaction.run 4294967296).wf = false ∧
    (Transaction.generateSamples (-1)).wf = false ∧ (Transaction.generateSamples 4294967296).wf = false ∧
    (Transaction.run 0).wf = true ∧ (Transaction.generateSamples 4294967295).wf = true := by decide

/-- R110: the channel indices. -/
theorem test_wf_channel :
    (Transaction.channelBuffer (-1)).wf = false ∧ (Transaction.channelBuffer 4).wf = false ∧
    (Transaction.toneRegister (-1)).wf = false ∧ (Transaction.toneRegister 3).wf = false ∧
    (Transaction.volumeRegister (-1)).wf = false ∧ (Transaction.volumeRegister 4).wf = false ∧
    (Transaction.channelBuffer 3).wf = true ∧ (Transaction.toneRegister 2).wf = true := by decide

/-- D14: infinities and NaNs are no gains; the largest finite value and the least subnormal are. -/
theorem test_wf_gain :
    (Transaction.setGain 0x7F800000).wf = false ∧ (Transaction.setGain 0xFF800000).wf = false ∧
    (Transaction.setGain 0x7FC00000).wf = false ∧ (Transaction.setGain 0x7F7FFFFF).wf = true ∧
    (Transaction.setGain 0x00000001).wf = true := by decide

/-- D25. -/
theorem test_wf_secondAgent : Transaction.secondAgent.wf = false := by decide

/-- R54, R55: assembler operands one past their ranges. -/
theorem test_wf_assembler :
    (AsmLine.latchT0 16).wf = false ∧ (AsmLine.latchN 16).wf = false ∧ (AsmLine.latchV3 16).wf = false ∧
    (AsmLine.data 64).wf = false ∧ (AsmLine.dataX 64).wf = false ∧ (AsmLine.run 4294967296).wf = false ∧
    (AsmLine.gain 0x7F800000).wf = false ∧ (AsmLine.tone 3 0).wf = false ∧ (AsmLine.tone 0 1024).wf = false ∧
    (AsmLine.noise 2 0).wf = false ∧ (AsmLine.noise 0 4).wf = false ∧ (AsmLine.vol 4 0).wf = false ∧
    (AsmLine.vol 0 16).wf = false ∧ (AsmLine.tone 2 1023).wf = true := by decide

/-- R52: there is no ill-formed command to refuse: every byte decodes to a well-formed one. -/
theorem test_wf_commands : ∀ b : Byte, (decodeByte b).wf = true := by decide

/-! ## Decoding: each form, its byte written out from 30_encoding.md -/

theorem test_decode_latchT0 : decodeByte 0b10001010 = .latchT0 0b1010 := by decide
theorem test_decode_latchT1 : decodeByte 0b10100111 = .latchT1 0b0111 := by decide
theorem test_decode_latchT2 : decodeByte 0b11000101 = .latchT2 0b0101 := by decide
theorem test_decode_latchN : decodeByte 0b11101111 = .latchN 0b1111 := by decide
theorem test_decode_latchV0 : decodeByte 0b10011010 = .latchV0 0b1010 := by decide
theorem test_decode_latchV1 : decodeByte 0b10110100 = .latchV1 0b0100 := by decide
theorem test_decode_latchV2 : decodeByte 0b11011001 = .latchV2 0b1001 := by decide
theorem test_decode_latchV3 : decodeByte 0b11110011 = .latchV3 0b0011 := by decide
theorem test_decode_data : decodeByte 0b00010010 = .data false 0b010010 := by decide
theorem test_decode_dataX : decodeByte 0b01111110 = .data true 0b111110 := by decide

/-- The end of a byte stream is the one rejection. -/
theorem test_decode_end : decode [] = .error .endOfStream ∧ decodeTableWord 8 0x84 = some (.latchT0 4) := by decide

/-! ## The nine commands (95_test_vectors.md 2.1) -/

theorem test_latchT0 : (afterBytes [0x84] sega).toneReg = #v[0x004, 0, 0] ∧
    (afterBytes [0x84] sega).latchedType = .toneOrNoise := by decide
theorem test_data_high : (afterBytes [0x84, 0x3F] sega).toneReg = #v[0x3F4, 0, 0] := by decide
theorem test_data_bit6 : (afterBytes [0x8F, 0x7F] sega).toneReg = #v[0x3FF, 0, 0] := by decide
theorem test_latchT1 : (afterBytes [0xA7, 0x12, 0x3F] sega).toneReg = #v[0, 0x3F7, 0] ∧
    (afterBytes [0xA7] sega).latchedChannel = 1 := by decide
theorem test_latchT2 : (afterBytes [0xC5, 0x10, 0xE3] sega).toneReg = #v[0, 0, 0x105] ∧
    (afterBytes [0xC5, 0x10, 0xE3] sega).noiseReg = 3 := by decide
theorem test_latchN : (afterBytes [0xEF] sega).noiseReg = 7 ∧ (afterBytes [0xEF] sega).latchedChannel = 3 := by decide
theorem test_latchN_restarts : (afterBytes [0xEF] { sega with noiseShift := 0x0100 }).noiseShift = 0x8000 ∧
    (afterBytes [0xE7] { ti with noiseShift := 0x0100 }).noiseShift = 0x4000 := by decide
theorem test_latchV0 : (afterBytes [0x9A, 0x05] sega).volume = #v[10, 15, 15, 15] ∧
    (afterBytes [0x9A, 0x05] sega).toneReg = #v[0, 0, 0] := by decide
theorem test_latchV1 : (afterBytes [0xB4] sega).volume = #v[15, 4, 15, 15] ∧
    (afterBytes [0xB4] sega).latchedType = .volume := by decide
theorem test_latchV2 : (afterBytes [0xD9, 0x80] sega).volume = #v[15, 15, 9, 15] ∧
    (afterBytes [0xD9, 0x80] sega).latchedChannel = 0 := by decide
theorem test_latchV3 : (afterBytes [0xF3] sega).volume = #v[15, 15, 15, 3] ∧
    (afterBytes [0xF3] { sega with noiseShift := 0x0100 }).noiseShift = 0x0100 := by decide

/-- A fetched word runs as the very next step, ahead of whatever is pending. -/
theorem test_withFetchWord :
    ∃ t : State, step ({ State.reset with pending := [.clock] }.withFetchWord 8 0x84) = .next t ∧
      t.toneReg = #v[0x004, 0, 0] ∧ t.pending = [.clock] := ⟨_, rfl, by decide, by decide⟩

/-! ## Ticks (95_test_vectors.md 2.2, 2.3) -/

/-- The sixteenth clock ticks: register 0 reloads 1 (Sega) or 1024 (TI), and the output toggles. -/
theorem test_tick_reload :
    (after .clock { sega with clockDivider := 15 }).toneCounter[0] = 1 ∧
    (after .clock { sega with clockDivider := 15 }).toneOut[0] = true ∧
    (after .clock { ti with clockDivider := 15 }).toneCounter[0] = 1024 ∧
    (after .clock { sega with clockDivider := 14 }).toneCounter[0] = 0 ∧
    (after .clock { sega with clockDivider := 14 }).clockDivider = 15 := by decide

/-- Rising edges of 2.3's last rows: the state before, and what the edge leaves. -/
theorem test_noise_edges :
    (internalTick { sega with noiseShift := 0x0008, noiseReg := 4 }).noiseShift = 0x8004 ∧
    (internalTick { ti with noiseShift := 0x0002, noiseReg := 4 }).noiseShift = 0x4001 ∧
    (internalTick { sega with noiseShift := 0x0001 }).noiseOut = true ∧
    (internalTick { sega with noiseShift := 0x0001 }).noiseShift = 0x8000 ∧
    (internalTick { sega with noiseShift := 0x0001, noiseReg := 4 }).noiseShift = 0x8000 := by decide

/-- The reload values by rate, and rate 3's slaving to tone 2. -/
theorem test_noise_reloads :
    (internalTick { sega with noiseReg := 0 }).noiseCounter = 0x10 ∧
    (internalTick { sega with noiseReg := 1 }).noiseCounter = 0x20 ∧
    (internalTick { sega with noiseReg := 2 }).noiseCounter = 0x40 ∧
    (internalTick { sega with noiseReg := 3, toneReg := #v[0, 0, 0x105] }).noiseCounter = 261 ∧
    (internalTick { ti with noiseReg := 3 }).noiseCounter = 1024 := by decide

/-! ## Mixer (95_test_vectors.md 2.4) -/

theorem test_sample_values :
    sampleValue (allHigh #v[0, 0, 0, 0]) = 0x40800000 ∧ sampleValue (allHigh #v[1, 2, 3, 4]) = 0x4014C5EB ∧
    sampleValue { allHigh #v[15, 15, 15, 15] with gain := 0xBF800000 } = 0x80000000 ∧
    sampleValue { allHigh #v[0, 15, 15, 15] with gain := 0x3DCCCCCD } = 0x3DCCCCCD := by decide +kernel

/-! ## Resampler and buffers (95_test_vectors.md 2.5) -/

theorem test_clocks_per_sample : clocksPerSample Config.standard = 0x4052A4BA06D3A06D := by decide +kernel

/-- cf 3, sr 2: the accumulator at 1.0 reaches 2.0 and emits, and 0.5 stays. -/
theorem test_sample_clock :
    (sampleClock { small 3 2 4 Variant.sega with clockCounter := 0x3FF0000000000000 }).1.clockCounter =
      0x3FE0000000000000 ∧
    (sampleClock { small 3 2 4 Variant.sega with clockCounter := 0x3FF0000000000000 }).1.bufferPos = 1 := by
  decide +kernel

/-- A full buffer drops the emission. -/
theorem test_run_drops :
    (after (.run 1) { small 1 1 2 Variant.sega with bufferPos := 2 }).result = .dropped 1 := by decide +kernel

/-! ## Snapshot (95_test_vectors.md 2.6, P4) -/

theorem test_serialize :
    (after (.serialize (List.replicate 40 0)) ti).result = .saved tiImage ∧
    (after (.serialize (List.replicate 40 0xFF)) p4State).result = .saved p4Image := by decide

/-- Every element of the image is restored, and `buffer_pos` is 0. -/
theorem test_deserialize :
    after (.deserialize p4Image) (small 16 1 32 Variant.ti) = { p4State with bufferPos := 0 } := by decide +kernel

/-- The first failure is reported: length, then version, then the lowest field. -/
theorem test_deserialize_errors :
    imageError Variant.ti (List.replicate 39 2) = some .bufferTooSmall ∧
    imageError Variant.ti ((p4Image.set 19 0).set 20 0 |>.set 0 2) = some (.unsupportedVersion 2) ∧
    imageError Variant.ti ((p4Image.set 19 0).set 20 0 |>.set 21 4) = some (.invalidState 19) ∧
    imageError Variant.ti (p4Image.set 28 16) = some (.invalidState 28) := by decide

/-! ## Witnesses: the hypotheses of each statement, met by a concrete state and operands -/

/-- A pending write that decodes, and a queue of one. -/
theorem test_witness_StepRunsTheDecodedCommand :
    ({ sega with pending := [.write 0x84, .clock] } : State).pending = .write 0x84 :: [.clock] ∧
    decode [0x84, 0x3F] = .ok (.latchT0 4, [0x3F]) := by decide

theorem test_witness_StepTakesTheOldestTransaction :
    ({ sega with pending := [.clock, .sample] } : State).pending = .clock :: [.sample] ∧ sega.pending = [] := by decide

theorem test_witness_EachStepConsumesOneTransaction :
    ({ sega with pending := [.reset, .clock] } : State).pending = .reset :: [.clock] ∧
    ∃ s' : State, step { sega with pending := [.reset, .clock] } = .next s' := ⟨rfl, _, rfl⟩

theorem test_witness_ToneLatchSetsLowNibbleAndLatch : (1 : Fin 3) ≠ 0 ∧ (0 : Fin 3) ≠ 2 := by decide

theorem test_witness_NoiseLatchSetsRegisterAndRestartsLfsr : sega.config.variant.legal ∧ ti.config.variant.legal := by
  decide

theorem test_witness_VolumeLatchSetsVolumeAndLatch : (3 : Fin 4) ≠ 0 ∧ (0 : Fin 4) ≠ 3 := by decide

/-- One state for each clause: a volume latch, the tone channels at both ends, the noise channel. -/
theorem test_witness_DataByteActsOnTheLatchedRegister :
    (afterBytes [0x9A] sega).latchedType = .volume ∧
    (sega.latchedType = .toneOrNoise ∧ sega.latchedChannel.val = (0 : Fin 3).val) ∧
    ((afterBytes [0xC5] sega).latchedType = .toneOrNoise ∧
      (afterBytes [0xC5] sega).latchedChannel.val = (2 : Fin 3).val) ∧
    ((afterBytes [0xE3] sega).latchedType = .toneOrNoise ∧ (afterBytes [0xE3] sega).latchedChannel.val = 3) := by decide

/-- Bytes of each clause: T = 1; T = 0 of the tone channels at both ends; T = 0 of the noise channel. -/
theorem test_witness_FormatLByteSelectsByItsFields :
    ((0x9A : Byte).getLsbD 7 = true ∧ (0x9A : Byte).toNat / 16 % 2 = 1) ∧
    ((0x84 : Byte).getLsbD 7 = true ∧ (0x84 : Byte).toNat / 16 % 2 = 0 ∧ (0x84 : Byte).toNat / 32 % 4 ≠ 3) ∧
    ((0xC5 : Byte).getLsbD 7 = true ∧ (0xC5 : Byte).toNat / 16 % 2 = 0 ∧ (0xC5 : Byte).toNat / 32 % 4 ≠ 3) ∧
    ((0xE3 : Byte).getLsbD 7 = true ∧ (0xE3 : Byte).toNat / 16 % 2 = 0 ∧ (0xE3 : Byte).toNat / 32 % 4 = 3) := by decide

/-- Different operands with equal low bits, under each latch. -/
theorem test_witness_IgnoredBitsHaveNoEffect :
    ((0xF : BitVec 4).toNat % 8 = (0x7 : BitVec 4).toNat % 8) ∧
    ((afterBytes [0xE3] sega).latchedType = .toneOrNoise ∧ (afterBytes [0xE3] sega).latchedChannel.val = 3 ∧
      (0x3B : BitVec 6).toNat % 8 = (0x03 : BitVec 6).toNat % 8) ∧
    (afterBytes [0x9A] sega).latchedType = .volume := by decide

theorem test_witness_PseudoInstructionsSetTheirRegister : 1023 ≤ 1023 ∧ 1 ≤ 1 ∧ 3 ≤ 3 ∧ 15 ≤ 15 := by decide

theorem test_witness_SixteenClocksMakeOneTick :
    sega.clockDivider.toNat + 15 < 16 ∧ ({ sega with clockDivider := 15 } : State).clockDivider.toNat + 0 < 16 := by
  decide

theorem test_witness_ClocksChangeOnlyTheirElements : 4294967295 ≤ 2 ^ 32 - 1 := by decide

/-- Counters 2, 1 and 0: the boundary of the two clauses. -/
theorem test_witness_ToneStepCountsDownThenReloads :
    ti.config.variant.legal ∧
    1 < ({ ti with toneCounter := #v[2, 0, 0] } : State).toneCounter[(0 : Fin 3)].toNat ∧
    ({ ti with toneCounter := #v[1, 0, 0] } : State).toneCounter[(0 : Fin 3)].toNat ≤ 1 ∧
    ti.toneCounter[(2 : Fin 3)].toNat ≤ 1 := by decide

/-- After a tick the counters hold their reload values: Sega 1, TI 1024. -/
theorem test_witness_TonePeriodLaw :
    (sega.config.variant.legal ∧ (internalTick sega).toneCounter[(0 : Fin 3)].toNat =
      reloadNumber sega.config.variant (internalTick sega).toneReg[(0 : Fin 3)]) ∧
    (ti.config.variant.legal ∧ (internalTick ti).toneCounter[(2 : Fin 3)].toNat =
      reloadNumber ti.config.variant (internalTick ti).toneReg[(2 : Fin 3)]) := by decide

theorem test_witness_ToneWriteWaitsForTheReload :
    (internalTick ti).config.variant.legal ∧
    (∃ t : State, perform (.write 0x84) (internalTick ti) = .next t) ∧
    1 ≤ (internalTick ti).toneCounter[(0 : Fin 3)].toNat := ⟨by decide, ⟨_, rfl⟩, by decide⟩

theorem test_witness_CountersAreAtLeastOneAfterATick : sega.config.variant.legal := by decide

/-- Counter 2; counter 1 on a falling and on a rising edge. -/
theorem test_witness_NoiseStepFollowsItsCounter :
    sega.config.variant.legal ∧
    1 < ({ sega with noiseCounter := 2 } : State).noiseCounter.toNat ∧
    (({ sega with noiseCounter := 1, noiseToggle := true } : State).noiseCounter.toNat ≤ 1 ∧
      ({ sega with noiseCounter := 1, noiseToggle := true } : State).noiseToggle = true) ∧
    (sega.noiseCounter.toNat ≤ 1 ∧ sega.noiseToggle = false) := by decide

/-- After the first tick: a rising edge, and the counter at its reload value, on rate 0 and on TI's rate 3. -/
theorem test_witness_NoiseShiftsEveryTwoReloads :
    (sega.config.variant.legal ∧ (internalTick sega).noiseToggle = true ∧
      (internalTick sega).noiseCounter.toNat = noiseReloadNumber (internalTick sega)) ∧
    ((internalTick { ti with noiseReg := 3 }).noiseToggle = true ∧
      (internalTick { ti with noiseReg := 3 }).noiseCounter.toNat =
        noiseReloadNumber (internalTick { ti with noiseReg := 3 })) := by decide

theorem test_witness_LfsrShiftPutsFeedbackInTheTopBit :
    (Variant.sega.legal ∧ (0xFFFF : BitVec 16).toNat < 2 ^ Variant.sega.lfsrBits) ∧
    (Variant.ti.legal ∧ (0x7FFF : BitVec 16).toNat < 2 ^ Variant.ti.lfsrBits) := by decide

theorem test_witness_PeriodicNoiseRepeatsEveryNShifts :
    Variant.ti.legal ∧ (0x4000 : BitVec 16).toNat < 2 ^ Variant.ti.lfsrBits := by decide

/-- LOW outputs, and HIGH outputs at volume 15. -/
theorem test_witness_SilentSampleIsAZero :
    (gainLegal sega.gain ∧ ∀ c : Fin 4, outputBit sega c = false ∨ sega.volume[c] = 15) ∧
    (∀ c : Fin 4, outputBit (allHigh #v[15, 15, 15, 15]) c = true ∧ (allHigh #v[15, 15, 15, 15]).volume[c] = 15) := by
  decide

theorem test_witness_FullScaleSampleIsFourTimesTheGain :
    ∀ c : Fin 4, outputBit (allHigh #v[0, 0, 0, 0]) c = true ∧ (allHigh #v[0, 0, 0, 0]).volume[c] = 0 := by decide

theorem test_witness_MixIsUnipolar : gainLegal State.reset.gain ∧ State.reset.gain.getLsbD 31 = false := by decide

theorem test_witness_GainIsStoredBitForBit :
    f32Finite 0x7F7FFFFF = true ∧ f32Finite 0x80000000 = true ∧ f32Finite 0x7F800000 = false := by decide

theorem test_witness_RoundingIsToNearestEven : 0 < 3 ∧ 1 ≤ infMag binary32 ∧ infMag binary64 ≤ infMag binary64 := by
  decide

/-- 1.0, 2.0 and 0.5, whose results are finite, for each operation. -/
theorem test_witness_FloatOperationsAreNearest :
    (f32Finite 0x3F800000 = true ∧ f32Finite 0x40000000 = true ∧ f32Finite 0x3F000000 = true ∧
      f32Finite (f32add 0x3F800000 0x40000000) = true ∧ f32Finite (f32mul 0x3F800000 0x40000000) = true) ∧
    (f64Finite 0x3FF0000000000000 = true ∧ f64Finite 0x4000000000000000 = true ∧
      f64Finite (f64add 0x3FF0000000000000 0x4000000000000000) = true ∧
      f64Finite (f64sub 0x3FF0000000000000 0x4000000000000000) = true ∧
      f64Finite (f64div 0x3FF0000000000000 0x4000000000000000) = true ∧
      units binary64 (0x4000000000000000 : F64).toNat ≠ 0) := by decide +kernel

/-- Both clauses: cf 1, sr 1 emits at the first clock; cf 64, sr 4 does not. -/
theorem test_witness_SampleClockAdvancesThenEmits :
    f64ge (f64add (small 1 1 4 Variant.sega).clockCounter 0x3FF0000000000000)
      (clocksPerSample (small 1 1 4 Variant.sega).config) = true ∧
    f64ge (f64add (small 64 4 4 Variant.sega).clockCounter 0x3FF0000000000000)
      (clocksPerSample (small 64 4 4 Variant.sega).config) = false := by decide +kernel

/-- The last free element, and a full buffer. -/
theorem test_witness_EmissionAppendsOrDrops :
    ({ small 1 1 4 Variant.sega with bufferPos := 3 } : State).BuffersLegal ∧
    ({ small 1 1 4 Variant.sega with bufferPos := 3 } : State).bufferPos < 4 ∧
    4 ≤ ({ small 1 1 4 Variant.sega with bufferPos := 4 } : State).bufferPos := by decide

theorem test_witness_SplitRunsEqualOneRun : 4294967295 + 0 ≤ 2 ^ 32 - 1 := by decide

theorem test_witness_RunFillsThenDrops :
    (small 1 1 2 Variant.sega).BuffersLegal ∧ (small 1 1 2 Variant.sega).bufferPos ≤ 2 ∧
    (∃ t : State, perform (.run (0 : Nat)) (small 1 1 2 Variant.sega) = .next t ∧ t.result = .dropped 0) ∧
    0 < (runClocks 1 { small 1 1 2 Variant.sega with bufferPos := 2 }).2 :=
  ⟨by decide, by decide, ⟨_, rfl, rfl⟩, by decide +kernel⟩

theorem test_witness_GenerateSamplesIsResetThenRun :
    (0 ≤ (0 : Int) ∧ (0 : Int) ≤ 4294967295) ∧ (0 ≤ (4294967295 : Int) ∧ (4294967295 : Int) ≤ 4294967295) ∧
    (-1 : Int) < 0 ∧ (4294967295 : Int) < 4294967296 := by decide

theorem test_witness_ChannelBufferReturnsTheValidElements :
    0 < p4State.bufferPos ∧ (-1 : Int) < 0 ∧ (3 : Int) < 4 := by decide

theorem test_witness_MixedBufferRecomputesTheValidElements : p4State.BuffersLegal ∧ 11 < p4State.bufferPos ∧
    p4State.bufferPos ≤ 12 := by decide

theorem test_witness_MixedElementIsTheSampleAtEmission :
    p4State.BuffersLegal ∧ p4State.bufferPos < p4State.config.bufferCapacity := by decide

theorem test_witness_IntegerRatioEmitsEveryKthClock :
    (small 64 4 4 Variant.sega).config.legal ∧
    (small 64 4 4 Variant.sega).config.clockFreq = 16 * (small 64 4 4 Variant.sega).config.sampleRate ∧
    (small 64 4 4 Variant.sega).clockCounter = 0 := by decide

theorem test_witness_UpsamplingEmitsOnceEveryClock :
    (small 1 2 4 Variant.sega).config.legal ∧ (small 1 2 4 Variant.sega).NumbersLegal ∧
    (small 1 2 4 Variant.sega).config.clockFreq ≤ (small 1 2 4 Variant.sega).config.sampleRate := by decide

theorem test_witness_ConstantAccessorsReturnTheirValues :
    sega.config.clockFreq = 3579545 ∧ sega.config.sampleRate = 48000 := by decide

theorem test_witness_SerializeWritesTheImage :
    (List.replicate 39 (0 : Byte)).length < 40 ∧ 40 ≤ (List.replicate 40 (0 : Byte)).length := by decide

theorem test_witness_SavedStateLoadsBack :
    p4State.RegistersLegal ∧ p4State.NumbersLegal ∧ ti.config.variant = p4State.config.variant ∧
    40 ≤ tiImage.length := by decide +kernel

/-- A short buffer, a wrong version, a first failing field at 19, and an image that is legal throughout. -/
theorem test_witness_DeserializeReportsTheFirstFailure :
    (List.replicate 39 (0 : Byte)).length < 40 ∧
    (40 ≤ (p4Image.set 0 2).length ∧ memRead (p4Image.set 0 2) 0 1 ≠ 1) ∧
    (40 ≤ ((p4Image.set 19 0).set 20 0).length ∧ memRead ((p4Image.set 19 0).set 20 0) 0 1 = 1 ∧
      ¬ FieldLegal Variant.ti ((p4Image.set 19 0).set 20 0) 19 ∧
      ∀ o : Nat, o < 19 → FieldLegal Variant.ti ((p4Image.set 19 0).set 20 0) o) ∧
    ((small 16 1 32 Variant.ti).config.variant.legal ∧ 40 ≤ p4Image.length ∧ memRead p4Image 0 1 = 1 ∧
      ∀ o : Nat, FieldLegal (small 16 1 32 Variant.ti).config.variant p4Image o) := by
  refine ⟨by decide, by decide, ⟨by decide, by decide, ?_, ?_⟩, by decide, by decide, by decide, ?_⟩
  · rintro ⟨h, -⟩; exact absurd h (by decide)
  · intro o ho
    interval_cases o <;> first | exact trivial | (simp only [FieldLegal]; decide)
  · intro o
    unfold FieldLegal
    split <;> first | exact trivial | decide +kernel

theorem test_witness_IntrospectionReturnsRegistersOrFaults : (-1 : Int) < 0 ∧ (2 : Int) < 3 ∧ (3 : Int) < 4 := by decide

theorem test_witness_ReadsChangeNothing :
    (Transaction.serialize tiImage).isRead = true ∧ ∃ s' : State, perform (.serialize tiImage) p4State = .next s' :=
  ⟨rfl, _, rfl⟩

/-- A `serialize` into an empty buffer. -/
theorem test_witness_ErrorsChangeNothing :
    ({ sega with pending := [.serialize []] } : State).pending = .serialize [] :: [] ∧
    ∃ s' : State, step { sega with pending := [.serialize []] } = .next s' ∧ s'.result = .failed .bufferTooSmall [] :=
  ⟨rfl, _, rfl, rfl⟩

/-- Transactions of each kind: one that completes, one that faults, one that is refused. -/
theorem test_witness_TransactionsStopExactlyWhereTheRulesSay :
    (Transaction.toneRegister 2).wf = true ∧ (Transaction.toneRegister 3).indexLegal = false ∧
    ((Transaction.run (-1)).wf = false ∧ (Transaction.run (-1)).indexLegal = true) ∧
    ({ sega with pending := [.toneRegister 3] } : State).pending = .toneRegister 3 :: [] := by decide

theorem test_witness_ConstructionGivesTheDefaults :
    (parameterLegal 1 ∧ parameterLegal 4294967295 ∧ parameterLegal 1024 ∧ Variant.ti.legal) ∧
    ¬ (parameterLegal 0 ∧ parameterLegal 4294967295 ∧ parameterLegal 1024 ∧ Variant.ti.legal) ∧
    ¬ (parameterLegal 1 ∧ parameterLegal 1 ∧ parameterLegal 1 ∧ Variant.legal { Variant.ti with lfsrBits := 17 }) := by
  decide

/-- `reset()` pending: neither a construction nor a `set_gain`, and it loads. -/
theorem test_witness_ConfigurationAndGainSurvive :
    ({ p4State with pending := [.reset] } : State).pending = .reset :: [] ∧
    (∃ s' : State, step { p4State with pending := [.reset] } = .next s') ∧
    (∀ (cf sr cap : Int) (v : Variant), Transaction.reset ≠ .construct cf sr cap v) ∧
    (∀ g : F32, Transaction.reset ≠ .setGain g) ∧ Transaction.reset.isLoad = true :=
  ⟨rfl, ⟨_, rfl⟩, by simp, by simp, rfl⟩

/-- `sample()` pending meets every clause's premise. -/
theorem test_witness_OnlyTheListedWritersWrite :
    ({ p4State with pending := [.sample] } : State).pending = .sample :: [] ∧
    (∃ s' : State, step { p4State with pending := [.sample] } = .next s') ∧
    Transaction.sample.isLoad = false ∧ Transaction.sample.isWrite = false ∧ Transaction.sample.isClock = false ∧
    Transaction.sample ≠ .resetBuffer ∧ Transaction.sample ≠ .mixedBuffer :=
  ⟨rfl, ⟨_, rfl⟩, rfl, rfl, rfl, by simp, by simp⟩

theorem test_witness_RegistersStayLegal :
    ({ p4State with pending := [.clock] } : State).RegistersLegal ∧
    ∃ s' : State, step { p4State with pending := [.clock] } = .next s' := ⟨by decide, _, rfl⟩

theorem test_witness_BuffersStayLegal :
    (small 1 1 2 Variant.sega).RegistersLegal ∧
    ({ small 1 1 2 Variant.sega with chBuf := #v[[(0, 0x3F800000)], [], [], []], bufferPos := 1 } : State).BuffersLegal ∧
    ({ small 1 1 2 Variant.sega with chBuf := #v[[(0, 0x3F800000)], [], [], []], bufferPos := 1 } : State).LevelsOnly ∧
    ∃ s' : State, step { small 1 1 2 Variant.sega with pending := [.mixedBuffer] } = .next s' :=
  ⟨by decide, by decide, by decide, _, rfl⟩

theorem test_witness_NumbersStayLegal :
    p4State.config.legal ∧ p4State.NumbersLegal ∧
    ∃ s' : State, step { p4State with pending := [.run 1] } = .next s' := ⟨by decide, by decide +kernel, _, rfl⟩

end Sys2Proof.Tests
end

section
/-! The queue of host transactions (00_scope.md R11, 20_memory.md R42): which transaction a step performs, and that no
transaction touches the ones behind it. -/

namespace Sys2Proof.Machine

/-! ## What a step takes from the queue -/

/-- R117: with nothing pending the block holds its state. -/
theorem step_of_pending_nil {s : State} (h : s.pending = []) : step s = .next s := by
  simp [step, takeTransaction, h]

/-- R11, R42: the oldest transaction runs on the state from which it has been taken. -/
theorem step_of_pending_cons {s : State} {t : Transaction} {rest : List Transaction} (h : s.pending = t :: rest) :
    step s = perform t (s.accept rest) := by
  simp [step, takeTransaction, h]

/-- A step that completes with `t` at the head of the queue performed `t`. -/
theorem performed_of_step {s s' : State} {t : Transaction} {rest : List Transaction} (h : s.pending = t :: rest)
    (hs : step s = .next s') : Performed t (s.accept rest) s' :=
  performed_of_next (step_of_pending_cons h ▸ hs)

/-! ## The queue is no element that a transaction writes -/

theorem CommandEffect.pending {s t : State} (h : CommandEffect s t) : t.pending = s.pending :=
  h.frame State.pending setLatch_pending setToneReg_pending setNoiseReg_pending setVolume_pending

@[simp] theorem runClocks_pending (n : Nat) (s : State) : (runClocks n s).1.pending = s.pending :=
  (congrArg State.pending (withRun_runClocks n s)).symm

@[simp] theorem resetBuffer_pending (s : State) : (resetBuffer s).pending = s.pending := rfl

/-- No transaction changes the queue, not even a construction: the host stays the same (log entry 4). -/
theorem Performed.pending {t : Transaction} {s s' : State} (h : Performed t s s') : s'.pending = s.pending := by
  cases h with
  | write h => exact h.pending
  | clock => exact clockStep_pending s
  | run _ => simp
  | generateSamples _ => simp
  | construct _ | resetBuffer | reset | setGain _ | mixedBuffer | load _ | raise _ | ret _ _ => rfl

/-! ## The statements -/

/-- Settles O3: what a transaction does leaves the queue from which it has been taken. -/
theorem eachStepConsumesOneTransaction : Obligations.EachStepConsumesOneTransaction := by
  intro s s' t rest hp hs
  calc s'.pending = (s.accept rest).pending := (performed_of_step hp hs).pending
    _ = rest := accept_pending s rest

/-- Settles O2, by the two forms a queue can have. -/
theorem stepTakesTheOldestTransaction : Obligations.StepTakesTheOldestTransaction :=
  fun _ => ⟨fun _ _ => step_of_pending_cons, step_of_pending_nil⟩

end Sys2Proof.Machine
end

section
/-! The ranges of the counters, the LFSR and `buffer_pos` (10_state.md R18, R20, R21, R26, R31): every reload and every
shift lands in range, so no step leaves it. -/

namespace Sys2Proof.Machine

/-! ## The LFSR -/

/-- R21: `x` is a value the LFSR of variant `v` can hold. -/
abbrev lfsrLegal (v : Variant) (x : BitVec 16) : Prop := 1 ≤ x.toNat ∧ x.toNat ≤ 2 ^ v.lfsrBits - 1

/-- The top bit of the LFSR fits its 16 bits. -/
theorem topBit_toNat {v : Variant} (hv : v.legal) : (1#16 <<< feedbackShift v).toNat = 2 ^ (v.lfsrBits - 1) := by
  unfold feedbackShift
  rcases hv.1 with h | h <;> rw [h] <;> rfl

theorem lfsrInitial_toNat {v : Variant} (hv : v.legal) : (lfsrInitial v).toNat = 2 ^ (v.lfsrBits - 1) :=
  topBit_toNat hv

theorem two_pow_lfsrBits {v : Variant} (hv : v.legal) : 2 ^ v.lfsrBits = 2 * 2 ^ (v.lfsrBits - 1) := by
  rcases hv.1 with h | h <;> rw [h] <;> rfl

theorem lfsrInitial_legal {v : Variant} (hv : v.legal) : lfsrLegal v (lfsrInitial v) := by
  have hpos := Nat.two_pow_pos (v.lfsrBits - 1)
  rw [lfsrLegal, lfsrInitial_toNat hv, two_pow_lfsrBits hv]
  omega

/-- The one value that a shift by one empties feeds a bit back: R28 makes `white_taps` odd. -/
theorem feedbackBit_one {v : Variant} (hv : v.legal) (white : Bool) : feedbackBit v white 1#16 = true := by
  obtain ⟨-, -, -, hodd⟩ := hv
  cases white with
  | false => rfl
  | true =>
    have htap : 1#16 &&& BitVec.ofNat 16 v.whiteTaps = 1#16 := by
      apply BitVec.eq_of_toNat_eq
      rw [BitVec.toNat_and, BitVec.toNat_ofNat, BitVec.toNat_ofNat, Nat.one_mod, Nat.one_and_eq_mod_two]
      omega
    show parity (1#16 &&& BitVec.ofNat 16 v.whiteTaps) = true
    rw [htap]
    rfl

/-- R78, R31: a shift stays within the N bits and never reaches 0. -/
theorem lfsrShift_legal {v : Variant} (hv : v.legal) (white : Bool) {x : BitVec 16} (hx : lfsrLegal v x) :
    lfsrLegal v (lfsrShift v white x) := by
  obtain ⟨hpos, hle⟩ := hx
  have htop := topBit_toNat hv
  have hN := two_pow_lfsrBits hv
  have hN1 := Nat.two_pow_pos (v.lfsrBits - 1)
  unfold lfsrShift lfsrLegal
  rw [BitVec.toNat_or, BitVec.toNat_ushiftRight, Nat.shiftRight_one]
  constructor
  · by_cases h1 : x.toNat = 1
    · have hx1 : x = 1#16 := BitVec.eq_of_toNat_eq h1
      subst hx1
      rw [feedbackBit_one hv, if_pos rfl, htop]
      exact le_trans hN1 Nat.right_le_or
    · exact le_trans (by omega) Nat.left_le_or
  · have hlow : x.toNat / 2 < 2 ^ v.lfsrBits := by omega
    have hfed : (if feedbackBit v white x then 1#16 <<< feedbackShift v else 0).toNat < 2 ^ v.lfsrBits := by
      split
      · omega
      · exact Nat.two_pow_pos _
    have := Nat.or_lt_two_pow hlow hfed
    omega

/-! ## The generators' next values -/

/-- R18: no tone counter is 0 after a tick. -/
theorem toneCounterNext_pos {s : State} (hv : s.config.variant.legal) (i : Fin 3) :
    1 ≤ (toneCounterNext s i).toNat := by
  unfold toneCounterNext
  split
  · rw [toneReload, reloadFromTone_toNat hv]
    exact reloadNumber_pos hv _
  · rw [countDown_toNat]
    omega

theorem toneCounterNext_le {s : State} (hv : s.config.variant.legal) {i : Fin 3}
    (h : s.toneCounter[i].toNat ≤ counterBound s.config.variant) :
    (toneCounterNext s i).toNat ≤ counterBound s.config.variant := by
  unfold toneCounterNext
  split
  · rw [toneReload, reloadFromTone_toNat hv]
    exact reloadNumber_le _
  · rw [countDown_toNat]
    omega

/-- R72, R73: the noise counter counts down, or reloads when it runs out. -/
theorem noiseStep_noiseCounter {s : State} (hv : s.config.variant.legal) :
    (noiseStep s).noiseCounter.toNat =
      if s.noiseCounter.toNat ≤ 1 then noiseReloadNumber s else s.noiseCounter.toNat - 1 := by
  rcases noiseStep_cases s with ⟨hc, h⟩ | ⟨hc, -, h⟩ | ⟨hc, -, h⟩
  · rw [h, if_neg (by omega), countDown_toNat]
  · rw [h, if_pos hc, noiseReload_toNat hv]
  · rw [h, if_pos hc, noiseReload_toNat hv]

/-- R20: the noise counter is not 0 after a tick. -/
theorem noiseStep_noiseCounter_pos {s : State} (hv : s.config.variant.legal) :
    1 ≤ (noiseStep s).noiseCounter.toNat := by
  have := noiseReloadNumber_pos hv
  rw [noiseStep_noiseCounter hv]
  split <;> omega

theorem noiseStep_noiseCounter_le {s : State} (hv : s.config.variant.legal)
    (h : s.noiseCounter.toNat ≤ counterBound s.config.variant) :
    (noiseStep s).noiseCounter.toNat ≤ counterBound s.config.variant := by
  have := noiseReloadNumber_le s
  rw [noiseStep_noiseCounter hv]
  split <;> omega

theorem noiseStep_lfsrLegal {s : State} (hv : s.config.variant.legal) (h : lfsrLegal s.config.variant s.noiseShift) :
    lfsrLegal s.config.variant (noiseStep s).noiseShift := by
  rcases noiseStep_cases s with ⟨-, he⟩ | ⟨-, -, he⟩ | ⟨-, -, he⟩
  · rw [he]; exact h
  · rw [he]; exact h
  · rw [he]; exact lfsrShift_legal hv _ h

/-- Settles O20, by the counter each generator's step leaves. -/
theorem countersAreAtLeastOneAfterATick : Obligations.CountersAreAtLeastOneAfterATick := by
  intro s hv
  refine ⟨fun i => ?_, ?_⟩
  · rw [(internalTick_tone s i).1]
    exact toneCounterNext_pos hv i
  · rw [(internalTick_noise s).1]
    exact noiseStep_noiseCounter_pos hv

/-! ## Clocks keep the registers legal -/

/-- R6, R28: the variant of a legal configuration is legal. -/
theorem variant_legal {c : Config} (h : c.legal) : c.variant.legal := h.2.2.2

theorem internalTick_registersLegal {s : State} (h : s.RegistersLegal) : (internalTick s).RegistersLegal := by
  obtain ⟨hcfg, htone, hnoise, hpos, hle, hbuf⟩ := h
  have hv := variant_legal hcfg
  obtain ⟨hpos', hle'⟩ := noiseStep_lfsrLegal hv ⟨hpos, hle⟩
  refine ⟨hcfg, fun i => ?_, noiseStep_noiseCounter_le hv hnoise, hpos', hle', hbuf⟩
  rw [(internalTick_tone s i).1]
  exact toneCounterNext_le hv (htone i)

theorem clockStep_registersLegal {s : State} (h : s.RegistersLegal) : (clockStep s).RegistersLegal := by
  rcases clockStep_cases s with ⟨-, he⟩ | ⟨-, he⟩
  · rw [he]; exact internalTick_registersLegal h
  · rw [he]; exact h

/-- R88: an emission moves `buffer_pos` only below the capacity. -/
theorem emit_registersLegal {s : State} (h : s.RegistersLegal) : (emit s).1.RegistersLegal := by
  rcases emit_cases s with ⟨hlt, he⟩ | ⟨-, he⟩
  · obtain ⟨hcfg, htone, hnoise, hpos, hle, -⟩ := h
    rw [he]
    exact ⟨hcfg, htone, hnoise, hpos, hle, hlt⟩
  · rw [he]; exact h

theorem sampleClock_registersLegal {s : State} (h : s.RegistersLegal) : (sampleClock s).1.RegistersLegal := by
  have hclocked : (clockedState s).RegistersLegal := clockStep_registersLegal h
  rcases sampleClock_cases s with ⟨-, he⟩ | ⟨-, he⟩
  · rw [he]; exact emit_registersLegal hclocked
  · rw [he]; exact hclocked

theorem runClocks_registersLegal {s : State} (h : s.RegistersLegal) (n : Nat) :
    (runClocks n s).1.RegistersLegal :=
  runClocks_keeps (P := State.RegistersLegal) (fun _ => sampleClock_registersLegal) n s h

theorem resetBuffer_registersLegal {s : State} (h : s.RegistersLegal) : (resetBuffer s).RegistersLegal := by
  obtain ⟨hcfg, htone, hnoise, hpos, hle, -⟩ := h
  exact ⟨hcfg, htone, hnoise, hpos, hle, Nat.zero_le _⟩

/-! ## Commands, loads, construction and reset -/

/-- The register file, the latch and the LFSR taken from `t`, all other elements from `s`. -/
def withRegisters (s t : State) : State :=
  { s with
    toneReg := t.toneReg, noiseReg := t.noiseReg, noiseShift := t.noiseShift, volume := t.volume
    latchedChannel := t.latchedChannel, latchedType := t.latchedType }

/-- R33: a command changes only the register file, the latch and the LFSR. -/
theorem CommandEffect.withRegisters_eq {s t : State} (h : CommandEffect s t) : withRegisters s t = t := by
  cases h <;> rfl

/-- R60, R65: of the elements with a range, a command writes the LFSR alone, to its initial value. -/
theorem CommandEffect.registersLegal {s t : State} (he : CommandEffect s t) (h : s.RegistersLegal) :
    t.RegistersLegal := by
  obtain ⟨hcfg, htone, hnoise, hpos, hle, hbuf⟩ := h
  have hshift : lfsrLegal s.config.variant t.noiseShift := by
    rcases he.noiseShift with h | h <;> rw [h]
    · exact ⟨hpos, hle⟩
    · exact lfsrInitial_legal (variant_legal hcfg)
  rw [← he.withRegisters_eq]
  exact ⟨hcfg, htone, hnoise, hshift.1, hshift.2, hbuf⟩

/-- R102: what the checks of an image say of the elements with a range. -/
theorem ranges_of_imageChecks {v : Variant} {buf : List Byte} (h : ∀ c ∈ imageChecks v buf, c.2 = true) :
    (memRead buf 7 2 ≤ counterBound v ∧ memRead buf 9 2 ≤ counterBound v ∧ memRead buf 11 2 ≤ counterBound v) ∧
    memRead buf 17 2 ≤ counterBound v ∧
    (1 ≤ memRead buf 19 2 ∧ memRead buf 19 2 ≤ 2 ^ v.lfsrBits - 1) ∧
    counterImageLegal buf = true := by
  simp only [imageChecks, List.forall_mem_cons, decide_eq_true_eq] at h
  obtain ⟨-, -, -, h7, h9, h11, -, -, -, -, h17, h19, -, -, -, -, -, -, -, -, h32, -⟩ := h
  exact ⟨⟨h7, h9, h11⟩, h17, h19, h32⟩

theorem toNat_ofNat_le (w n : Nat) : (BitVec.ofNat w n).toNat ≤ n := by
  rw [BitVec.toNat_ofNat]
  exact Nat.mod_le _ _

/-- R103: the elements of an image that R102 accepts are in range. -/
theorem loadImage_registersLegal {s : State} {buf : List Byte} (hi : imageError s.config.variant buf = none)
    (hcfg : s.config.legal) : (loadImage buf s).RegistersLegal := by
  obtain ⟨-, -, hchecks⟩ := imageError_eq_none hi
  obtain ⟨⟨h7, h9, h11⟩, h17, ⟨hpos, hle⟩, -⟩ := ranges_of_imageChecks hchecks
  have hshift : (loadImage buf s).noiseShift.toNat = memRead buf 19 2 :=
    (BitVec.toNat_ofNat _ _).trans (Nat.mod_eq_of_lt (memRead_lt buf 19 2))
  refine ⟨hcfg, fun i => ?_, (toNat_ofNat_le _ _).trans h17, hshift ▸ hpos, hshift ▸ hle, Nat.zero_le _⟩
  match i with
  | 0 => exact (toNat_ofNat_le _ _).trans h7
  | 1 => exact (toNat_ofNat_le _ _).trans h9
  | 2 => exact (toNat_ofNat_le _ _).trans h11

/-- R119. -/
theorem resetState_registersLegal {s : State} (hcfg : s.config.legal) : (resetState s).RegistersLegal := by
  obtain ⟨hpos, hle⟩ := lfsrInitial_legal (variant_legal hcfg)
  refine ⟨hcfg, fun i => ?_, Nat.zero_le _, hpos, hle, Nat.zero_le _⟩
  have : (resetState s).toneCounter[i] = 0 := by simp [resetState]
  rw [this]
  exact Nat.zero_le _

/-- R118: a construction gives the defaults of a reset. -/
theorem constructed_registersLegal {c : Config} (hcfg : c.legal) : (State.constructed c).RegistersLegal :=
  resetState_registersLegal (s := State.constructed c) hcfg

/-- R6: the parameters of an accepted construction are a legal configuration. -/
theorem config_legal_of_parameters {cf sr cap : Int} {v : Variant}
    (h : parameterLegal cf ∧ parameterLegal sr ∧ parameterLegal cap ∧ v.legal) :
    Config.legal { clockFreq := cf.toNat, sampleRate := sr.toNat, bufferCapacity := cap.toNat, variant := v } := by
  obtain ⟨hcf, hsr, hcap, hv⟩ := h
  exact ⟨by simp; omega, by simp; omega, by simp; omega, hv⟩

/-! ## The invariant -/

theorem Performed.registersLegal {t : Transaction} {s s' : State} (hp : Performed t s s') (h : s.RegistersLegal) :
    s'.RegistersLegal := by
  cases hp with
  | construct hpar => exact constructed_registersLegal (config_legal_of_parameters hpar)
  | write he => exact he.registersLegal h
  | clock => exact clockStep_registersLegal h
  | run _ => exact runClocks_registersLegal h _
  | generateSamples _ => exact runClocks_registersLegal (resetBuffer_registersLegal h) _
  | resetBuffer => exact resetBuffer_registersLegal h
  | reset => exact resetState_registersLegal h.1
  | load hi => exact loadImage_registersLegal hi h.1
  | setGain _ | mixedBuffer | raise _ | ret _ _ => exact h

/-- Settles O57: a step that performs a transaction keeps what the transaction keeps. -/
theorem registersStayLegal : Obligations.RegistersStayLegal := by
  intro s s' h hs
  rcases step_cases hs with ⟨-, rfl⟩ | ⟨t, rest, -, hp⟩
  · exact h
  · exact hp.registersLegal h

end Sys2Proof.Machine
end

section
/-! Which transactions write which element (10_state.md R29, R30): one lemma per element or group of elements with the
same writers. -/

namespace Sys2Proof.Machine

/-! ## What a run leaves -/

@[simp] theorem runClocks_gain (n : Nat) (s : State) : (runClocks n s).1.gain = s.gain :=
  (congrArg State.gain (withRun_runClocks n s)).symm
@[simp] theorem runClocks_toneReg (n : Nat) (s : State) : (runClocks n s).1.toneReg = s.toneReg :=
  (congrArg State.toneReg (withRun_runClocks n s)).symm
@[simp] theorem runClocks_noiseReg (n : Nat) (s : State) : (runClocks n s).1.noiseReg = s.noiseReg :=
  (congrArg State.noiseReg (withRun_runClocks n s)).symm
@[simp] theorem runClocks_volume (n : Nat) (s : State) : (runClocks n s).1.volume = s.volume :=
  (congrArg State.volume (withRun_runClocks n s)).symm
@[simp] theorem runClocks_latchedChannel (n : Nat) (s : State) :
    (runClocks n s).1.latchedChannel = s.latchedChannel :=
  (congrArg State.latchedChannel (withRun_runClocks n s)).symm
@[simp] theorem runClocks_latchedType (n : Nat) (s : State) : (runClocks n s).1.latchedType = s.latchedType :=
  (congrArg State.latchedType (withRun_runClocks n s)).symm
@[simp] theorem runClocks_mixBuf (n : Nat) (s : State) : (runClocks n s).1.mixBuf = s.mixBuf :=
  (congrArg State.mixBuf (withRun_runClocks n s)).symm

/-! ## What `reset_buffer` leaves -/

@[simp] theorem resetBuffer_config (s : State) : (resetBuffer s).config = s.config := rfl
@[simp] theorem resetBuffer_gain (s : State) : (resetBuffer s).gain = s.gain := rfl
@[simp] theorem resetBuffer_toneReg (s : State) : (resetBuffer s).toneReg = s.toneReg := rfl
@[simp] theorem resetBuffer_noiseReg (s : State) : (resetBuffer s).noiseReg = s.noiseReg := rfl
@[simp] theorem resetBuffer_volume (s : State) : (resetBuffer s).volume = s.volume := rfl
@[simp] theorem resetBuffer_latchedChannel (s : State) : (resetBuffer s).latchedChannel = s.latchedChannel := rfl
@[simp] theorem resetBuffer_latchedType (s : State) : (resetBuffer s).latchedType = s.latchedType := rfl
@[simp] theorem resetBuffer_mixBuf (s : State) : (resetBuffer s).mixBuf = s.mixBuf := rfl

namespace Performed

variable {t : Transaction} {s s' : State}

/-! ## Configuration, gain and the buffers (R29, R119, R103) -/

/-- R29: the configuration is written by a construction alone. -/
theorem config (hp : Performed t s s') (hc : ∀ (cf sr cap : Int) (v : Variant), t ≠ .construct cf sr cap v) :
    s'.config = s.config := by
  cases hp with
  | construct _ => exact absurd rfl (hc _ _ _ _)
  | write he => rw [← he.withRegisters_eq]; rfl
  | clock => simp
  | run _ | generateSamples _ => simp
  | resetBuffer | reset | setGain _ | mixedBuffer | load _ | raise _ | ret _ _ => rfl

/-- R9: the gain is written by a construction and `set_gain` alone. -/
theorem gain (hp : Performed t s s') (hc : ∀ (cf sr cap : Int) (v : Variant), t ≠ .construct cf sr cap v)
    (hg : ∀ g : F32, t ≠ .setGain g) : s'.gain = s.gain := by
  cases hp with
  | construct _ => exact absurd rfl (hc _ _ _ _)
  | setGain _ => exact absurd rfl (hg _)
  | write he => rw [← he.withRegisters_eq]; rfl
  | clock => simp
  | run _ | generateSamples _ => simp
  | resetBuffer | reset | mixedBuffer | load _ | raise _ | ret _ _ => rfl

/-- R119, R103: `reset()` and `deserialize` leave the contents of the buffers. -/
theorem buffers_of_isLoad (hp : Performed t s s')
    (hc : ∀ (cf sr cap : Int) (v : Variant), t ≠ .construct cf sr cap v) (hl : t.isLoad = true) :
    s'.chBuf = s.chBuf ∧ s'.mixBuf = s.mixBuf := by
  cases hp with
  | construct _ => exact absurd rfl (hc _ _ _ _)
  | write _ | clock | run _ | generateSamples _ | resetBuffer | setGain _ | mixedBuffer => cases hl
  | reset | load _ | raise _ | ret _ _ => exact ⟨rfl, rfl⟩

/-! ## R30's writers -/

/-- R14 to R17: the register file and the latch are written by a command byte alone. -/
theorem registers (hp : Performed t s s') (hl : t.isLoad = false) (hw : t.isWrite = false) :
    s'.toneReg = s.toneReg ∧ s'.noiseReg = s.noiseReg ∧ s'.volume = s.volume ∧
      s'.latchedChannel = s.latchedChannel ∧ s'.latchedType = s.latchedType := by
  cases hp with
  | construct _ | reset | load _ => cases hl
  | write _ => cases hw
  | clock => simp
  | run _ | generateSamples _ => simp
  | resetBuffer | setGain _ | mixedBuffer | raise _ | ret _ _ => exact ⟨rfl, rfl, rfl, rfl, rfl⟩

/-- R18 to R20, R22 to R24: the counters, outputs, toggle and divider are written by input clocks alone. -/
theorem generators (hp : Performed t s s') (hl : t.isLoad = false) (hk : t.isClock = false) :
    s'.toneCounter = s.toneCounter ∧ s'.toneOut = s.toneOut ∧ s'.noiseCounter = s.noiseCounter ∧
      s'.noiseToggle = s.noiseToggle ∧ s'.noiseOut = s.noiseOut ∧ s'.clockDivider = s.clockDivider := by
  cases hp with
  | construct _ | reset | load _ => cases hl
  | write he => rw [← he.withRegisters_eq]; exact ⟨rfl, rfl, rfl, rfl, rfl, rfl⟩
  | clock | run _ | generateSamples _ => cases hk
  | resetBuffer | setGain _ | mixedBuffer | raise _ | ret _ _ => exact ⟨rfl, rfl, rfl, rfl, rfl, rfl⟩

/-- R21: the LFSR is written by command bytes and input clocks alone. -/
theorem noiseShift (hp : Performed t s s') (hl : t.isLoad = false) (hw : t.isWrite = false)
    (hk : t.isClock = false) : s'.noiseShift = s.noiseShift := by
  cases hp with
  | construct _ | reset | load _ => cases hl
  | write _ => cases hw
  | clock | run _ | generateSamples _ => cases hk
  | resetBuffer | setGain _ | mixedBuffer | raise _ | ret _ _ => rfl

/-- R25, R27: the accumulator and the channel buffers are written by `run` and `generate_samples` alone (D8). -/
theorem resampler (hp : Performed t s s') (hl : t.isLoad = false) (hk : t.isClock = false ∨ t = .clock) :
    s'.clockCounter = s.clockCounter ∧ s'.chBuf = s.chBuf := by
  cases hp with
  | construct _ | reset | load _ => cases hl
  | write he => rw [← he.withRegisters_eq]; exact ⟨rfl, rfl⟩
  | clock => simp
  | run _ | generateSamples _ => rcases hk with hk | hk <;> cases hk
  | resetBuffer | setGain _ | mixedBuffer | raise _ | ret _ _ => exact ⟨rfl, rfl⟩

/-- R26: `buffer_pos` is written by `run`, `generate_samples` and `reset_buffer` alone. -/
theorem bufferPos (hp : Performed t s s') (hl : t.isLoad = false) (hk : t.isClock = false ∨ t = .clock)
    (hb : t ≠ .resetBuffer) : s'.bufferPos = s.bufferPos := by
  cases hp with
  | construct _ | reset | load _ => cases hl
  | write he => rw [← he.withRegisters_eq]; rfl
  | clock => simp
  | run _ | generateSamples _ => rcases hk with hk | hk <;> cases hk
  | resetBuffer => exact absurd rfl hb
  | setGain _ | mixedBuffer | raise _ | ret _ _ => rfl

/-- R27, R93: `mix_buf` is written by its accessor alone. -/
theorem mixBuf (hp : Performed t s s') (hl : t.isLoad = false) (hm : t ≠ .mixedBuffer) : s'.mixBuf = s.mixBuf := by
  cases hp with
  | construct _ | reset | load _ => cases hl
  | write he => rw [← he.withRegisters_eq]; rfl
  | clock => simp
  | run _ | generateSamples _ => simp
  | mixedBuffer => exact absurd rfl hm
  | resetBuffer | setGain _ | raise _ | ret _ _ => rfl

end Performed

/-! ## The statements -/

/-- Settles O54: the writers of the configuration, of the gain and of the buffers. -/
theorem configurationAndGainSurvive : Obligations.ConfigurationAndGainSurvive := by
  intro s s' t rest hpend hs hc
  have hp := performed_of_step hpend hs
  exact ⟨hp.config hc, hp.gain hc, hp.buffers_of_isLoad hc⟩

/-- Settles O55: the writers of each group of elements. -/
theorem onlyTheListedWritersWrite : Obligations.OnlyTheListedWritersWrite := by
  intro s s' t rest hpend hs hl
  have hp := performed_of_step hpend hs
  exact ⟨hp.registers hl, hp.generators hl, hp.noiseShift hl, hp.resampler hl, hp.bufferPos hl, hp.mixBuf hl⟩

end Sys2Proof.Machine
end

section
/-! The sample buffers stay canonical, within the capacity, and the channel buffers hold levels (10_state.md R27,
44_resampler.md R88, R93). -/

namespace Sys2Proof.Machine

/-! ## One write -/

theorem bufferLegal_nil (cap : Nat) : bufferLegal cap [] := ⟨Memory.wf_nil, by simp⟩

theorem bufferLegal_write {cap k : Nat} {m : Memory} (h : bufferLegal cap m) (hk : k < cap) (v : F32) :
    bufferLegal cap (Memory.write m k v) := by
  refine ⟨Memory.wf_write h.1 k v, fun c hc => ?_⟩
  rcases Memory.mem_write hc with hm | ⟨rfl, -⟩
  · exact h.2 c hm
  · exact hk

/-- R83: a level is an amplitude or +0.0, which is the table's last entry. -/
theorem level_mem_volumeTable (s : State) (c : Fin 4) : level s c ∈ volumeTable.toList := by
  unfold level
  split
  · exact Vector.mem_toList_iff.2 (Vector.getElem_mem _)
  · decide

/-! ## The five buffers -/

/-- R27, R88: what every step keeps of the five buffers. -/
abbrev State.SamplesLegal (s : State) : Prop := s.BuffersLegal ∧ s.LevelsOnly

/-- Only the configuration and the buffers themselves matter. -/
theorem samplesLegal_congr {s t : State} (hc : t.config = s.config) (hch : t.chBuf = s.chBuf)
    (hm : t.mixBuf = s.mixBuf) (h : s.SamplesLegal) : t.SamplesLegal := by
  rw [State.SamplesLegal, State.BuffersLegal, State.LevelsOnly, hc, hch, hm]
  exact h

/-- R88: an emission writes its levels below the capacity, or nothing. -/
theorem emit_samplesLegal {s : State} (h : s.SamplesLegal) : (emit s).1.SamplesLegal := by
  rcases emit_cases s with ⟨hlt, he⟩ | ⟨-, he⟩ <;> rw [he]
  · obtain ⟨⟨hch, hmix⟩, hlev⟩ := h
    refine ⟨⟨fun c => ?_, hmix⟩, fun c cell hcell => ?_⟩
    · rw [writeLevels_get]
      exact bufferLegal_write (hch c) hlt _
    · rw [writeLevels_get] at hcell
      rcases Memory.mem_write hcell with hm | ⟨rfl, -⟩
      · exact hlev c cell hm
      · exact level_mem_volumeTable s c
  · exact h

theorem sampleClock_samplesLegal {s : State} (h : s.SamplesLegal) : (sampleClock s).1.SamplesLegal := by
  have hclocked : (clockedState s).SamplesLegal :=
    samplesLegal_congr (clockStep_config s) (clockStep_chBuf s) (clockStep_mixBuf s) h
  rcases sampleClock_cases s with ⟨-, he⟩ | ⟨-, he⟩ <;> rw [he]
  · exact emit_samplesLegal hclocked
  · exact hclocked

theorem runClocks_samplesLegal {s : State} (h : s.SamplesLegal) (n : Nat) : (runClocks n s).1.SamplesLegal :=
  runClocks_keeps (P := State.SamplesLegal) (fun _ => sampleClock_samplesLegal) n s h

/-- R93: the mixed buffer computed anew below the capacity. -/
theorem mixedBelow_bufferLegal {s : State} {cap n : Nat} (h : bufferLegal cap s.mixBuf) (hn : n ≤ cap) :
    bufferLegal cap (mixedBelow s n) := by
  induction n with
  | zero => exact h
  | succ n ih => exact bufferLegal_write (ih (by omega)) hn _

/-- R118: the buffers are empty after a construction. -/
theorem constructed_samplesLegal (c : Config) : (State.constructed c).SamplesLegal := by
  have hch (i : Fin 4) : (State.constructed c).chBuf[i] = [] := by simp [State.constructed]
  refine ⟨⟨fun i => ?_, bufferLegal_nil _⟩, fun i => ?_⟩ <;> rw [hch i]
  · exact bufferLegal_nil _
  · simp

/-! ## The invariant -/

theorem Performed.samplesLegal {t : Transaction} {s s' : State} (hp : Performed t s s')
    (hpos : s.bufferPos ≤ s.config.bufferCapacity) (h : s.SamplesLegal) : s'.SamplesLegal := by
  cases hp with
  | construct _ => exact constructed_samplesLegal _
  | write he => rw [← he.withRegisters_eq]; exact h
  | clock => exact samplesLegal_congr (clockStep_config s) (clockStep_chBuf s) (clockStep_mixBuf s) h
  | run _ => exact runClocks_samplesLegal h _
  | generateSamples _ => exact runClocks_samplesLegal (s := Machine.resetBuffer s) h _
  | mixedBuffer =>
    obtain ⟨⟨hch, hmix⟩, hlev⟩ := h
    exact ⟨⟨hch, mixedBelow_bufferLegal hmix hpos⟩, hlev⟩
  | resetBuffer | reset | setGain _ | load _ | raise _ | ret _ _ => exact h

/-- Settles O58: the clause of `RegistersLegal` that matters is the one on `buffer_pos`. -/
theorem buffersStayLegal : Obligations.BuffersStayLegal := by
  intro s s' hreg hbuf hlev hs
  obtain ⟨-, -, -, -, -, hpos⟩ := hreg
  rcases step_cases hs with ⟨-, rfl⟩ | ⟨t, rest, -, hp⟩
  · exact ⟨hbuf, hlev⟩
  · exact hp.samplesLegal hpos ⟨hbuf, hlev⟩

end Sys2Proof.Machine
end

section
/-! The accumulator and the gain stay finite (10_state.md R25, 43_mixer_volume.md R85): the accumulator's addition never
reaches infinity, and its subtraction takes away no more than there is. -/

namespace Sys2Proof.Machine

/-! ## Finite values that are not less than 0 -/

/-- R25: what the accumulator can hold. -/
abbrev accumulatorLegal (x : F64) : Prop := f64Finite x = true ∧ f64ge x 0 = true

theorem accumulatorLegal_iff {x : F64} : accumulatorLegal x ↔ f64Finite x = true ∧ 0 ≤ units binary64 x.toNat := by
  refine and_congr_right fun hx => ?_
  have hzero : units binary64 (0 : F64).toNat = 0 := by decide +kernel
  rw [f64ge, geBits_of_finite hx (by decide), hzero, decide_eq_true_eq]

/-- The value of a pattern that is not less than 0 is that of its magnitude. -/
theorem units_of_nonneg {f : FloatFormat} {x : Nat} (h : 0 ≤ units f x) :
    units f x = magUnits f (magnitude f x) := by
  unfold units at *
  split
  · rw [if_pos ‹_›] at h; omega
  · rfl

/-- A packed binary64 fits its 64 bits. -/
theorem toNat_ofNat_packFloat (neg : Bool) {m : Nat} (h : m < signWeight binary64) :
    (BitVec.ofNat 64 (packFloat binary64 neg m)).toNat = packFloat binary64 neg m :=
  (BitVec.toNat_ofNat _ _).trans (Nat.mod_eq_of_lt (packFloat_lt binary64 neg h))

/-- A magnitude is the pattern of its own positive value. -/
theorem toNat_ofNat_of_lt_signWeight {m : Nat} (h : m < signWeight binary64) : (BitVec.ofNat 64 m).toNat = m :=
  toNat_ofNat_packFloat false h

/-- A finite magnitude with a positive sign, or a zero, is a legal accumulator. -/
theorem accumulatorLegal_packFloat {neg : Bool} {m : Nat} (hm : m < infMag binary64) (hneg : neg = true → m = 0) :
    accumulatorLegal (BitVec.ofNat 64 (packFloat binary64 neg m)) := by
  have hw : m < signWeight binary64 := hm.trans (infMag_lt_signWeight _)
  rw [accumulatorLegal_iff, f64Finite, toNat_ofNat_packFloat neg hw, isFinite, magnitude_packFloat _ neg hw,
    decide_eq_true_eq, units_packFloat _ neg hw]
  refine ⟨hm, ?_⟩
  cases neg with
  | false => simp
  | true => simp [hneg rfl]

/-! ## Bounds on a rounding -/

/-- Rounding a quotient of at most a magnitude's value gives at most that magnitude. -/
theorem roundUnits_le_of_le_mul {f : FloatFormat} {num den m : Nat} (hd : 0 < den) (hm : m ≤ infMag f)
    (h : num ≤ magUnits f m * den) : roundUnits f num den ≤ m :=
  (roundUnits_mono f h).trans (roundUnits_exact f hd hm).le

/-- And of at least a magnitude's value, at least that magnitude. -/
theorem le_roundUnits_of_mul_le {f : FloatFormat} {num den m : Nat} (hd : 0 < den) (hm : m ≤ infMag f)
    (h : magUnits f m * den ≤ num) : m ≤ roundUnits f num den :=
  (roundUnits_exact f hd hm).ge.trans (roundUnits_mono f h)

/-- A finite sum that is not less than 0, and does not round to infinity, is a legal accumulator. -/
theorem accumulatorLegal_addBits {x y : Nat} (hx : isFinite binary64 x = true) (hy : isFinite binary64 y = true)
    (nan : Nat) (hpos : 0 ≤ units binary64 x + units binary64 y)
    (hlt : roundUnits binary64 (units binary64 x + units binary64 y).natAbs 1 < infMag binary64) :
    accumulatorLegal (BitVec.ofNat 64 (addBits binary64 nan x y)) := by
  rw [addBits_of_finite hx hy]
  split
  · exact accumulatorLegal_packFloat (by decide) fun _ => rfl
  · refine accumulatorLegal_packFloat hlt fun hneg => ?_
    rw [decide_eq_true_eq] at hneg
    omega

/-! ## The accumulator's addition and subtraction (R87) -/

/-- The value of 1.0, in units. -/
theorem magUnits_f64One : magUnits binary64 f64One.toNat = 2 ^ unitShift binary64 := by decide +kernel

theorem units_f64One : units binary64 f64One.toNat = magUnits binary64 f64One.toNat := by decide +kernel

/-- 1.0 is too little to take the largest finite value to infinity. -/
theorem roundUnits_largest_add_one :
    roundUnits binary64 (magUnits binary64 (infMag binary64 - 1) + magUnits binary64 f64One.toNat) 1 <
      infMag binary64 := by
  decide +kernel

/-- R87: adding 1.0 keeps the accumulator finite and not less than 0. -/
theorem accumulatorLegal_add_one {x : F64} (hx : accumulatorLegal x) : accumulatorLegal (f64add x f64One) := by
  obtain ⟨hfin, hpos⟩ := accumulatorLegal_iff.1 hx
  have hmag : magnitude binary64 x.toNat < infMag binary64 := of_decide_eq_true hfin
  have hval : magUnits binary64 (magnitude binary64 x.toNat) ≤ magUnits binary64 (infMag binary64 - 1) :=
    (magUnits_le_iff binary64).2 (by omega)
  refine accumulatorLegal_addBits hfin (by decide) _ ?_
    (lt_of_le_of_lt (roundUnits_mono _ ?_) roundUnits_largest_add_one)
  · rw [units_f64One]; omega
  · rw [units_f64One, units_of_nonneg hpos]; omega

/-- R87: subtracting what is at most the accumulator leaves it finite and not less than 0. -/
theorem accumulatorLegal_sub {x y : F64} (hx : accumulatorLegal x) (hy : accumulatorLegal y) (hge : f64ge x y = true) :
    accumulatorLegal (f64sub x y) := by
  obtain ⟨hxfin, hxpos⟩ := accumulatorLegal_iff.1 hx
  obtain ⟨hyfin, hypos⟩ := accumulatorLegal_iff.1 hy
  have hmag : magnitude binary64 x.toNat < infMag binary64 := of_decide_eq_true hxfin
  have hle : units binary64 y.toNat ≤ units binary64 x.toNat := by
    simpa [f64ge, geBits_of_finite hxfin hyfin] using hge
  rw [f64sub, subBits_of_finite hyfin]
  refine accumulatorLegal_addBits hxfin (negateBits_isFinite hyfin) _ ?_ (lt_of_le_of_lt ?_ hmag)
  · rw [units_negateBits]; omega
  · refine roundUnits_le_of_le_mul Nat.one_pos hmag.le ?_
    rw [units_negateBits]
    have := units_of_nonneg hxpos
    omega

/-! ## Clocks per sample (R10) -/

/-- The bits of `toF64` are its rounding: its sign is positive. -/
theorem toF64_toNat (n : Nat) : (toF64 n).toNat = roundUnits binary64 (n * 2 ^ unitShift binary64) 1 :=
  toNat_ofNat_of_lt_signWeight (roundUnits_lt_signWeight _ _ _)

/-- D12: a parameter converts to a finite value of at least 1.0. -/
theorem toF64_bounds {n : Nat} (h : parameterLegal n) :
    f64One.toNat ≤ (toF64 n).toNat ∧ (toF64 n).toNat < infMag binary64 := by
  obtain ⟨h1, h2⟩ := h
  rw [toF64_toNat]
  constructor
  · refine le_roundUnits_of_mul_le Nat.one_pos (by decide) ?_
    rw [magUnits_f64One, Nat.mul_one]
    exact Nat.le_mul_of_pos_left _ (by omega)
  · have hmax : roundUnits binary64 (2 ^ 32 * 2 ^ unitShift binary64) 1 < infMag binary64 := by decide +kernel
    exact lt_of_le_of_lt (roundUnits_mono _ (Nat.mul_le_mul_right _ (by omega))) hmax

/-- A pattern below infinity is finite, positive, and its own magnitude. -/
theorem positive_of_lt_infMag {f : FloatFormat} {x : Nat} (h : x < infMag f) :
    isFinite f x = true ∧ isNegative f x = false ∧ magnitude f x = x := by
  have hw := h.trans (infMag_lt_signWeight f)
  have hmag : magnitude f x = x := magnitude_packFloat f false hw
  exact ⟨by simpa [isFinite, hmag] using h, isNegative_packFloat f false hw, hmag⟩

/-- R10: the quotient of two parameters is finite and not less than 0: the divisor is at least 1.0. -/
theorem clocksPerSample_accumulatorLegal {c : Config} (hc : c.legal) : accumulatorLegal (clocksPerSample c) := by
  obtain ⟨hclock, hrate, -⟩ := hc
  obtain ⟨-, hnum⟩ := toF64_bounds hclock
  obtain ⟨hden1, hden⟩ := toF64_bounds hrate
  obtain ⟨hnfin, hnneg, hnmag⟩ := positive_of_lt_infMag hnum
  obtain ⟨hdfin, hdneg, hdmag⟩ := positive_of_lt_infMag hden
  have hone0 : f64One.toNat ≠ 0 := by decide
  have hunits : 2 ^ unitShift binary64 ≤ magUnits binary64 (toF64 c.sampleRate).toNat :=
    magUnits_f64One ▸ (magUnits_le_iff binary64).2 hden1
  rw [clocksPerSample, f64div, divBits_of_finite hnfin hdfin (by omega), hnneg, hdneg, hnmag, hdmag]
  refine accumulatorLegal_packFloat (lt_of_le_of_lt ?_ hnum) (by simp)
  exact roundUnits_le_of_le_mul (lt_of_lt_of_le (Nat.two_pow_pos _) hunits) hnum.le (Nat.mul_le_mul_left _ hunits)

/-! ## The invariant -/

/-- R87: the accumulator after a sample clock, whether it emits or not. -/
theorem counterAfterClock_accumulatorLegal {s : State} (hc : s.config.legal) (h : accumulatorLegal s.clockCounter) :
    accumulatorLegal (counterAfterClock s) := by
  have hadd : accumulatorLegal (counterAfterAdd s) := accumulatorLegal_add_one h
  unfold counterAfterClock
  split
  · exact accumulatorLegal_sub hadd (clocksPerSample_accumulatorLegal hc) ‹_›
  · exact hadd

theorem runClocks_accumulatorLegal {s : State} (hc : s.config.legal) (h : accumulatorLegal s.clockCounter) (n : Nat) :
    accumulatorLegal (runClocks n s).1.clockCounter := by
  refine (runClocks_keeps (P := fun u => u.config.legal ∧ accumulatorLegal u.clockCounter) ?_ n s ⟨hc, h⟩).2
  intro u hu
  rw [sampleClock_config, sampleClock_clockCounter]
  exact ⟨hu.1, counterAfterClock_accumulatorLegal hu.1 hu.2⟩

/-- R119, R118: +0.0. -/
theorem accumulatorLegal_zero : accumulatorLegal 0 := by decide +kernel

/-- R103: R102 has checked the counter of an image that loads. -/
theorem loadImage_accumulatorLegal {s : State} {buf : List Byte} (hi : imageError s.config.variant buf = none) :
    accumulatorLegal (loadImage buf s).clockCounter := by
  obtain ⟨-, -, hchecks⟩ := imageError_eq_none hi
  obtain ⟨-, -, -, h32⟩ := ranges_of_imageChecks hchecks
  exact Bool.and_eq_true_iff.1 h32

theorem Performed.clockCounter_legal {t : Transaction} {s s' : State} (hp : Performed t s s') (hc : s.config.legal)
    (h : accumulatorLegal s.clockCounter) : accumulatorLegal s'.clockCounter := by
  cases hp with
  | construct _ | reset => exact accumulatorLegal_zero
  | write he => rw [← he.withRegisters_eq]; exact h
  | clock => rw [clockStep_clockCounter]; exact h
  | run _ => exact runClocks_accumulatorLegal hc h _
  | generateSamples _ => exact runClocks_accumulatorLegal (s := Machine.resetBuffer s) hc h _
  | load hi => exact loadImage_accumulatorLegal hi
  | resetBuffer | setGain _ | mixedBuffer | raise _ | ret _ _ => exact h

/-- R85, R111: `set_gain` stores finite gains alone, and a construction sets 0.25. -/
theorem Performed.gain_legal {t : Transaction} {s s' : State} (hp : Performed t s s') (h : gainLegal s.gain) :
    gainLegal s'.gain := by
  cases hp with
  | construct _ => show gainLegal 0x3E800000; decide
  | setGain hg => exact hg
  | write he => rw [← he.withRegisters_eq]; exact h
  | clock => rw [clockStep_gain]; exact h
  | run _ | generateSamples _ => simpa using h
  | resetBuffer | reset | mixedBuffer | load _ | raise _ | ret _ _ => exact h

/-- Settles O59: the accumulator and the gain, each by its own writers. -/
theorem numbersStayLegal : Obligations.NumbersStayLegal := by
  intro s s' hc h hs
  rcases step_cases hs with ⟨-, rfl⟩ | ⟨t, rest, -, hp⟩
  · exact h
  · obtain ⟨hfin, hge, hgain⟩ := h
    obtain ⟨hfin', hge'⟩ := hp.clockCounter_legal hc ⟨hfin, hge⟩
    exact ⟨hfin', hge', hp.gain_legal hgain⟩

/-! ## The state after construction -/

/-- R118: the default numbers. -/
theorem constructed_numbersLegal (c : Config) : (State.constructed c).NumbersLegal := by
  obtain ⟨hfin, hge⟩ := accumulatorLegal_zero
  exact ⟨hfin, hge, show gainLegal 0x3E800000 by decide⟩

/-- R6: log entry 2's configuration is one that a construction accepts. -/
theorem config_standard_legal : Config.standard.legal := by decide

/-- Settles O56: the state after any legal construction meets the invariants. -/
theorem resetStateIsLegal : Obligations.ResetStateIsLegal := by
  obtain ⟨hbuf, hlev⟩ := constructed_samplesLegal Config.standard
  exact ⟨constructed_registersLegal config_standard_legal, hbuf, hlev, constructed_numbersLegal _⟩

end Sys2Proof.Machine
end

section
/-! What a write and a read leave alone (20_memory.md R33, R39): a command byte writes the register file, the latch and
the LFSR, and a read writes nothing but the value it returns. -/

namespace Sys2Proof.Machine

/-! ## Reads -/

/-- R39: a read that completes, with a value or with an error, only returns. -/
theorem Performed.eq_ret_of_isRead {t : Transaction} {s s' : State} (hp : Performed t s s') (hr : t.isRead = true) :
    ∃ r : Result, s' = s.ret r := by
  cases hp with
  | ret _ _ | raise _ => exact ⟨_, rfl⟩
  | construct _ | write _ | clock | run _ | generateSamples _ | resetBuffer | reset | setGain _ | mixedBuffer
  | load _ => cases hr

/-- No read looks at what the transaction before it returned, and it puts its own value in that place (log entry 3). -/
theorem perform_ret_of_isRead {t : Transaction} (hr : t.isRead = true) (s : State) (r : Result) :
    perform t (s.ret r) = perform t s := by
  cases t with
  | sample | getGain | clocksPerSample | channelBuffer _ | serializeSize | serialize _ | toneRegister _
  | volumeRegister _ | noiseRegister | noiseShiftRegister | volumeTable => rfl
  | construct _ _ _ _ | write _ | clock | run _ | generateSamples _ | resetBuffer | reset | setGain _ | mixedBuffer
  | deserialize _ | secondAgent => cases hr

/-- Settles O49: the second read starts from the first one's state with only the returned value changed. -/
theorem readsChangeNothing : Obligations.ReadsChangeNothing := by
  intro t s s' hr h
  obtain ⟨r, rfl⟩ := (performed_of_next h).eq_ret_of_isRead hr
  exact ⟨rfl, (perform_ret_of_isRead hr s r).trans h⟩

/-! ## Writes -/

/-- Settles O8: every byte decodes to a command, and `withRegisters` is the frame of a command's effect. -/
theorem everyByteCompletesAndWritesOnlyRegisters : Obligations.EveryByteCompletesAndWritesOnlyRegisters := by
  intro b s
  obtain ⟨t, hexec, heffect⟩ := exec_effect (decodeByte b) s
  have hframe : withRegisters s t = t := heffect.withRegisters_eq
  have hch : t.chBuf = s.chBuf := (congrArg State.chBuf hframe).symm
  have hmix : t.mixBuf = s.mixBuf := (congrArg State.mixBuf hframe).symm
  exact ⟨t, hexec, fun c k => by rw [hch], fun k => by rw [hmix], hframe.symm⟩

end Sys2Proof.Machine
end

section
/-! The command bytes (30_encoding.md R47 to R53): encoding and decoding are inverse, and the opcode map and the ignored
bits follow from what each form's byte is. -/

namespace Sys2Proof.Machine

open Sys2Proof.Laws

/-! ## A command is read back from its byte -/

/-- R51: what is known of each form's byte, for a command of any form. -/
theorem encodeRow_statement (i : Instr) : EncodeRow.Statement i := by
  cases i with
  | latchT0 d => exact EncodeRow.latchT0 d
  | latchV0 d => exact EncodeRow.latchV0 d
  | latchT1 d => exact EncodeRow.latchT1 d
  | latchV1 d => exact EncodeRow.latchV1 d
  | latchT2 d => exact EncodeRow.latchT2 d
  | latchV2 d => exact EncodeRow.latchV2 d
  | latchN d => exact EncodeRow.latchN d
  | latchV3 d => exact EncodeRow.latchV3 d
  | data x d => exact EncodeRow.data x d

@[simp] theorem decodeByte_encode (i : Instr) : decodeByte (encode i) = i := (encodeRow_statement i).2.1

/-- R51: of the rows of the map, a command's byte matches the one of its mnemonic. -/
theorem matches_encode {r : OpcodeRow} (hr : r ∈ opcodeRows) (i : Instr) :
    r.matches (encode i) = decide (r.mnemonic = i.mnemonic) := (encodeRow_statement i).1 r hr

/-! ## A byte is the encoding of what is read from it -/

/-- R48: the eight values of `CC` and `T` are eight different forms. -/
theorem encode_decodeLatch (cc : BitVec 2) (t : Bool) (d : BitVec 4) :
    encode (decodeLatch cc t d) = encodeLatch cc t d := by
  obtain rfl | rfl | rfl | rfl : cc = 0 ∨ cc = 1 ∨ cc = 2 ∨ cc = 3 := by revert cc; decide
  all_goals cases t <;> rfl

/-- R48: a byte with bit 7 set is made of its `CC`, `T` and data fields. -/
theorem encodeLatch_fields {b : Byte} (h : b.getLsbD 7 = true) :
    encodeLatch (b.extractLsb' 5 2) (b.getLsbD 4) (b.extractLsb' 0 4) = b := by
  rw [BitVec.getLsbD_eq_getElem (by decide)] at h
  apply BitVec.eq_of_getLsbD_eq
  intro k hk
  rw [encodeLatch, BitVec.getLsbD_append, BitVec.getLsbD_append, BitVec.getLsbD_append]
  interval_cases k <;> simp [h]

/-- R49: a byte with bit 7 clear is made of its ignored bit and its data field. -/
theorem encodeData_fields {b : Byte} (h : b.getLsbD 7 = false) :
    encodeData (b.getLsbD 6) (b.extractLsb' 0 6) = b := by
  rw [BitVec.getLsbD_eq_getElem (by decide)] at h
  apply BitVec.eq_of_getLsbD_eq
  intro k hk
  rw [encodeData, BitVec.getLsbD_append, BitVec.getLsbD_append]
  interval_cases k <;> simp [h]

/-- R47: by the format, which is bit 7. -/
@[simp] theorem encode_decodeByte (b : Byte) : encode (decodeByte b) = b := by
  cases h : b.getLsbD 7 with
  | true => rw [decodeByte, if_pos h, encode_decodeLatch, encodeLatch_fields h]
  | false => rw [decodeByte, h]; exact encodeData_fields h

/-! ## Streams -/

theorem decodeStream_encodeStream (program : List Instr) : decodeStream (encodeStream program) = program := by
  induction program with
  | nil => rfl
  | cons i rest ih => rw [encodeStream, decodeStream, decodeByte_encode, ih]

theorem encodeStream_decodeStream (bytes : List Byte) : encodeStream (decodeStream bytes) = bytes := by
  induction bytes with
  | nil => rfl
  | cons b rest ih => rw [decodeStream, encodeStream, encode_decodeByte, ih]

/-- Settles O13: every byte stands alone, so the two inverse laws of a byte carry over to streams. -/
theorem commandStreamsRoundTrip : Obligations.CommandStreamsRoundTrip :=
  ⟨decodeStream_encodeStream, encodeStream_decodeStream⟩

/-! ## The opcode map -/

/-- R51: the map names each command form once. -/
theorem rows_of_mnemonic (i : Instr) :
    (opcodeRows.filter fun r => decide (r.mnemonic = i.mnemonic)).map (fun r => r.mnemonic) = [i.mnemonic] := by
  cases i <;> rfl

/-- Settles O11: a byte is the encoding of the command it decodes to, whose byte matches the row of its mnemonic. -/
theorem opcodeRowsPartitionTheBytes : Obligations.OpcodeRowsPartitionTheBytes := by
  intro b
  have hrows (r : OpcodeRow) (hr : r ∈ opcodeRows) :
      r.matches b = decide (r.mnemonic = (decodeByte b).mnemonic) := by
    rw [← matches_encode hr, encode_decodeByte]
  rw [List.filter_congr hrows]
  exact rows_of_mnemonic (decodeByte b)

/-- Settles O12, by computing each of the ten words. -/
theorem specWordsDecode : Obligations.SpecWordsDecode := by
  unfold Obligations.SpecWordsDecode
  decide

/-! ## Ignored bits (R52) -/

/-- R49: no rule reads bit 6 of a data byte. -/
theorem exec_data_ignores_bit6 (x y : Bool) (d : BitVec 6) (s : State) : exec (.data x d) s = exec (.data y d) s := rfl

theorem noiseFromNibble_congr {d e : BitVec 4} (h : d.toNat % 8 = e.toNat % 8) :
    noiseFromNibble d = noiseFromNibble e := by
  apply BitVec.eq_of_toNat_eq
  rw [noiseFromNibble_toNat, noiseFromNibble_toNat, h]

theorem noiseFromData_congr {d e : BitVec 6} (h : d.toNat % 8 = e.toNat % 8) : noiseFromData d = noiseFromData e := by
  apply BitVec.eq_of_toNat_eq
  rw [noiseFromData_toNat, noiseFromData_toNat, h]

theorem exec_latchN (d : BitVec 4) (s : State) :
    exec (.latchN d) s = .next ((s.setLatch 3 .toneOrNoise).setNoiseReg (noiseFromNibble d)) := rfl

theorem exec_data (x : Bool) (d : BitVec 6) (s : State) : exec (.data x d) s = execData x d s := rfl

/-- Settles O10: a noise write takes its operand modulo 8, and a data byte under a VOLUME latch does nothing. -/
theorem ignoredBitsHaveNoEffect : Obligations.IgnoredBitsHaveNoEffect := by
  intro s
  refine ⟨fun b => ?_, fun x y d => exec_data_ignores_bit6 x y d s, fun d e h => ?_, fun ht hc x y d e h => ?_,
    fun ht => execData_volume ht⟩
  · obtain ⟨t, ht, -⟩ := exec_effect (decodeByte b) s
    exact ⟨t, ht⟩
  · rw [exec_latchN, exec_latchN, noiseFromNibble_congr h]
  · rw [exec_data, exec_data, execData_noise ht hc, execData_noise ht hc, noiseFromData_congr h]

end Sys2Proof.Machine
end

section
/-! The pseudo-instructions (30_encoding.md R55), run from the queue: each expands to one or two command bytes. -/

namespace Sys2Proof.Machine

/-! ## The forms by channel -/

theorem latchToneLine_eq (ch : Fin 3) (d : Nat) :
    latchToneLine ch.val d = writeOf (toneLatch ch (BitVec.ofNat 4 d)) := by
  match ch with
  | 0 | 1 | 2 => rfl

theorem latchVolumeLine_eq (ch : Fin 4) (a : Nat) :
    latchVolumeLine ch.val a = writeOf (volumeLatch ch (BitVec.ofNat 4 a)) := by
  match ch with
  | 0 | 1 | 2 | 3 => rfl

/-- R57 to R59. -/
theorem exec_toneLatch (i : Fin 3) (d : BitVec 4) (s : State) : exec (toneLatch i d) s = .next (latchTone i d s) := by
  match i with
  | 0 | 1 | 2 => rfl

/-- R61 to R64. -/
theorem exec_volumeLatch (i : Fin 4) (d : BitVec 4) (s : State) :
    exec (volumeLatch i d) s = .next (latchVolume i d s) := by
  match i with
  | 0 | 1 | 2 | 3 => rfl

/-! ## One register -/

/-- R14: a write of tone register `i` is read back there, and at no other channel. -/
theorem setToneReg_get (s : State) (i j : Fin 3) (v : BitVec 10) :
    (s.setToneReg i v).toneReg[j] = if j = i then v else s.toneReg[j] := by
  rw [setToneReg_toneReg, Fin.getElem_fin, Vector.getElem_set]
  simp only [Fin.val_inj, eq_comm (a := i), Fin.getElem_fin]

/-- R16: likewise of a volume. -/
theorem setVolume_get (s : State) (i j : Fin 4) (v : BitVec 4) :
    (s.setVolume i v).volume[j] = if j = i then v else s.volume[j] := by
  rw [setVolume_volume, Fin.getElem_fin, Vector.getElem_set]
  simp only [Fin.val_inj, eq_comm (a := i), Fin.getElem_fin]

/-- R50: the low nibble, then the high six bits, make the whole register, whatever it held. -/
theorem toneWithHigh_toneWithLow_toNat (r : BitVec 10) {n : Nat} (h : n ≤ 1023) :
    (toneWithHigh (toneWithLow r (BitVec.ofNat 4 (n % 16))) (BitVec.ofNat 6 (n / 16))).toNat = n := by
  rw [toneWithHigh_toNat, toneWithLow_toNat, BitVec.toNat_ofNat, BitVec.toNat_ofNat]
  omega

/-! ## Running an expansion -/

theorem assemble_of_wf {line : AsmLine} (h : line.wf = true) : assemble line = some (expandLine line) := if_pos h

/-- R56: the write of a command runs that command. -/
@[simp] theorem perform_writeOf (i : Instr) (s : State) : perform (writeOf i) s = exec i s :=
  congrArg (exec · s) (decodeByte_encode i)

/-- A run of a machine goes on from where its first step leaves the state. -/
theorem core_run_succ {M : Host.Core} {s t : M.State} (h : M.step s = .next t) (k : Nat) :
    M.run (k + 1) s = M.run k t := by
  rw [Host.Core.run, h]

/-- R42: a run whose next transaction is the write of `i` goes on from where `i` leaves the state. -/
theorem core_run_writeOf {i : Instr} {s t : State} {rest : List Transaction} (hp : s.pending = writeOf i :: rest)
    (h : exec i (s.accept rest) = .next t) (k : Nat) : Sys2Proof.core.run (k + 1) s = Sys2Proof.core.run k t :=
  core_run_succ (M := Sys2Proof.core) ((step_of_pending_cons hp).trans ((perform_writeOf i _).trans h)) k

/-- R65, R56: a data byte after a tone latch form acts on the tone register of that form. -/
theorem exec_data_latchTone (x : Bool) (i : Fin 3) (d : BitVec 4) (e : BitVec 6) (s : State) :
    exec (.data x e) (latchTone i d s) =
      .next ((latchTone i d s).setToneReg i (toneWithHigh (latchTone i d s).toneReg[i] e)) :=
  (exec_data x e _).trans (execData_tone rfl rfl x e)

/-- What TONE does: the low nibble, with the latch, and then the high six bits of the latched register. -/
def afterTone (ch : Fin 3) (n : Nat) (s : State) : State :=
  let u := latchTone ch (BitVec.ofNat 4 (n % 16)) s
  u.setToneReg ch (toneWithHigh u.toneReg[ch] (BitVec.ofNat 6 (n / 16)))

theorem core_run_tone (ch : Fin 3) (n : Nat) (s : State) :
    Sys2Proof.core.run 2 { s with pending := expandLine (.tone ch.val n) } = .next (afterTone ch n (s.accept [])) := by
  rw [expandLine, latchToneLine_eq]
  refine (core_run_writeOf rfl (exec_toneLatch ch _ _) 1).trans ?_
  exact core_run_writeOf rfl (exec_data_latchTone false ch _ _ (s.accept [])) 0

/-- R50: the two writes of TONE leave the whole operand, whatever the register held. -/
theorem afterTone_toneReg (ch j : Fin 3) {n : Nat} (s : State) (h : n ≤ 1023) :
    ((afterTone ch n s).toneReg[j]).toNat = if j = ch then n else s.toneReg[j].toNat := by
  rw [afterTone, setToneReg_get, latchTone, setToneReg_get, setToneReg_get, setLatch_toneReg]
  by_cases hj : j = ch
  · rw [if_pos hj, if_pos hj, if_pos rfl, toneWithHigh_toneWithLow_toNat _ h]
  · rw [if_neg hj, if_neg hj, if_neg hj]

theorem core_run_noise (m r : Nat) (s : State) :
    Sys2Proof.core.run 1 { s with pending := expandLine (.noise m r) } =
      .next (((s.accept []).setLatch 3 .toneOrNoise).setNoiseReg (noiseFromNibble (BitVec.ofNat 4 (4 * m + r)))) :=
  core_run_writeOf rfl (exec_latchN _ _) 0

theorem core_run_vol (ch : Fin 4) (a : Nat) (s : State) :
    Sys2Proof.core.run 1 { s with pending := expandLine (.vol ch.val a) } =
      .next (latchVolume ch (BitVec.ofNat 4 a) (s.accept [])) := by
  rw [expandLine, latchVolumeLine_eq]
  exact core_run_writeOf rfl (exec_volumeLatch ch _ _) 0

/-! ## The statement -/

/-- Settles O14: the state each expansion ends in, and what its register reads there. -/
theorem pseudoInstructionsSetTheirRegister : Obligations.PseudoInstructionsSetTheirRegister := by
  refine ⟨fun ch n s hn => ?tone, fun m r s hm hr => ?noise, fun ch a s ha => ?vol⟩
  case tone =>
    have hwf : (AsmLine.tone ch.val n).wf = true := decide_eq_true ⟨by omega, hn⟩
    have hreg (j : Fin 3) := afterTone_toneReg ch j (s.accept []) hn
    refine ⟨_, _, assemble_of_wf hwf, core_run_tone ch n s, (hreg ch).trans (if_pos rfl), fun j hj => ?_, rfl, rfl⟩
    exact BitVec.eq_of_toNat_eq ((hreg j).trans (if_neg hj))
  case noise =>
    have hwf : (AsmLine.noise m r).wf = true := decide_eq_true ⟨hm, hr⟩
    refine ⟨_, _, assemble_of_wf hwf, core_run_noise m r s, ?_, rfl⟩
    rw [setNoiseReg_noiseReg, noiseFromNibble_toNat, BitVec.toNat_ofNat]
    omega
  case vol =>
    have hwf : (AsmLine.vol ch.val a).wf = true := decide_eq_true ⟨by omega, ha⟩
    have hvol (j : Fin 4) := setVolume_get ((s.accept []).setLatch ch .volume) ch j (BitVec.ofNat 4 a)
    refine ⟨_, _, assemble_of_wf hwf, core_run_vol ch a s, ?_, fun j hj => (hvol j).trans (if_neg hj)⟩
    rw [latchVolume, hvol ch, if_pos rfl, BitVec.toNat_ofNat]
    omega

end Sys2Proof.Machine
end

section
/-! The write port (40_write_port.md R56 to R65): the byte of each command form as a number, the registers each effect
writes, and from these what a step, each command form, and a format L byte read by its fields alone do. -/

namespace Sys2Proof.Machine

/-! ## The byte of a form, as a number -/

/-- R48: `1 CC T DDDD`, with the leading bit and `T` together 0x80 or 0x90. -/
theorem encodeLatch_toNat (cc : BitVec 2) (t : Bool) (d : BitVec 4) :
    (encodeLatch cc t d).toNat = (if t then 0x90 else 0x80) + 0x20 * cc.toNat + d.toNat := by
  revert cc t d
  decide

/-- R49: `0 X DDDDDD`. -/
theorem encode_data_toNat (x : Bool) (d : BitVec 6) :
    (encode (.data x d)).toNat = (if x then 0x40 else 0) + d.toNat := by
  revert x d
  decide

theorem encode_toneLatch_toNat (i : Fin 3) (d : BitVec 4) :
    (encode (toneLatch i d)).toNat = 0x80 + 0x20 * i.val + d.toNat := by
  match i with
  | 0 => exact encodeLatch_toNat 0 false d
  | 1 => exact encodeLatch_toNat 1 false d
  | 2 => exact encodeLatch_toNat 2 false d

theorem encode_latchN_toNat (d : BitVec 4) : (encode (.latchN d)).toNat = 0xE0 + d.toNat :=
  encodeLatch_toNat 3 false d

theorem encode_volumeLatch_toNat (i : Fin 4) (d : BitVec 4) :
    (encode (volumeLatch i d)).toNat = 0x90 + 0x20 * i.val + d.toNat := by
  match i with
  | 0 => exact encodeLatch_toNat 0 true d
  | 1 => exact encodeLatch_toNat 1 true d
  | 2 => exact encodeLatch_toNat 2 true d
  | 3 => exact encodeLatch_toNat 3 true d

/-- R56: the write of the byte numbered `n` runs the command of which it is the byte. -/
theorem perform_write_ofNat {i : Instr} {n : Nat} (h : (encode i).toNat = n) (s : State) :
    perform (.write (BitVec.ofNat 8 n)) s = exec i s := by
  have hbyte : BitVec.ofNat 8 n = encode i := by rw [← h, BitVec.ofNat_toNat, BitVec.setWidth_eq]
  rw [hbyte]
  exact perform_writeOf i s

/-! ## The registers a form writes -/

/-- R57 to R59, R50: the low nibble of one tone register. -/
theorem latchTone_toneReg_toNat (i j : Fin 3) (d : BitVec 4) (s : State) :
    ((latchTone i d s).toneReg[j]).toNat =
      if j = i then 16 * (s.toneReg[j].toNat / 16) + d.toNat else s.toneReg[j].toNat := by
  rw [latchTone, setToneReg_get, setLatch_toneReg]
  split
  case isTrue h => rw [h, toneWithLow_toNat]
  case isFalse => rfl

/-- R61 to R64: one volume. -/
theorem latchVolume_volume (i j : Fin 4) (d : BitVec 4) (s : State) :
    (latchVolume i d s).volume[j] = if j = i then d else s.volume[j] :=
  setVolume_get (s.setLatch i .volume) i j d

/-! ## A step -/

/-- Settles O1: the head of the queue is a write, which runs what its byte decodes to. -/
theorem stepRunsTheDecodedCommand : Obligations.StepRunsTheDecodedCommand := by
  intro s b rest tail i hp hd
  have hi : decodeByte b = i := by
    cases hd
    rfl
  calc step s = perform (.write b) (s.accept rest) := step_of_pending_cons hp
    _ = exec (decodeByte b) (s.accept rest) := rfl
    _ = exec i (s.accept rest) := by rw [hi]

/-! ## Each command form -/

/-- Settles O4: the form's effect is `latchTone`, which writes one nibble and the latch. -/
theorem toneLatchSetsLowNibbleAndLatch : Obligations.ToneLatchSetsLowNibbleAndLatch := by
  intro i d s
  have hexec := exec_toneLatch i d s
  have hreg (j : Fin 3) := latchTone_toneReg_toNat i j d s
  refine ⟨latchTone i d s, hexec, (perform_write_ofNat (encode_toneLatch_toNat i d) s).trans hexec, rfl, rfl,
    (hreg i).trans (if_pos rfl), fun j hj => ?_, rfl⟩
  exact BitVec.eq_of_toNat_eq ((hreg j).trans (if_neg hj))

/-- Settles O5: a write of the noise register takes `d` modulo 8 and restarts the LFSR. -/
theorem noiseLatchSetsRegisterAndRestartsLfsr : Obligations.NoiseLatchSetsRegisterAndRestartsLfsr := by
  intro d s
  exact ⟨_, exec_latchN d s, (perform_write_ofNat (encode_latchN_toNat d) s).trans (exec_latchN d s), rfl, rfl,
    noiseFromNibble_toNat d, lfsrInitial_toNat, rfl⟩

/-- Settles O6: the form's effect is `latchVolume`, which writes one volume and the latch. -/
theorem volumeLatchSetsVolumeAndLatch : Obligations.VolumeLatchSetsVolumeAndLatch := by
  intro i d s
  have hexec := exec_volumeLatch i d s
  have hvol (j : Fin 4) := latchVolume_volume i j d s
  exact ⟨latchVolume i d s, hexec, (perform_write_ofNat (encode_volumeLatch_toNat i d) s).trans hexec, rfl, rfl,
    (hvol i).trans (if_pos rfl), fun j hj => (hvol j).trans (if_neg hj), rfl⟩

/-- Settles O7: the latch says which state `t` the byte ends in. -/
theorem dataByteActsOnTheLatchedRegister : Obligations.DataByteActsOnTheLatchedRegister := by
  intro x d s
  obtain ⟨t, hexec, -⟩ := exec_effect (.data x d) s
  have hend {u : State} (hu : execData x d s = .next u) : t = u := Host.Outcome.next.inj (hexec.symm.trans hu)
  refine ⟨t, hexec, (perform_write_ofNat (encode_data_toNat x d) s).trans hexec,
    fun hv => hend (execData_volume hv x d), fun ht i hi => ?tone, fun ht hc => ?noise⟩
  case tone =>
    obtain rfl := hend (execData_tone ht hi x d)
    have hreg (j : Fin 3) := setToneReg_get s i j (toneWithHigh s.toneReg[i] d)
    refine ⟨?_, fun j hj => (hreg j).trans (if_neg hj), rfl⟩
    rw [hreg i, if_pos rfl, toneWithHigh_toNat]
  case noise =>
    obtain rfl := hend (execData_noise ht hc x d)
    exact ⟨noiseFromData_toNat d, rfl⟩

/-! ## A format L byte by its fields -/

/-- R48: the form `CC` and `T` select, by its byte. -/
theorem encodeLatch_form (cc : BitVec 2) (t : Bool) (d : BitVec 4) :
    (∃ i, encode (toneLatch i d) = encodeLatch cc t d) ∨ encode (.latchN d) = encodeLatch cc t d ∨
      ∃ i, encode (volumeLatch i d) = encodeLatch cc t d := by
  obtain rfl | rfl | rfl | rfl : cc = 0 ∨ cc = 1 ∨ cc = 2 ∨ cc = 3 := by revert cc; decide
  all_goals cases t
  · exact .inl ⟨0, rfl⟩
  · exact .inr (.inr ⟨0, rfl⟩)
  · exact .inl ⟨1, rfl⟩
  · exact .inr (.inr ⟨1, rfl⟩)
  · exact .inl ⟨2, rfl⟩
  · exact .inr (.inr ⟨2, rfl⟩)
  · exact .inr (.inl rfl)
  · exact .inr (.inr ⟨3, rfl⟩)

/-- R47, R48: a byte with bit 7 set is the byte of a tone, noise or volume latch form. -/
theorem latchForm_of_bit7 {b : Byte} (h : b.getLsbD 7 = true) :
    ∃ d : BitVec 4,
      (∃ i, encode (toneLatch i d) = b) ∨ encode (.latchN d) = b ∨ ∃ i, encode (volumeLatch i d) = b := by
  have hform := encodeLatch_form (b.extractLsb' 5 2) (b.getLsbD 4) (b.extractLsb' 0 4)
  rw [encodeLatch_fields h] at hform
  exact ⟨_, hform⟩

/-- Settles O9, by the form of which the byte is the encoding; its number gives the fields. -/
theorem formatLByteSelectsByItsFields : Obligations.FormatLByteSelectsByItsFields := by
  intro b s hb
  obtain ⟨d, ⟨i, rfl⟩ | rfl | ⟨i, rfl⟩⟩ := latchForm_of_bit7 hb
  case inl =>
    have hn := encode_toneLatch_toNat i d
    obtain ⟨hcc, ht, hd⟩ : (encode (toneLatch i d)).toNat / 32 % 4 = i.val ∧
        (encode (toneLatch i d)).toNat / 16 % 2 = 0 ∧ (encode (toneLatch i d)).toNat % 16 = d.toNat := by omega
    rw [hcc, ht, hd]
    exact ⟨latchTone i d s, (perform_writeOf _ s).trans (exec_toneLatch i d s), rfl, ⟨nofun, nofun⟩, nofun,
      fun _ => ⟨rfl, fun j => (latchTone_toneReg_toNat i j d s).trans (if_congr Fin.ext_iff rfl rfl),
        fun h3 => absurd h3 i.isLt.ne, fun _ => ⟨rfl, rfl⟩⟩⟩
  case inr.inl =>
    have hn := encode_latchN_toNat d
    obtain ⟨hcc, ht, hd⟩ : (encode (.latchN d)).toNat / 32 % 4 = 3 ∧
        (encode (.latchN d)).toNat / 16 % 2 = 0 ∧ (encode (.latchN d)).toNat % 8 = d.toNat % 8 := by omega
    rw [hcc, ht, hd]
    exact ⟨_, (perform_writeOf _ s).trans (exec_latchN d s), rfl, ⟨nofun, nofun⟩, nofun,
      fun _ => ⟨rfl, fun j => (if_neg j.isLt.ne).symm, fun _ => ⟨noiseFromNibble_toNat d, rfl⟩,
        fun h3 => absurd rfl h3⟩⟩
  case inr.inr =>
    have hn := encode_volumeLatch_toNat i d
    obtain ⟨hcc, ht, hd⟩ : (encode (volumeLatch i d)).toNat / 32 % 4 = i.val ∧
        (encode (volumeLatch i d)).toNat / 16 % 2 = 1 ∧ (encode (volumeLatch i d)).toNat % 16 = d.toNat := by omega
    rw [hcc, ht, hd]
    refine ⟨latchVolume i d s, (perform_writeOf _ s).trans (exec_volumeLatch i d s), rfl,
      ⟨fun _ => rfl, fun _ => rfl⟩, fun _ => ⟨fun c => ?_, rfl, rfl, rfl⟩, nofun⟩
    rw [latchVolume_volume, apply_ite BitVec.toNat]
    exact if_congr Fin.ext_iff rfl rfl

end Sys2Proof.Machine
end

section
/-! The prescaler and the tone generators (41_prescaler_tone.md R66 to R71): sixteen input clocks make one tick, a tone
counter runs out in as many ticks as it holds, and the period law and the delay of a write follow from that. -/

namespace Sys2Proof.Machine

/-! ## The prescaler (R66) -/

/-- `s` with the prescaler at `d`. -/
def withDivider (s : State) (d : BitVec 4) : State := { s with clockDivider := d }

@[simp] theorem withDivider_clockDivider (s : State) (d : BitVec 4) : (withDivider s d).clockDivider = d := rfl
@[simp] theorem withDivider_self (s : State) : withDivider s s.clockDivider = s := rfl

/-- R67: a tick does not look at the prescaler. -/
theorem internalTick_withDivider (s : State) (d : BitVec 4) :
    internalTick (withDivider s d) = withDivider (internalTick s) d := rfl

/-- R66: the clock that finds the divider at 15 sets it to 0 and ticks. -/
theorem clockStep_withDivider_15 (s : State) : clockStep (withDivider s 15) = internalTick (withDivider s 0) :=
  if_pos rfl

/-- R66: any other clock counts. -/
theorem clockStep_withDivider_of_ne {d : BitVec 4} (h : d ≠ 15) (s : State) :
    clockStep (withDivider s d) = withDivider s (d + 1) :=
  if_neg h

/-- R66: short of the sixteenth clock the divider counts and nothing else moves. -/
theorem clockStep_iterate_of_lt {s : State} {k : Nat} (h : s.clockDivider.toNat + k < 16) :
    clockStep^[k] s = withDivider s (BitVec.ofNat 4 (s.clockDivider.toNat + k)) := by
  induction k with
  | zero => simp
  | succ k ih =>
    have hne : BitVec.ofNat 4 (s.clockDivider.toNat + k) ≠ 15 := by bv_omega
    rw [Function.iterate_succ_apply', ih (by omega), clockStep_withDivider_of_ne hne]
    exact congrArg (withDivider s) (BitVec.ofNat_add (s.clockDivider.toNat + k) 1).symm

/-- R66, R24: the clocks up to the tick, the tick, and the clocks that bring the divider back to where it was. -/
theorem clockStep_iterate_16 (s : State) : clockStep^[16] s = internalTick s := by
  have hd : s.clockDivider.toNat < 16 := s.clockDivider.isLt
  have hsplit : 16 = s.clockDivider.toNat + (15 - s.clockDivider.toNat + 1) := by omega
  have hbefore : clockStep^[15 - s.clockDivider.toNat] s = withDivider s 15 := by
    rw [clockStep_iterate_of_lt (by omega), Nat.add_sub_cancel' (by omega)]
    rfl
  have hafter : clockStep^[s.clockDivider.toNat] (withDivider (internalTick s) 0) = internalTick s := by
    have hback : BitVec.ofNat 4 (0 + s.clockDivider.toNat) = s.clockDivider := by simp
    rw [clockStep_iterate_of_lt (by simpa using hd)]
    exact congrArg (withDivider (internalTick s)) hback
  calc clockStep^[16] s
      = clockStep^[s.clockDivider.toNat] (clockStep (clockStep^[15 - s.clockDivider.toNat] s)) := by
        rw [← Function.iterate_succ_apply' clockStep, ← Function.iterate_add_apply, ← hsplit]
    _ = internalTick s := by rw [hbefore, clockStep_withDivider_15, internalTick_withDivider, hafter]

/-- R66: `16 * k` clocks are `k` ticks, wherever the divider stands. -/
theorem clockStep_iterate_16_mul (k : Nat) (s : State) : clockStep^[16 * k] s = internalTick^[k] s := by
  rw [Function.iterate_mul, funext clockStep_iterate_16]

/-- Settles O15: the fields that a clock leaves, and the divider's count to sixteen. -/
theorem sixteenClocksMakeOneTick : Obligations.SixteenClocksMakeOneTick := fun s k =>
  ⟨rfl, clockStep_clockCounter s, clockStep_bufferPos s, clockStep_chBuf s, clockStep_mixBuf s,
    clockStep_iterate_of_lt, clockStep_iterate_16_mul k s⟩

/-! ## What a tick, a clock and a run leave -/

/-- R89: a run of an accepted count. -/
theorem perform_run {n : Nat} (h : n ≤ 2 ^ 32 - 1) (s : State) :
    perform (.run n) s = .next ((runClocks n s).1.ret (.dropped (runClocks n s).2)) := by
  have hcount : clockCount n = some n := clockCount_eq_some.2 ⟨⟨by omega, by omega⟩, rfl⟩
  rw [perform, doRun, hcount]

/-- Settles O16, by the frame of the tick, of the clock and of the run. -/
theorem clocksChangeOnlyTheirElements : Obligations.ClocksChangeOnlyTheirElements := by
  intro s
  refine ⟨(withGenerators_internalTick s).symm, ⟨_, rfl, (withClocked_clockStep s).symm⟩, fun n hn => ?_⟩
  exact ⟨_, perform_run hn s, congrArg (State.ret · _) (withRun_runClocks n s).symm⟩

/-! ## One tick of a tone channel (R68, R69) -/

/-- R68: a counter above 1 counts down, and its output stays. -/
theorem internalTick_tone_of_gt {s : State} {i : Fin 3} (h : 1 < s.toneCounter[i].toNat) :
    (internalTick s).toneCounter[i].toNat = s.toneCounter[i].toNat - 1 ∧
      (internalTick s).toneOut[i] = s.toneOut[i] := by
  obtain ⟨hcounter, hout⟩ := internalTick_tone s i
  rw [hcounter, hout, toneCounterNext, toneOutNext, if_neg (by omega), if_neg (by omega), countDown_toNat]
  exact ⟨rfl, rfl⟩

/-- R68, R69: a counter at 1 or 0 reloads, and its output toggles. -/
theorem internalTick_tone_of_le {s : State} (hv : s.config.variant.legal) {i : Fin 3}
    (h : s.toneCounter[i].toNat ≤ 1) :
    (internalTick s).toneCounter[i].toNat = reloadNumber s.config.variant s.toneReg[i] ∧
      (internalTick s).toneOut[i] = !s.toneOut[i] := by
  obtain ⟨hcounter, hout⟩ := internalTick_tone s i
  rw [hcounter, hout, toneCounterNext, toneOutNext, if_pos h, if_pos h, toneReload, reloadFromTone_toNat hv]
  exact ⟨rfl, rfl⟩

/-- Settles O17, by the two cases of a tick. -/
theorem toneStepCountsDownThenReloads : Obligations.ToneStepCountsDownThenReloads := fun _ hv _ =>
  ⟨internalTick_tone_of_gt, internalTick_tone_of_le hv⟩

/-! ## Running out -/

@[simp] theorem internalTick_iterate_config (k : Nat) (s : State) : (internalTick^[k] s).config = s.config := by
  induction k with
  | zero => rfl
  | succ k ih => rw [Function.iterate_succ_apply', internalTick_config, ih]

@[simp] theorem internalTick_iterate_toneReg (k : Nat) (s : State) : (internalTick^[k] s).toneReg = s.toneReg := by
  induction k with
  | zero => rfl
  | succ k ih => rw [Function.iterate_succ_apply', internalTick_toneReg, ih]

/-- R68: in fewer ticks than a counter holds it counts down, and its output stays. -/
theorem internalTick_iterate_tone_of_lt {s : State} {i : Fin 3} {k : Nat} (hk : k < s.toneCounter[i].toNat) :
    (internalTick^[k] s).toneCounter[i].toNat = s.toneCounter[i].toNat - k ∧
      (internalTick^[k] s).toneOut[i] = s.toneOut[i] := by
  induction k with
  | zero => exact ⟨rfl, rfl⟩
  | succ k ih =>
    obtain ⟨hcounter, hout⟩ := ih (by omega)
    obtain ⟨hcounter', hout'⟩ := internalTick_tone_of_gt (s := internalTick^[k] s) (i := i) (by omega)
    rw [Function.iterate_succ_apply', hcounter', hout', hcounter, hout]
    exact ⟨by omega, rfl⟩

/-- R68, R69: in as many ticks as a running counter holds it reloads, and its output toggles once. -/
theorem internalTick_iterate_tone_expiry {s : State} (hv : s.config.variant.legal) {i : Fin 3}
    (hpos : 1 ≤ s.toneCounter[i].toNat) :
    (internalTick^[s.toneCounter[i].toNat] s).toneCounter[i].toNat = reloadNumber s.config.variant s.toneReg[i] ∧
      (internalTick^[s.toneCounter[i].toNat] s).toneOut[i] = !s.toneOut[i] := by
  obtain ⟨k, hk⟩ : ∃ k, s.toneCounter[i].toNat = k + 1 := ⟨_, (Nat.sub_add_cancel hpos).symm⟩
  obtain ⟨hcounter, hout⟩ := internalTick_iterate_tone_of_lt (s := s) (i := i) (k := k) (by omega)
  obtain ⟨hreload, htoggle⟩ := internalTick_tone_of_le (s := internalTick^[k] s) (i := i) (by simpa using hv)
    (by omega)
  rw [hk, Function.iterate_succ_apply', hreload, htoggle, hout, internalTick_iterate_config,
    internalTick_iterate_toneReg]
  exact ⟨rfl, rfl⟩

/-! ## The period law (R70) -/

/-- One toggle more turns the parity of their count. -/
theorem decide_succ_mod_two_eq_one (q : Nat) : decide ((q + 1) % 2 = 1) = !decide (q % 2 = 1) := by
  rw [← decide_not, decide_eq_decide]
  omega

/-- R70: after `q` half-periods the counter is at its reload value again, and the output has toggled `q` times. -/
theorem internalTick_iterate_halfPeriods {s : State} (hv : s.config.variant.legal) {i : Fin 3} {R : Nat}
    (hR : reloadNumber s.config.variant s.toneReg[i] = R) (h : s.toneCounter[i].toNat = R) (q : Nat) :
    (internalTick^[R * q] s).toneCounter[i].toNat = R ∧
      (internalTick^[R * q] s).toneOut[i] = xor s.toneOut[i] (decide (q % 2 = 1)) := by
  induction q with
  | zero => exact ⟨h, by simp⟩
  | succ q ih =>
    obtain ⟨hcounter, hout⟩ := ih
    have hpos : 1 ≤ R := hR ▸ reloadNumber_pos hv _
    obtain ⟨hreload, htoggle⟩ := internalTick_iterate_tone_expiry (s := internalTick^[R * q] s) (i := i)
      (by simpa using hv) (by omega)
    rw [hcounter, ← Function.iterate_add_apply] at hreload htoggle
    rw [Nat.mul_succ, Nat.add_comm, hreload, htoggle, hout, decide_succ_mod_two_eq_one, internalTick_iterate_config,
      internalTick_iterate_toneReg, Bool.xor_not]
    exact ⟨hR, rfl⟩

/-- Settles O18: `k` ticks are the whole half-periods in `k`, and then less than one. -/
theorem tonePeriodLaw : Obligations.TonePeriodLaw := by
  intro s hv i h k
  have hpos := reloadNumber_pos hv s.toneReg[i]
  generalize hR : reloadNumber s.config.variant s.toneReg[i] = R at h hpos ⊢
  obtain ⟨hcounter, hout⟩ := internalTick_iterate_halfPeriods hv hR h (k / R)
  have hlt : k % R < (internalTick^[R * (k / R)] s).toneCounter[i].toNat := hcounter.symm ▸ Nat.mod_lt k hpos
  have hrest := internalTick_iterate_tone_of_lt hlt
  rwa [← Function.iterate_add_apply, Nat.mod_add_div, hcounter, hout] at hrest

/-! ## A write (R71) -/

/-- R71: no command byte moves a tone counter or a tone output. -/
theorem CommandEffect.toneCounter_toneOut {s t : State} (h : CommandEffect s t) :
    t.toneCounter = s.toneCounter ∧ t.toneOut = s.toneOut := by
  rw [← h.withRegisters_eq]
  exact ⟨rfl, rfl⟩

/-- R29: nor the configuration. -/
theorem CommandEffect.config {s t : State} (h : CommandEffect s t) : t.config = s.config := by
  rw [← h.withRegisters_eq]
  rfl

/-- Settles O19: the count that runs out after the byte is the one that ran before it. -/
theorem toneWriteWaitsForTheReload : Obligations.ToneWriteWaitsForTheReload := by
  intro s t b i hv hw hpos
  have he : CommandEffect s t := effect_of_exec hw
  obtain ⟨hcounter, hout⟩ := he.toneCounter_toneOut
  rw [← hcounter] at hpos ⊢
  rw [← he.config] at hv ⊢
  rw [← hout]
  refine ⟨fun k hk => ?_, internalTick_iterate_tone_expiry hv hpos⟩
  obtain ⟨ht, hot⟩ := internalTick_iterate_tone_of_lt hk
  obtain ⟨hs, -⟩ := internalTick_iterate_tone_of_lt (s := s) (hcounter ▸ hk)
  exact ⟨BitVec.eq_of_toNat_eq (by rw [ht, hs, hcounter]), hot⟩

end Sys2Proof.Machine
end

section
/-! The noise step (42_noise.md R72 to R75, R80): a noise counter runs out in as many ticks as it holds, each expiry
toggles, and every second one shifts the LFSR. -/

namespace Sys2Proof.Machine

/-! ## One tick of the noise channel -/

/-- The lowest bit of a word, read from its number. -/
theorem getLsbD_zero_eq_decide {n : Nat} (x : BitVec n) : x.getLsbD 0 = decide (x.toNat % 2 = 1) :=
  Nat.testBit_zero x.toNat

/-- R15: the mode bit is the top bit of the three. -/
theorem noiseIsWhite_eq_decide (s : State) : noiseIsWhite s = decide (s.noiseReg.toNat / 4 = 1) := by
  have hlt : s.noiseReg.toNat < 8 := s.noiseReg.isLt
  rw [noiseIsWhite, BitVec.getLsbD, Nat.testBit_eq_decide_div_mod_eq, decide_eq_decide]
  omega

/-- `t` has the toggle, the captured bit and the LFSR of `s`. -/
abbrev sameNoiseOutput (s t : State) : Prop :=
  t.noiseToggle = s.noiseToggle ∧ t.noiseOut = s.noiseOut ∧ t.noiseShift = s.noiseShift

/-- R72: a counter above 1 counts down, and nothing else of the channel moves. -/
theorem internalTick_noise_of_gt {s : State} (h : 1 < s.noiseCounter.toNat) :
    (internalTick s).noiseCounter.toNat = s.noiseCounter.toNat - 1 ∧ sameNoiseOutput s (internalTick s) := by
  obtain ⟨hcounter, htoggle, hout, hshift⟩ := internalTick_noise s
  rcases noiseStep_cases s with ⟨-, he⟩ | ⟨hle, -⟩ | ⟨hle, -⟩
  · rw [sameNoiseOutput, hcounter, htoggle, hout, hshift, he]
    exact ⟨countDown_toNat _, rfl, rfl, rfl⟩
  · omega
  · omega

/-- R72, R73: a counter at 1 or 0 reloads, and the toggle inverts. -/
theorem internalTick_noise_of_le {s : State} (hv : s.config.variant.legal) (h : s.noiseCounter.toNat ≤ 1) :
    (internalTick s).noiseCounter.toNat = noiseReloadNumber s ∧
      (internalTick s).noiseToggle = !s.noiseToggle := by
  obtain ⟨hcounter, htoggle, -, -⟩ := internalTick_noise s
  rw [hcounter, htoggle, noiseStep_noiseCounter hv, if_pos h]
  rcases noiseStep_cases s with ⟨hgt, -⟩ | ⟨-, ht, he⟩ | ⟨-, ht, he⟩
  · omega
  · rw [he, ht]; exact ⟨rfl, rfl⟩
  · rw [he, ht]; exact ⟨rfl, rfl⟩

/-- R74: a falling toggle captures nothing and shifts nothing. -/
theorem internalTick_noise_falling {s : State} (h : s.noiseCounter.toNat ≤ 1) (ht : s.noiseToggle = true) :
    (internalTick s).noiseOut = s.noiseOut ∧ (internalTick s).noiseShift = s.noiseShift := by
  obtain ⟨-, -, hout, hshift⟩ := internalTick_noise s
  rcases noiseStep_cases s with ⟨hgt, -⟩ | ⟨-, -, he⟩ | ⟨-, hf, -⟩
  · omega
  · rw [hout, hshift, he]; exact ⟨rfl, rfl⟩
  · simp [ht] at hf

/-- R74, R75, R78: a rising toggle captures the old bit 0 and shifts by the mode bit. -/
theorem internalTick_noise_rising {s : State} (h : s.noiseCounter.toNat ≤ 1) (ht : s.noiseToggle = false) :
    (internalTick s).noiseOut = decide (s.noiseShift.toNat % 2 = 1) ∧
      (internalTick s).noiseShift =
        lfsrShift s.config.variant (decide (s.noiseReg.toNat / 4 = 1)) s.noiseShift := by
  obtain ⟨-, -, hout, hshift⟩ := internalTick_noise s
  rcases noiseStep_cases s with ⟨hgt, -⟩ | ⟨-, hf, -⟩ | ⟨-, -, he⟩
  · omega
  · simp [ht] at hf
  · rw [hout, hshift, he, ← getLsbD_zero_eq_decide, ← noiseIsWhite_eq_decide]; exact ⟨rfl, rfl⟩

/-- Settles O21, by the three things a noise step can do. -/
theorem noiseStepFollowsItsCounter : Obligations.NoiseStepFollowsItsCounter := by
  intro s hv
  refine ⟨internalTick_noise_of_gt, fun h => ?_⟩
  obtain ⟨hcounter, htoggle⟩ := internalTick_noise_of_le hv h
  exact ⟨hcounter, htoggle, internalTick_noise_falling h, internalTick_noise_rising h⟩

/-! ## Running out -/

@[simp] theorem internalTick_iterate_noiseReg (k : Nat) (s : State) :
    (internalTick^[k] s).noiseReg = s.noiseReg := by
  induction k with
  | zero => rfl
  | succ k ih => rw [Function.iterate_succ_apply', internalTick_noiseReg, ih]

/-- R73: ticks leave the registers that the reload value comes from. -/
@[simp] theorem noiseReloadNumber_internalTick_iterate (k : Nat) (s : State) :
    noiseReloadNumber (internalTick^[k] s) = noiseReloadNumber s := by
  rw [noiseReloadNumber, rateNumber, internalTick_iterate_noiseReg, internalTick_iterate_config,
    internalTick_iterate_toneReg, noiseReloadNumber, rateNumber]

/-- R72: in fewer ticks than the counter holds it counts down, and nothing else of the channel moves. -/
theorem internalTick_iterate_noise_of_lt {s : State} {k : Nat} (hk : k < s.noiseCounter.toNat) :
    (internalTick^[k] s).noiseCounter.toNat = s.noiseCounter.toNat - k ∧
      sameNoiseOutput s (internalTick^[k] s) := by
  induction k with
  | zero => exact ⟨rfl, rfl, rfl, rfl⟩
  | succ k ih =>
    obtain ⟨hcounter, htoggle, hout, hshift⟩ := ih (by omega)
    obtain ⟨hcounter', htoggle', hout', hshift'⟩ := internalTick_noise_of_gt (s := internalTick^[k] s) (by omega)
    rw [sameNoiseOutput, Function.iterate_succ_apply', hcounter', htoggle', hout', hshift', hcounter]
    exact ⟨by omega, htoggle, hout, hshift⟩

/-- R72: the last of the ticks that a running counter `R` holds finds it at 1, and the rest of the channel as it was. -/
theorem internalTick_iterate_noise_last {s : State} {R : Nat} (hR : s.noiseCounter.toNat = R) (hpos : 1 ≤ R) :
    ∃ t, internalTick^[R] s = internalTick t ∧ t.noiseCounter.toNat = 1 ∧ sameNoiseOutput s t ∧
      t.config = s.config ∧ t.noiseReg = s.noiseReg ∧ noiseReloadNumber t = noiseReloadNumber s := by
  obtain ⟨k, rfl⟩ : ∃ k, R = k + 1 := ⟨_, (Nat.sub_add_cancel hpos).symm⟩
  obtain ⟨hcounter, hsame⟩ := internalTick_iterate_noise_of_lt (s := s) (k := k) (by omega)
  exact ⟨_, Function.iterate_succ_apply' _ _ _, by omega, hsame, internalTick_iterate_config k s,
    internalTick_iterate_noiseReg k s, noiseReloadNumber_internalTick_iterate k s⟩

/-- R74: from a set toggle, the expiry only reloads the counter and clears the toggle. -/
theorem internalTick_iterate_noise_falling {s : State} (hv : s.config.variant.legal) {R : Nat}
    (hR : s.noiseCounter.toNat = R) (hpos : 1 ≤ R) (ht : s.noiseToggle = true) :
    (internalTick^[R] s).noiseCounter.toNat = noiseReloadNumber s ∧ (internalTick^[R] s).noiseToggle = false ∧
      (internalTick^[R] s).noiseOut = s.noiseOut ∧ (internalTick^[R] s).noiseShift = s.noiseShift := by
  obtain ⟨t, he, hone, ⟨htoggle, hout, hshift⟩, hcfg, -, hreload⟩ := internalTick_iterate_noise_last hR hpos
  obtain ⟨hcounter', htoggle'⟩ := internalTick_noise_of_le (hcfg ▸ hv) hone.le
  obtain ⟨hout', hshift'⟩ := internalTick_noise_falling hone.le (htoggle.trans ht)
  rw [he, hcounter', htoggle', hout', hshift', hreload, htoggle, hout, hshift, ht]
  exact ⟨rfl, rfl, rfl, rfl⟩

/-- R74, R75, R78: from a clear toggle, the expiry captures bit 0 and shifts. -/
theorem internalTick_iterate_noise_rising {s : State} (hv : s.config.variant.legal) {R : Nat}
    (hR : s.noiseCounter.toNat = R) (hpos : 1 ≤ R) (ht : s.noiseToggle = false) :
    (internalTick^[R] s).noiseShift =
        lfsrShift s.config.variant (decide (s.noiseReg.toNat / 4 = 1)) s.noiseShift ∧
      (internalTick^[R] s).noiseOut = decide (s.noiseShift.toNat % 2 = 1) ∧
      (internalTick^[R] s).noiseToggle = true ∧
      (internalTick^[R] s).noiseCounter.toNat = noiseReloadNumber s := by
  obtain ⟨t, he, hone, ⟨htoggle, hout, hshift⟩, hcfg, hreg, hreload⟩ := internalTick_iterate_noise_last hR hpos
  obtain ⟨hcounter', htoggle'⟩ := internalTick_noise_of_le (hcfg ▸ hv) hone.le
  obtain ⟨hout', hshift'⟩ := internalTick_noise_rising hone.le (htoggle.trans ht)
  rw [he, hcounter', htoggle', hout', hshift', hreload, htoggle, hshift, hcfg, hreg, ht]
  exact ⟨rfl, rfl, rfl, rfl⟩

/-! ## Two reloads make a shift (R80) -/

/-- Settles O22: the first reload only clears the toggle, the second sets it and shifts. -/
theorem noiseShiftsEveryTwoReloads : Obligations.NoiseShiftsEveryTwoReloads := by
  intro s hv ht hR
  have hpos := noiseReloadNumber_pos hv
  generalize hreload : noiseReloadNumber s = R at hR hpos ⊢
  obtain ⟨hcounter, htoggle, hout, hshift⟩ := internalTick_iterate_noise_falling hv hR hpos ht
  rw [hreload] at hcounter
  refine ⟨fun k hk => ?_, ?_⟩
  · rcases Nat.lt_or_ge k R with hlt | hge
    · obtain ⟨-, htoggle', hout', hshift'⟩ := internalTick_iterate_noise_of_lt (hR.symm ▸ hlt)
      exact ⟨hshift', hout', by rw [htoggle', ht, decide_eq_true hlt]⟩
    · obtain ⟨-, htoggle', hout', hshift'⟩ :=
        internalTick_iterate_noise_of_lt (s := internalTick^[R] s) (k := k - R) (by omega)
      rw [← Function.iterate_add_apply, Nat.sub_add_cancel hge] at htoggle' hout' hshift'
      exact ⟨hshift'.trans hshift, hout'.trans hout, by
        rw [htoggle', htoggle, decide_eq_false (Nat.not_lt.2 hge)]⟩
  · have hrise := internalTick_iterate_noise_rising (by simpa using hv) hcounter hpos htoggle
    rwa [← Function.iterate_add_apply, ← Nat.two_mul, hshift, internalTick_iterate_config,
      internalTick_iterate_noiseReg, noiseReloadNumber_internalTick_iterate, hreload] at hrise

end Sys2Proof.Machine
end

section
/-! The LFSR (42_noise.md R76 to R79): one shift, bit by bit and as a number, and the rotation of the periodic mode. -/

namespace Sys2Proof.Machine

/-! ## One shift, bit by bit -/

theorem lfsrBits_pos {v : Variant} (hv : v.legal) : 1 ≤ v.lfsrBits := by
  rcases hv.1 with h | h <;> omega

theorem lfsrInitial_toNat_lt {v : Variant} (hv : v.legal) : (lfsrInitial v).toNat < 2 ^ v.lfsrBits := by
  have hpos := Nat.two_pow_pos (v.lfsrBits - 1)
  rw [lfsrInitial_toNat hv, two_pow_lfsrBits hv]
  omega

/-- R7: the word that the feedback is placed by has its one bit at the top of the N. -/
theorem getLsbD_topBit {v : Variant} (hv : v.legal) (j : Nat) :
    (1#16 <<< feedbackShift v).getLsbD j = decide (j = v.lfsrBits - 1) := by
  rw [BitVec.getLsbD, topBit_toNat hv, Nat.testBit_two_pow, decide_eq_decide]
  exact eq_comm

/-- An N-bit value has no bit from N on. -/
theorem getLsbD_of_lfsrBits_le {v : Variant} {x : BitVec 16} (hx : x.toNat < 2 ^ v.lfsrBits) {j : Nat}
    (h : v.lfsrBits ≤ j) : x.getLsbD j = false :=
  Nat.testBit_lt_two_pow (lt_of_lt_of_le hx (Nat.pow_le_pow_right (by omega) h))

/-- Two N-bit values with the same N low bits are equal. -/
theorem eq_of_getLsbD_eq_below {v : Variant} {x y : BitVec 16} (hx : x.toNat < 2 ^ v.lfsrBits)
    (hy : y.toNat < 2 ^ v.lfsrBits) (h : ∀ j < v.lfsrBits, x.getLsbD j = y.getLsbD j) : x = y := by
  refine BitVec.eq_of_getLsbD_eq fun j _ => ?_
  rcases Nat.lt_or_ge j v.lfsrBits with hlt | hge
  · exact h j hlt
  · rw [getLsbD_of_lfsrBits_le hx hge, getLsbD_of_lfsrBits_le hy hge]

/-- R78: below the top every bit comes from the one above it. -/
theorem getLsbD_lfsrShift_of_lt {v : Variant} (hv : v.legal) (white : Bool) (x : BitVec 16) {j : Nat}
    (h : j + 1 < v.lfsrBits) : (lfsrShift v white x).getLsbD j = x.getLsbD (j + 1) := by
  have hfed : (if feedbackBit v white x then 1#16 <<< feedbackShift v else 0).getLsbD j = false := by
    split
    · rw [getLsbD_topBit hv]; exact decide_eq_false (by omega)
    · exact BitVec.getLsbD_zero
  rw [lfsrShift, BitVec.getLsbD_or, hfed, BitVec.getLsbD_ushiftRight, Bool.or_false, Nat.add_comm]

/-- R78: the top bit is the feedback. -/
theorem getLsbD_lfsrShift_top {v : Variant} (hv : v.legal) (white : Bool) {x : BitVec 16}
    (hx : x.toNat < 2 ^ v.lfsrBits) :
    (lfsrShift v white x).getLsbD (v.lfsrBits - 1) = feedbackBit v white x := by
  have hN := lfsrBits_pos hv
  have hlow : (x >>> 1).getLsbD (v.lfsrBits - 1) = false := by
    rw [BitVec.getLsbD_ushiftRight]
    exact getLsbD_of_lfsrBits_le hx (by omega)
  rw [lfsrShift, BitVec.getLsbD_or, hlow, Bool.false_or]
  split
  · rename_i hfed; rw [getLsbD_topBit hv, hfed]; exact decide_eq_true rfl
  · rename_i hfed; rw [Bool.eq_false_of_not_eq_true hfed]; exact BitVec.getLsbD_zero

/-! ## One shift as a number -/

/-- R78: halve the value, and put the feedback in the emptied top bit. -/
theorem lfsrShift_toNat {v : Variant} (hv : v.legal) (white : Bool) {x : BitVec 16}
    (hx : x.toNat < 2 ^ v.lfsrBits) :
    (lfsrShift v white x).toNat =
      x.toNat / 2 + (feedbackBit v white x).toNat * 2 ^ (v.lfsrBits - 1) := by
  have hlow : x.toNat / 2 < 2 ^ (v.lfsrBits - 1) := by
    have := two_pow_lfsrBits hv
    omega
  rw [lfsrShift, BitVec.toNat_or, BitVec.toNat_ushiftRight, Nat.shiftRight_one]
  cases feedbackBit v white x with
  | false => simp
  | true =>
    rw [if_pos rfl, topBit_toNat hv, Nat.or_comm, Bool.toNat_true, Nat.one_mul, Nat.add_comm]
    simpa using (Nat.two_pow_add_eq_or_of_lt hlow 1).symm

theorem lfsrShift_toNat_lt {v : Variant} (hv : v.legal) (white : Bool) {x : BitVec 16}
    (hx : x.toNat < 2 ^ v.lfsrBits) : (lfsrShift v white x).toNat < 2 ^ v.lfsrBits := by
  have hN := two_pow_lfsrBits hv
  have hfed : (feedbackBit v white x).toNat * 2 ^ (v.lfsrBits - 1) ≤ 2 ^ (v.lfsrBits - 1) :=
    mul_le_of_le_one_left (Nat.zero_le _) (Bool.toNat_le _)
  rw [lfsrShift_toNat hv white hx]
  omega

/-- The parity of the low bits that a word and a mask have in common, counted. -/
theorem parityBelow_and_toNat (x : BitVec 16) (mask : Nat) {n : Nat} (hn : n ≤ 16) :
    (parityBelow (x &&& BitVec.ofNat 16 mask) n).toNat =
      ((List.range n).map fun k => bitOf x.toNat k * bitOf mask k).sum % 2 := by
  induction n with
  | zero => rfl
  | succ n ih =>
    have hmask : (BitVec.ofNat 16 mask).getLsbD n = mask.testBit n := by
      rw [BitVec.getLsbD_ofNat, decide_eq_true (show n < 16 by omega), Bool.true_and]
    rw [parityBelow, BitVec.getLsbD_and, hmask, List.range_succ, List.map_append, List.sum_append, Nat.add_mod,
      ← ih (by omega), List.map_singleton, List.sum_singleton, bitOf, bitOf, ← Nat.toNat_testBit,
      ← Nat.toNat_testBit]
    show (xor (x.getLsbD n && mask.testBit n) _).toNat = (_ + (x.getLsbD n).toNat * _ % 2) % 2
    cases x.getLsbD n <;> cases mask.testBit n <;> cases parityBelow (x &&& BitVec.ofNat 16 mask) n <;> rfl

/-- R76: the white feedback is the parity of the common bits of the value and the taps. -/
theorem feedbackBit_white_toNat (v : Variant) (x : BitVec 16) :
    (feedbackBit v true x).toNat = commonBits x.toNat v.whiteTaps % 2 :=
  parityBelow_and_toNat x v.whiteTaps (le_refl 16)

/-- R77: the periodic feedback is bit 0. -/
theorem feedbackBit_periodic_toNat (v : Variant) (x : BitVec 16) :
    (feedbackBit v false x).toNat = x.toNat % 2 := by
  show (x.toNat.testBit 0).toNat = x.toNat % 2
  rw [Nat.toNat_testBit, Nat.pow_zero, Nat.div_one]

/-- Settles O23, by the number that either feedback is. -/
theorem lfsrShiftPutsFeedbackInTheTopBit : Obligations.LfsrShiftPutsFeedbackInTheTopBit := by
  intro v x hv hx
  rw [lfsrShift_toNat hv true hx, lfsrShift_toNat hv false hx, feedbackBit_white_toNat, feedbackBit_periodic_toNat]
  exact ⟨rfl, rfl⟩

/-! ## Shifts in a row -/

theorem lfsrShift_iterate_toNat_lt {v : Variant} (hv : v.legal) (white : Bool) (n : Nat) {x : BitVec 16}
    (hx : x.toNat < 2 ^ v.lfsrBits) : ((lfsrShift v white)^[n] x).toNat < 2 ^ v.lfsrBits := by
  induction n with
  | zero => exact hx
  | succ n ih =>
    rw [Function.iterate_succ_apply']
    exact lfsrShift_toNat_lt hv white ih

/-- R78: a bit that stays within the N moves down by one with each shift. -/
theorem getLsbD_lfsrShift_iterate {v : Variant} (hv : v.legal) (white : Bool) (x : BitVec 16) {n j : Nat}
    (h : j + n < v.lfsrBits) : ((lfsrShift v white)^[n] x).getLsbD j = x.getLsbD (j + n) := by
  induction n generalizing j with
  | zero => rfl
  | succ n ih =>
    rw [Function.iterate_succ_apply', getLsbD_lfsrShift_of_lt hv white _ (by omega), ih (by omega), Nat.add_assoc,
      Nat.add_comm 1 n]

/-! ## Periodic noise (R77, R79) -/

/-- R77: `n` periodic shifts rotate the N bits by `n`. -/
theorem getLsbD_periodic_iterate {v : Variant} (hv : v.legal) {x : BitVec 16} (hx : x.toNat < 2 ^ v.lfsrBits)
    (n : Nat) {j : Nat} (hj : j < v.lfsrBits) :
    ((lfsrShift v false)^[n] x).getLsbD j = x.getLsbD ((j + n) % v.lfsrBits) := by
  induction n generalizing j with
  | zero => rw [Nat.add_zero, Nat.mod_eq_of_lt hj]; rfl
  | succ n ih =>
    rw [Function.iterate_succ_apply']
    rcases Nat.lt_or_ge (j + 1) v.lfsrBits with hlt | hge
    · rw [getLsbD_lfsrShift_of_lt hv false _ hlt, ih hlt, Nat.add_assoc, Nat.add_comm 1 n]
    · obtain rfl : j = v.lfsrBits - 1 := by omega
      have hwrap : (v.lfsrBits - 1 + (n + 1)) % v.lfsrBits = (0 + n) % v.lfsrBits := by
        rw [show v.lfsrBits - 1 + (n + 1) = 0 + n + v.lfsrBits by omega, Nat.add_mod_right]
      rw [getLsbD_lfsrShift_top hv false (lfsrShift_iterate_toNat_lt hv false n hx), hwrap]
      exact ih (lfsrBits_pos hv)

/-- Settles O24: N rotations by one are the identity, and the one bit of the initial value starts at the top. -/
theorem periodicNoiseRepeatsEveryNShifts : Obligations.PeriodicNoiseRepeatsEveryNShifts := by
  intro v hv
  refine ⟨fun x hx => ?_, fun k => ?_⟩
  · refine eq_of_getLsbD_eq_below (lfsrShift_iterate_toNat_lt hv false _ hx) hx fun j hj => ?_
    rw [getLsbD_periodic_iterate hv hx _ hj, Nat.add_mod_right, Nat.mod_eq_of_lt hj]
  · rw [getLsbD_periodic_iterate hv (lfsrInitial_toNat_lt hv) k (lfsrBits_pos hv), Nat.zero_add]
    exact getLsbD_topBit hv _

end Sys2Proof.Machine
end

section
/-! The white sequences of the two predefined variants (42_noise.md R76, R79). Each has two taps, so N shifts are the
XOR of none and a few; that relation, doubled, jumps over many shifts at once. -/

namespace Sys2Proof.Machine

/-! ## Two taps -/

/-- The white feedback of `v` is the XOR of bit 0 and bit `t`. -/
structure TwoTaps (v : Variant) (t : Nat) : Prop where
  legal : v.legal
  tap_lt : t < v.lfsrBits
  feedback : ∀ x : BitVec 16, feedbackBit v true x = xor (x.getLsbD 0) (x.getLsbD t)

theorem twoTaps_sega : TwoTaps Variant.sega 3 where
  legal := by decide
  tap_lt := by decide
  feedback x := by simp [feedbackBit, parity, parityBelow, Variant.sega, Bool.xor_comm]

theorem twoTaps_ti : TwoTaps Variant.ti 1 where
  legal := by decide
  tap_lt := by decide
  feedback x := by simp [feedbackBit, parity, parityBelow, Variant.ti, Bool.xor_comm]

section
variable {v : Variant} {t : Nat} (h : TwoTaps v t)
include h

/-- N white shifts are the XOR of none and `t`. -/
theorem TwoTaps.iterate_lfsrBits {x : BitVec 16} (hx : x.toNat < 2 ^ v.lfsrBits) :
    (lfsrShift v true)^[v.lfsrBits] x = x ^^^ (lfsrShift v true)^[t] x := by
  obtain ⟨hv, ht, hfeedback⟩ := h
  have hlt (n : Nat) := lfsrShift_iterate_toNat_lt hv true n hx
  refine eq_of_getLsbD_eq_below (hlt _) ?_ fun j hj => ?_
  · rw [BitVec.toNat_xor]
    exact Nat.xor_lt_two_pow hx (hlt t)
  · have hsplit : v.lfsrBits = v.lfsrBits - 1 - j + (j + 1) := by omega
    have hzero (y : BitVec 16) {n : Nat} (hn : n < v.lfsrBits) :
        y.getLsbD n = ((lfsrShift v true)^[n] y).getLsbD 0 := by
      rw [getLsbD_lfsrShift_iterate hv true y (by omega), Nat.zero_add]
    calc ((lfsrShift v true)^[v.lfsrBits] x).getLsbD j
        = (lfsrShift v true ((lfsrShift v true)^[j] x)).getLsbD (v.lfsrBits - 1) := by
          rw [hsplit, Function.iterate_add_apply, getLsbD_lfsrShift_iterate hv true _ (by omega),
            Function.iterate_succ_apply', ← hsplit, Nat.add_sub_cancel' (by omega)]
      _ = xor (((lfsrShift v true)^[j] x).getLsbD 0) (((lfsrShift v true)^[j] x).getLsbD t) := by
          rw [getLsbD_lfsrShift_top hv true (hlt j), hfeedback]
      _ = (x ^^^ (lfsrShift v true)^[t] x).getLsbD j := by
          rw [BitVec.getLsbD_xor, hzero x hj, hzero ((lfsrShift v true)^[t] x) hj, hzero _ ht,
            ← Function.iterate_add_apply, ← Function.iterate_add_apply, Nat.add_comm t j]

/-- The same at each power of 2: squaring the relation, its cross terms cancel. -/
theorem TwoTaps.iterate_lfsrBits_mul (k : Nat) {x : BitVec 16} (hx : x.toNat < 2 ^ v.lfsrBits) :
    (lfsrShift v true)^[v.lfsrBits * 2 ^ k] x = x ^^^ (lfsrShift v true)^[t * 2 ^ k] x := by
  induction k generalizing x with
  | zero => rw [Nat.pow_zero, Nat.mul_one, Nat.mul_one]; exact h.iterate_lfsrBits hx
  | succ k ih =>
    have hlt (n : Nat) := lfsrShift_iterate_toNat_lt h.legal true n hx
    have hdouble (n : Nat) (y : BitVec 16) : (lfsrShift v true)^[n * 2 ^ (k + 1)] y =
        (lfsrShift v true)^[n * 2 ^ k] ((lfsrShift v true)^[n * 2 ^ k] y) := by
      rw [← Function.iterate_add_apply]; congr 1; ring
    rw [hdouble, hdouble, ih (hlt _), ← Function.iterate_add_apply, Nat.add_comm, Function.iterate_add_apply,
      ih (hlt _), ih hx, BitVec.xor_assoc, ← BitVec.xor_assoc ((lfsrShift v true)^[t * 2 ^ k] x), BitVec.xor_self,
      BitVec.zero_xor]

end

/-! ## Many shifts at once -/

/-- `n` white shifts of `x`, by as few single shifts as `TwoTaps.iterate_lfsrBits_mul` leaves. -/
def whiteJump (v : Variant) (t : Nat) : Nat → Nat → BitVec 16 → BitVec 16
  | 0, n, x => (lfsrShift v true)^[n] x
  | fuel + 1, n, x =>
    if n < v.lfsrBits then (lfsrShift v true)^[n] x
    else
      let q := 2 ^ (n / v.lfsrBits).log2
      let y := whiteJump v t fuel (n - v.lfsrBits * q) x
      y ^^^ whiteJump v t fuel (t * q) y

theorem whiteJump_eq {v : Variant} {t : Nat} (h : TwoTaps v t) (fuel n : Nat) {x : BitVec 16}
    (hx : x.toNat < 2 ^ v.lfsrBits) : whiteJump v t fuel n x = (lfsrShift v true)^[n] x := by
  induction fuel generalizing n x with
  | zero => rfl
  | succ fuel ih =>
    rw [whiteJump]
    split
    · rfl
    · rename_i hge
      have hN := lfsrBits_pos h.legal
      have hq : v.lfsrBits * 2 ^ (n / v.lfsrBits).log2 ≤ n := by
        refine le_trans (Nat.mul_le_mul_left _ (Nat.log2_self_le ?_)) (Nat.mul_div_le n _)
        exact (Nat.div_pos (by omega) hN).ne'
      have hlt := lfsrShift_iterate_toNat_lt h.legal true (n - v.lfsrBits * 2 ^ (n / v.lfsrBits).log2) hx
      dsimp only
      rw [ih _ hx, ih _ hlt, ← h.iterate_lfsrBits_mul _ hlt, ← Function.iterate_add_apply, Nat.add_sub_cancel' hq]

/-! ## Least periods -/

/-- A period that no prime divides out of is the least. -/
theorem minimalPeriod_eq_of_forall_prime {α : Type*} {f : α → α} {x : α} {n : Nat} (hn : 0 < n)
    (hper : f^[n] x = x) (hprime : ∀ p ∈ n.primeFactorsList, f^[n / p] x ≠ x) :
    Function.minimalPeriod f x = n := by
  obtain ⟨a, ha⟩ : Function.minimalPeriod f x ∣ n := Function.IsPeriodicPt.minimalPeriod_dvd hper
  by_contra hne
  have ha1 : a ≠ 1 := by
    rintro rfl
    exact hne (by rw [ha, Nat.mul_one])
  obtain ⟨p, hp, b, rfl⟩ := Nat.exists_prime_and_dvd ha1
  have hpn : n = p * (Function.minimalPeriod f x * b) := by rw [Nat.mul_left_comm]; exact ha
  refine hprime p ((Nat.mem_primeFactorsList hn.ne').2 ⟨hp, _, hpn⟩) ?_
  rw [Nat.div_eq_of_eq_mul_right hp.pos hpn]
  exact (Function.isPeriodicPt_minimalPeriod f x).mul_const b

/-- `n` is the least period from the initial value, when the jumps say so. -/
theorem TwoTaps.minimalPeriod_eq {v : Variant} {t : Nat} (h : TwoTaps v t) (fuel : Nat) {n : Nat} (hn : 0 < n)
    (hper : whiteJump v t fuel n (lfsrInitial v) = lfsrInitial v)
    (hprime : ∀ p ∈ n.primeFactorsList, whiteJump v t fuel (n / p) (lfsrInitial v) ≠ lfsrInitial v) :
    Function.minimalPeriod (lfsrShift v true) (lfsrInitial v) = n := by
  have hx := lfsrInitial_toNat_lt h.legal
  refine minimalPeriod_eq_of_forall_prime hn ?_ fun p hp => ?_
  · rw [← whiteJump_eq h fuel n hx]; exact hper
  · rw [← whiteJump_eq h fuel (n / p) hx]; exact hprime p hp

/-- Settles O25: the jumps of 57337 and 32767 shifts come back; those of a number divided by one of its
primes do not. -/
theorem whiteNoisePeriods : Obligations.WhiteNoisePeriods := by
  refine ⟨twoTaps_sega.minimalPeriod_eq 16 (by decide) (by decide) ?_,
    twoTaps_ti.minimalPeriod_eq 16 (by decide) (by decide) ?_⟩
  · rw [show Nat.primeFactorsList 57337 = [7, 8191] by simp]; decide
  · rw [show Nat.primeFactorsList 32767 = [7, 31, 151] by simp]; decide

end Sys2Proof.Machine
end

section
/-! The volume table, the mixer and the gain (43_mixer_volume.md R81 to R86): the sum of the four levels is a positive
finite pattern of at most 4.0, which the gain multiplies with its own sign. -/

namespace Sys2Proof.Machine

/-! ## Binary32 patterns -/

/-- R85, D14: an exponent field that is not all ones is a magnitude below infinity. -/
theorem f32Finite_iff_gainLegal {g : F32} : f32Finite g = true ↔ gainLegal g := by
  have hfield : (g.extractLsb' 23 8).toNat = g.toNat / 2 ^ 23 % 2 ^ 8 := by
    rw [BitVec.extractLsb'_toNat, Nat.shiftRight_eq_div_pow]
  have hinf : infMag binary32 = 255 * 2 ^ 23 := by decide
  have hsign : signWeight binary32 = 2 ^ 31 := by decide
  have h255 : (0xFF#8 : BitVec 8).toNat = 255 := rfl
  rw [gainLegal, ne_eq, ← BitVec.toNat_inj, hfield, h255, f32Finite, isFinite, decide_eq_true_eq, magnitude, hinf,
    hsign]
  omega

/-- The sign of a binary32 is its bit 31. -/
theorem isNegative_binary32 (x : F32) : isNegative binary32 x.toNat = x.getLsbD 31 :=
  Nat.testBit_eq_decide_div_mod_eq.symm

/-- A magnitude is a binary32 pattern. -/
theorem toNat_ofNat_of_le_infMag {m : Nat} (h : m ≤ infMag binary32) : (BitVec.ofNat 32 m).toNat = m :=
  (BitVec.toNat_ofNat _ _).trans
    (Nat.mod_eq_of_lt (packFloat_lt binary32 false (Nat.lt_of_le_of_lt h (infMag_lt_signWeight _))))

/-- A pattern of at most the positive infinity is neither negative nor a NaN. -/
theorem unipolar_of_le_infMag {x : F32} (h : x.toNat ≤ infMag binary32) :
    x.getLsbD 31 = false ∧ isNaN binary32 x.toNat = false := by
  have hw := Nat.lt_of_le_of_lt h (infMag_lt_signWeight binary32)
  have hmag : magnitude binary32 x.toNat = x.toNat := magnitude_packFloat binary32 false hw
  refine ⟨isNegative_binary32 x ▸ isNegative_packFloat binary32 false hw, ?_⟩
  rw [isNaN, hmag, decide_eq_false_iff_not]
  exact Nat.not_lt.2 h

/-! ## Adding and multiplying positive patterns -/

theorem units_of_lt_infMag {f : FloatFormat} {x : Nat} (h : x < infMag f) : units f x = magUnits f x := by
  obtain ⟨-, hneg, hmag⟩ := positive_of_lt_infMag h
  simp [units, hneg, hmag]

theorem roundUnits_zero (f : FloatFormat) {den : Nat} (h : 0 < den) : roundUnits f 0 den = 0 := by
  simpa using roundUnits_exact f (m := 0) h (Nat.zero_le _)

theorem packFloat_false (f : FloatFormat) (m : Nat) : packFloat f false m = m := rfl

/-- The sum of positive finite patterns is the rounding of the sum of their values. -/
theorem addBits_of_lt_infMag {f : FloatFormat} {x y : Nat} (hx : x < infMag f) (hy : y < infMag f) (nan : Nat) :
    addBits f nan x y = roundUnits f (magUnits f x + magUnits f y) 1 := by
  obtain ⟨hxfin, hxneg, -⟩ := positive_of_lt_infMag hx
  obtain ⟨hyfin, -, -⟩ := positive_of_lt_infMag hy
  rw [addBits_of_finite hxfin hyfin, units_of_lt_infMag hx, units_of_lt_infMag hy, hxneg, ← Nat.cast_add,
    Int.natAbs_natCast]
  split
  case isTrue hzero => rw [Int.natCast_eq_zero.1 hzero, roundUnits_zero f Nat.one_pos, Bool.false_and, packFloat_false]
  case isFalse => rw [decide_eq_false (by omega), packFloat_false]

theorem f32add_toNat {x y : F32} (hx : x.toNat < infMag binary32) (hy : y.toNat < infMag binary32) :
    (f32add x y).toNat = roundUnits binary32 (magUnits binary32 x.toNat + magUnits binary32 y.toNat) 1 := by
  rw [f32add, addBits_of_lt_infMag hx hy, toNat_ofNat_of_le_infMag (roundUnits_le_infMag _ _ _)]

/-- Addition is monotone on positive finite patterns. -/
theorem f32add_mono {x y a b : F32} (hx : x.toNat ≤ a.toNat) (hy : y.toNat ≤ b.toNat) (ha : a.toNat < infMag binary32)
    (hb : b.toNat < infMag binary32) : (f32add x y).toNat ≤ (f32add a b).toNat := by
  rw [f32add_toNat (Nat.lt_of_le_of_lt hx ha) (Nat.lt_of_le_of_lt hy hb), f32add_toNat ha hb]
  exact roundUnits_mono _ (Nat.add_le_add ((magUnits_le_iff _).2 hx) ((magUnits_le_iff _).2 hy))

/-- The product of a positive finite pattern and a finite one has the second one's sign. -/
theorem f32mul_of_lt_infMag {x g : F32} (hx : x.toNat < infMag binary32) (hg : gainLegal g) :
    f32mul x g = BitVec.ofNat 32 (packFloat binary32 (g.getLsbD 31) (roundUnits binary32
      (magUnits binary32 x.toNat * magUnits binary32 (magnitude binary32 g.toNat)) (2 ^ unitShift binary32))) := by
  obtain ⟨hxfin, hxneg, hxmag⟩ := positive_of_lt_infMag hx
  rw [f32mul, mulBits_of_finite hxfin (f32Finite_iff_gainLegal.2 hg), hxneg, hxmag, isNegative_binary32, Bool.false_bne]

/-- The product of +0.0 and a finite value is a zero with that value's sign. -/
theorem f32mul_zero_left {g : F32} (hg : gainLegal g) : f32mul 0 g = if g.getLsbD 31 then 0x80000000 else 0 := by
  have hzero : (0 : F32).toNat = 0 := rfl
  rw [f32mul_of_lt_infMag (by decide) hg, hzero, magUnits_zero, Nat.zero_mul, roundUnits_zero _ (Nat.two_pow_pos _)]
  cases g.getLsbD 31 <;> rfl

/-! ## The levels and their sum -/

/-- R83: what a channel contributes. -/
theorem level_eq (s : State) (c : Fin 4) :
    level s c = if outputBit s c then volumeTable[s.volume[c].toNat] else 0 := rfl

/-- A LOW output, or one at volume 15, contributes +0.0. -/
theorem level_of_silent {s : State} {c : Fin 4} (h : outputBit s c = false ∨ s.volume[c] = 15) : level s c = 0 := by
  rw [level]
  split
  case isTrue hhigh =>
    rw [h.resolve_left (by simp [hhigh])]
    rfl
  case isFalse => rfl

/-- A HIGH output at volume 0 contributes 1.0. -/
theorem level_of_full {s : State} {c : Fin 4} (h : outputBit s c = true ∧ s.volume[c] = 0) :
    level s c = 0x3F800000 := by
  obtain ⟨hhigh, hvol⟩ := h
  rw [level, if_pos hhigh, hvol]
  rfl

/-- R81: no level is above 1.0. -/
theorem level_le_one (s : State) (c : Fin 4) : (level s c).toNat ≤ (0x3F800000 : F32).toNat := by
  have htable : ∀ x ∈ volumeTable.toList, x.toNat ≤ (0x3F800000 : F32).toNat := by simp [volumeTable]
  exact htable _ (level_mem_volumeTable s c)

/-- R84: four values added in channel order. -/
def channelSum (l0 l1 l2 l3 : F32) : F32 := f32add (f32add (f32add l0 l1) l2) l3

theorem sampleValue_eq (s : State) :
    sampleValue s = f32mul (channelSum (level s 0) (level s 1) (level s 2) (level s 3)) s.gain := rfl

theorem channelSum_zero : channelSum 0 0 0 0 = 0 := by decide

/-- Four times 1.0 is 4.0: no addition rounds. -/
theorem channelSum_one : channelSum 0x3F800000 0x3F800000 0x3F800000 0x3F800000 = 0x40800000 := by decide

/-- R86: the sum of levels is at most 4.0, and so positive and finite. -/
theorem channelSum_level_lt_infMag (s : State) :
    (channelSum (level s 0) (level s 1) (level s 2) (level s 3)).toNat < infMag binary32 := by
  have hone : (0x3F800000 : F32).toNat < infMag binary32 := by decide
  have htwo : (f32add 0x3F800000 0x3F800000).toNat < infMag binary32 := by decide
  have hthree : (f32add (f32add 0x3F800000 0x3F800000) 0x3F800000).toNat < infMag binary32 := by decide
  have h01 := f32add_mono (level_le_one s 0) (level_le_one s 1) hone hone
  have h012 := f32add_mono h01 (level_le_one s 2) htwo hone
  have hsum : (channelSum (level s 0) (level s 1) (level s 2) (level s 3)).toNat ≤
      (channelSum 0x3F800000 0x3F800000 0x3F800000 0x3F800000).toNat :=
    f32add_mono h012 (level_le_one s 3) hthree hone
  rw [channelSum_one] at hsum
  exact Nat.lt_of_le_of_lt hsum (by decide)

/-! ## The statements -/

/-- Settles O28: every level is +0.0, so is their sum, and the product takes the gain's sign. -/
theorem silentSampleIsAZero : Obligations.SilentSampleIsAZero := by
  intro s hgain hsilent
  have hlevel (c : Fin 4) : level s c = 0 := level_of_silent (hsilent c)
  rw [sampleValue_eq, hlevel, hlevel, hlevel, hlevel, channelSum_zero]
  exact f32mul_zero_left hgain

/-- Settles O30: the sum is positive and finite, so its product with a positive gain is a rounded magnitude. -/
theorem mixIsUnipolar : Obligations.MixIsUnipolar := by
  intro s hgain hsign
  refine unipolar_of_le_infMag ?_
  rw [sampleValue_eq, f32mul_of_lt_infMag (channelSum_level_lt_infMag s) hgain, hsign, packFloat_false,
    toNat_ofNat_of_le_infMag (roundUnits_le_infMag _ _ _)]
  exact roundUnits_le_infMag _ _ _

/-- Settles O29: every level is 1.0, and four of them are exactly 4.0. -/
theorem fullScaleSampleIsFourTimesTheGain : Obligations.FullScaleSampleIsFourTimesTheGain := by
  intro s hfull
  have hlevel (c : Fin 4) : level s c = 0x3F800000 := level_of_full (hfull c)
  rw [sampleValue_eq, hlevel, hlevel, hlevel, hlevel, channelSum_one]

/-- Settles O27: the four levels are R83's, and `sample()` only returns. -/
theorem sampleReturnsTheGainedSum : Obligations.SampleReturnsTheGainedSum := fun s =>
  ⟨level s 0, level s 1, level s 2, level s 3, level_eq s 0, level_eq s 1, level_eq s 2, level_eq s 3, rfl⟩

/-- Settles O31: the guard of `set_gain` is finiteness. -/
theorem gainIsStoredBitForBit : Obligations.GainIsStoredBitForBit := by
  intro g s
  refine ⟨fun hfin => ?_, fun hnot => ?_, rfl⟩
  · exact if_pos (f32Finite_iff_gainLegal.1 hfin)
  · refine if_neg fun hlegal => ?_
    rw [f32Finite_iff_gainLegal.2 hlegal] at hnot
    cases hnot

/-- Settles O26: the table is sixteen constants, so each clause is a finite list of comparisons of integers. -/
theorem volumeTableIsTheRoundedPower : Obligations.VolumeTableIsTheRoundedPower := by
  refine ⟨rfl, ?_, ?_⟩
  · decide
  · decide

end Sys2Proof.Machine
end

section
/-! One sample clock, the emission and the run (44_resampler.md R87 to R91, R95): what a run does to `buffer_pos`, to the
stored elements and to the dropped count, clock by clock. -/

namespace Sys2Proof.Machine

/-! ## One emission (R88) -/

theorem emit_of_lt {s : State} (h : s.bufferPos < s.config.bufferCapacity) :
    emit s = ({ s with chBuf := writeLevels s, bufferPos := s.bufferPos + 1 }, 0) := if_pos h

theorem emit_of_le {s : State} (h : s.config.bufferCapacity ≤ s.bufferPos) : emit s = (s, 1) :=
  if_neg (Nat.not_lt.2 h)

/-- R88: the element at `buffer_pos` is the channel's level, every other is as it was. -/
theorem read_writeLevels {s : State} {c : Fin 4} (h : s.chBuf[c].wf) (k : Nat) :
    Memory.read (writeLevels s)[c] k = if k = s.bufferPos then level s c else Memory.read s.chBuf[c] k := by
  rw [writeLevels_get, Memory.read_write h]

/-- Settles O35, by the two branches of an emission. -/
theorem emissionAppendsOrDrops : Obligations.EmissionAppendsOrDrops := by
  rintro s ⟨hch, -⟩
  refine ⟨fun hlt => ?_, emit_of_le⟩
  rw [emit_of_lt hlt]
  exact ⟨rfl, fun c => read_writeLevels (hch c).1, rfl⟩

/-! ## One sample clock (R87) -/

theorem sampleClock_of_emits {s : State} (h : emits s = true) :
    sampleClock s =
      emit { clockStep s with clockCounter := f64sub (counterAfterAdd s) (clocksPerSample s.config) } := by
  rcases sampleClock_cases s with ⟨-, he⟩ | ⟨hn, -⟩
  · rw [he, clockedState, counterAfterClock, if_pos h]
  · exact absurd h (by simp [hn])

theorem sampleClock_of_not_emits {s : State} (h : emits s = false) :
    sampleClock s = ({ clockStep s with clockCounter := counterAfterAdd s }, 0) := by
  rcases sampleClock_cases s with ⟨hn, -⟩ | ⟨-, he⟩
  · exact absurd hn (by simp [h])
  · rw [he, clockedState, counterAfterClock, if_neg (by simp [h])]

/-- Settles O34, by the two branches of a sample clock. -/
theorem sampleClockAdvancesThenEmits : Obligations.SampleClockAdvancesThenEmits := fun _ =>
  ⟨sampleClock_of_emits, sampleClock_of_not_emits⟩

/-! ## `buffer_pos` in a run (R26, R88) -/

theorem bufferPos_le_sampleClock (s : State) : s.bufferPos ≤ (sampleClock s).1.bufferPos := by
  rcases sampleClock_bufferPos s with ⟨-, -, h, -⟩ | ⟨-, -, h, -⟩ | ⟨-, h, -⟩ <;> omega

theorem bufferPos_le_runClocks (n : Nat) (s : State) : s.bufferPos ≤ (runClocks n s).1.bufferPos :=
  runClocks_keeps (P := fun u => s.bufferPos ≤ u.bufferPos)
    (fun u hu => hu.trans (bufferPos_le_sampleClock u)) n s le_rfl

theorem sampleClock_bufferPos_le {s : State} (h : s.bufferPos ≤ s.config.bufferCapacity) :
    (sampleClock s).1.bufferPos ≤ s.config.bufferCapacity := by
  rcases sampleClock_bufferPos s with ⟨-, hlt, h', -⟩ | ⟨-, -, h', -⟩ | ⟨-, h', -⟩ <;> omega

theorem runClocks_bufferPos_le {s : State} (h : s.bufferPos ≤ s.config.bufferCapacity) (n : Nat) :
    (runClocks n s).1.bufferPos ≤ s.config.bufferCapacity := by
  have hkeep := runClocks_keeps (P := fun u => u.bufferPos ≤ u.config.bufferCapacity)
    (fun u hu => by rw [sampleClock_config]; exact sampleClock_bufferPos_le hu) n s h
  rwa [runClocks_config] at hkeep

/-- A clock drops only with the buffers full, and they stay full for the rest of the run. -/
theorem runClocks_full_of_dropped {n : Nat} {s : State} (h : s.bufferPos ≤ s.config.bufferCapacity)
    (hd : 0 < (runClocks n s).2) : (runClocks n s).1.bufferPos = s.config.bufferCapacity := by
  induction n generalizing s with
  | zero => exact absurd hd (Nat.lt_irrefl 0)
  | succ n ih =>
    have hpos : (sampleClock s).1.bufferPos ≤ (sampleClock s).1.config.bufferCapacity := by
      rw [sampleClock_config]
      exact sampleClock_bufferPos_le h
    have hlow := bufferPos_le_runClocks n (sampleClock s).1
    have hhigh := runClocks_bufferPos_le hpos n
    have hrest := ih hpos
    rw [sampleClock_config] at hhigh hrest
    simp only [runClocks_succ] at hd ⊢
    rcases sampleClock_bufferPos s with ⟨-, -, -, hstored⟩ | ⟨-, hfull, hsame, -⟩ | ⟨-, -, hnone⟩
    · exact hrest (by omega)
    · omega
    · exact hrest (by omega)

/-! ## Counting emissions (R88) -/

@[simp] theorem emissions_zero (s : State) : emissions s (runClocks 0 s).1 (runClocks 0 s).2 = 0 := by
  simp [emissions]

/-- A run emits at its first clock if that clock emits, and then as its rest does. -/
theorem emissions_succ (n : Nat) (s : State) :
    emissions s (runClocks (n + 1) s).1 (runClocks (n + 1) s).2 =
      (emits s).toNat +
        emissions (sampleClock s).1 (runClocks n (sampleClock s).1).1 (runClocks n (sampleClock s).1).2 := by
  have hmono := bufferPos_le_runClocks n (sampleClock s).1
  simp only [runClocks_succ, emissions]
  rcases sampleClock_bufferPos s with ⟨he, -, hp, hd⟩ | ⟨he, -, hp, hd⟩ | ⟨he, hp, hd⟩ <;>
    rw [he, hd] <;> simp only [Bool.toNat_true, Bool.toNat_false] <;> omega

theorem emissions_le (n : Nat) (s : State) : emissions s (runClocks n s).1 (runClocks n s).2 ≤ n := by
  induction n generalizing s with
  | zero => rw [emissions_zero]
  | succ n ih =>
    have hone := Bool.toNat_le (emits s)
    have hrest := ih (sampleClock s).1
    rw [emissions_succ]
    omega

/-! ## The elements below `buffer_pos` (R27) -/

/-- An emission writes at `buffer_pos`, so what is stored below it stays. -/
theorem sampleClock_keeps_elements {s : State} {c : Fin 4} (h : s.chBuf[c].wf) :
    (sampleClock s).1.chBuf[c].wf ∧
      ∀ k < s.bufferPos, Memory.read (sampleClock s).1.chBuf[c] k = Memory.read s.chBuf[c] k := by
  rcases sampleClock_chBuf s with he | ⟨-, he⟩ <;> rw [he]
  · exact ⟨h, fun _ _ => rfl⟩
  · have hch : (clockedState s).chBuf = s.chBuf := clockStep_chBuf s
    have hp : (clockedState s).bufferPos = s.bufferPos := clockStep_bufferPos s
    refine ⟨?_, fun k hk => ?_⟩
    · rw [writeLevels_get, hch]
      exact Memory.wf_write h _ _
    · rw [read_writeLevels (hch ▸ h), hp, if_neg (by omega), hch]

theorem runClocks_keeps_elements {s : State} {c : Fin 4} (h : s.chBuf[c].wf) (n : Nat) {k : Nat}
    (hk : k < s.bufferPos) : Memory.read (runClocks n s).1.chBuf[c] k = Memory.read s.chBuf[c] k := by
  refine (runClocks_keeps (P := fun u => u.chBuf[c].wf ∧ k < u.bufferPos ∧
    Memory.read u.chBuf[c] k = Memory.read s.chBuf[c] k) ?_ n s ⟨h, hk, rfl⟩).2.2
  rintro u ⟨hwf, hlt, hread⟩
  obtain ⟨hwf', hkeep⟩ := sampleClock_keeps_elements hwf
  exact ⟨hwf', hlt.trans_le (bufferPos_le_sampleClock u), (hkeep k hlt).trans hread⟩

/-! ## The statements -/

/-- Settles O37, clause by clause: each is an induction over the clocks of the run. -/
theorem runFillsThenDrops : Obligations.RunFillsThenDrops := by
  rintro n s t d ⟨hch, -⟩ hpos hn hrun hd
  rw [perform_run hn] at hrun
  cases hrun
  cases hd
  exact ⟨bufferPos_le_runClocks n s, runClocks_bufferPos_le hpos n, emissions_le n s,
    runClocks_full_of_dropped hpos, fun c _ => runClocks_keeps_elements (hch c).1 n⟩

/-- Settles O36: runs compose, and the second run does not read the result of the first. -/
theorem splitRunsEqualOneRun : Obligations.SplitRunsEqualOneRun := by
  intro a b s h
  have hb := perform_run (n := b) (by omega) ((runClocks a s).1.ret (.dropped (runClocks a s).2))
  rw [runClocks_ret] at hb
  refine ⟨_, _, _, _, perform_run (by omega) s, rfl, hb, rfl, ?_⟩
  rw [perform_run h, runClocks_add]
  rfl

/-- R111, D24: a count that the interface does not accept. -/
theorem perform_run_of_not_legal {n : Int} (h : ¬ clockCountLegal n) (s : State) :
    perform (.run n) s = .refused (.illegalClockCount n) := by
  rw [perform, doRun, clockCount_eq_none.2 h]

/-- Settles O38: `generate_samples` is defined as the run from the reset buffer. -/
theorem generateSamplesIsResetThenRun : Obligations.GenerateSamplesIsResetThenRun := by
  intro n s
  refine ⟨rfl, rfl, fun ⟨h0, hmax⟩ => ?_, fun h => perform_run_of_not_legal (by omega) s, rfl⟩
  obtain ⟨m, rfl⟩ := Int.eq_ofNat_of_zero_le h0
  exact ⟨_, perform_run (by omega) s⟩

end Sys2Proof.Machine
end

section
/-! The buffer accessors and the constant accessors (44_resampler.md R92 to R94, 45_snapshot_introspection.md R97, R105):
what is returned, and that the mixed buffer, once computed, is computed the same again. -/

namespace Sys2Proof.Machine

/-! ## Channel buffers (R92) -/

/-- Settles O39: the view is the list of the first elements. -/
theorem channelBufferReturnsTheValidElements : Obligations.ChannelBufferReturnsTheValidElements := by
  intro s
  refine ⟨fun c => ⟨Memory.firstElements s.chBuf[c] s.bufferPos, ?_, Memory.firstElements_length _ _,
    fun k hk => Memory.firstElements_getElem? _ hk⟩, fun ch hch => ?_⟩
  · rw [perform, doChannelBuffer, channelIndex_val]
    rfl
  · rw [perform, doChannelBuffer, channelIndex_eq_none.2 (by omega)]

/-! ## The mixed buffer (R93) -/

/-- The buffer that holds the mixed elements already is not changed by computing them again. -/
theorem mixedBelow_mixedBelow {s : State} (h : s.mixBuf.wf) (n : Nat) :
    mixedBelow { s with mixBuf := mixedBelow s n } n = mixedBelow s n := by
  have hwf : (mixedBelow s n).wf := mixedBelow_wf h n
  refine Memory.eq_of_read (mixedBelow_wf hwf n) hwf fun k => ?_
  rw [read_mixedBelow (s := { s with mixBuf := mixedBelow s n }) hwf, read_mixedBelow h]
  split <;> rfl

/-- The mixed buffer reads the channel buffers, the gain and itself. -/
theorem mixedBelow_ret (s : State) (r : Result) (n : Nat) : mixedBelow (s.ret r) n = mixedBelow s n := by
  induction n with
  | zero => rfl
  | succ n ih => rw [mixedBelow, mixedBelow, ih]; rfl

/-- Settles O40: the elements are those of `mixedBelow`, and computing them twice gives the same buffer. -/
theorem mixedBufferRecomputesTheValidElements : Obligations.MixedBufferRecomputesTheValidElements := by
  rintro s ⟨-, hmix, -⟩
  refine ⟨_, Memory.firstElements (mixedBelow s s.bufferPos) s.bufferPos, rfl, rfl, Memory.firstElements_length _ _,
    fun k hk => ⟨Memory.firstElements_getElem? _ hk, ?_⟩, fun k hk => ?_, rfl, ?_⟩
  · exact (read_mixedBelow hmix _ k).trans (if_pos hk)
  · exact (read_mixedBelow hmix _ k).trans (if_neg (by omega))
  · simp only [perform, doMixedBuffer, mixedBelow_ret, ret_bufferPos, mixedBelow_mixedBelow hmix]
    rfl

/-- Settles O41: the elements at the emitted position are the levels, and the gain is the same. -/
theorem mixedElementIsTheSampleAtEmission : Obligations.MixedElementIsTheSampleAtEmission := by
  rintro s ⟨hch, -⟩ hlt
  have hread (c : Fin 4) : Memory.read (writeLevels s)[c] s.bufferPos = level s c :=
    (read_writeLevels (hch c).1 _).trans (if_pos rfl)
  rw [emit_of_lt hlt, sampleValue, ← hread, ← hread, ← hread, ← hread]
  rfl

/-! ## Constants (R94, R97, R105) -/

/-- R94's example. -/
theorem f64div_standard_rates : f64div (toF64 3579545) (toF64 48000) = 0x4052A4BA06D3A06D := by decide +kernel

/-- Settles O44: each accessor returns its value by definition. -/
theorem constantAccessorsReturnTheirValues : Obligations.ConstantAccessorsReturnTheirValues := by
  intro s
  refine ⟨rfl, fun hclock hrate => ?_, rfl, rfl⟩
  rw [perform, doClocksPerSample, clocksPerSample, hclock, hrate, f64div_standard_rates]
  rfl

end Sys2Proof.Machine
end

section
/-! The accumulator at whole numbers (44_resampler.md R87, R96): integers below 2^53 are exact in binary64, so at an
integer ratio it counts clocks, and at a ratio of at most 1.0 every clock reaches it. -/

namespace Sys2Proof.Machine

/-! ## Integers in binary64 -/

/-- An integer below 2^53 is the value of a magnitude: its significand is shifted up to 53 bits. -/
theorem exists_magUnits_eq_natCast {n : Nat} (h : n < 2 ^ 53) :
    ∃ m < infMag binary64, magUnits binary64 m = n * 2 ^ unitShift binary64 := by
  rcases Nat.eq_zero_or_pos n with rfl | hpos
  · exact ⟨0, by decide, by rw [magUnits_zero, Nat.zero_mul]⟩
  · have hbits : Nat.log 2 n ≤ 52 := Nat.lt_succ_iff.1 (Nat.log_lt_of_lt_pow hpos.ne' h)
    obtain ⟨j, hj⟩ := Nat.exists_eq_add_of_le hbits
    have hlog : Nat.log 2 (n * 2 ^ j) = 52 := by rw [log_mul_two_pow hpos, ← hj]
    obtain ⟨hlow, hhigh⟩ := (Nat.log_eq_iff (.inl (by decide))).1 hlog
    have hfrac : binary64.fracBits = 52 := rfl
    refine ⟨(1074 - j) * 2 ^ binary64.fracBits + n * 2 ^ j, ?_, ?_⟩
    · have hinf : infMag binary64 = 2047 * 2 ^ 52 := by decide
      rw [hinf, hfrac]
      omega
    · have hshift : unitShift binary64 = j + (1074 - j) := by
        have hunit : unitShift binary64 = 1074 := by decide
        omega
      rw [magUnits_shift binary64 (by rw [hfrac]; omega) (.inr hlow), hshift, pow_add, Nat.mul_assoc]

/-- `toF64` is exact below 2^53. -/
theorem toF64_exact {n : Nat} (h : n < 2 ^ 53) :
    (toF64 n).toNat < infMag binary64 ∧ magUnits binary64 (toF64 n).toNat = n * 2 ^ unitShift binary64 := by
  obtain ⟨m, hm, hval⟩ := exists_magUnits_eq_natCast h
  have hround : (toF64 n).toNat = m := by
    rw [toF64_toNat, ← hval, ← Nat.mul_one (magUnits binary64 m), roundUnits_exact binary64 Nat.one_pos hm.le]
  rw [hround]
  exact ⟨hm, hval⟩

@[simp] theorem toF64_zero : toF64 0 = 0 := by
  rw [toF64, Nat.zero_mul, roundUnits_zero binary64 Nat.one_pos]
  rfl

/-! ## The resampler's operations on integers -/

theorem f64add_toF64_one {n : Nat} (h : n < 2 ^ 53) : f64add (toF64 n) f64One = toF64 (n + 1) := by
  obtain ⟨hlt, hval⟩ := toF64_exact h
  rw [f64add, addBits_of_lt_infMag hlt (by decide), hval, magUnits_f64One, ← Nat.succ_mul, toF64]

theorem f64ge_toF64 {m n : Nat} (hm : m < 2 ^ 53) (hn : n < 2 ^ 53) :
    f64ge (toF64 m) (toF64 n) = decide (n ≤ m) := by
  obtain ⟨hmlt, hmval⟩ := toF64_exact hm
  obtain ⟨hnlt, hnval⟩ := toF64_exact hn
  rw [f64ge, geBits_of_finite (positive_of_lt_infMag hmlt).1 (positive_of_lt_infMag hnlt).1,
    units_of_lt_infMag hmlt, units_of_lt_infMag hnlt, hmval, hnval, decide_eq_decide, Int.ofNat_le,
    Nat.mul_le_mul_right_iff (Nat.two_pow_pos _)]

/-- The difference of equal finite values is +0.0 (D9). -/
theorem f64sub_self {x : F64} (h : x.toNat < infMag binary64) : f64sub x x = 0 := by
  obtain ⟨hfin, hneg, -⟩ := positive_of_lt_infMag h
  rw [f64sub, subBits_of_finite hfin, addBits_of_finite hfin (negateBits_isFinite hfin), units_negateBits,
    if_pos (add_neg_cancel _), hneg, Bool.false_and, packFloat_false, BitVec.ofNat_eq_ofNat]

/-! ## Clocks per sample (R10) -/

theorem parameter_lt {n : Nat} (h : parameterLegal n) : n < 2 ^ 53 := by
  have := h.2
  omega

theorem sampleRate_pos {c : Config} (hc : c.legal) : 0 < c.sampleRate := by
  obtain ⟨-, ⟨hrate, -⟩, -⟩ := hc
  omega

/-- R10: both rates are exact, so `clocks_per_sample` is their quotient rounded once. -/
theorem clocksPerSample_toNat {c : Config} (hc : c.legal) :
    (clocksPerSample c).toNat = roundUnits binary64
      (c.clockFreq * 2 ^ unitShift binary64 * 2 ^ unitShift binary64) (c.sampleRate * 2 ^ unitShift binary64) := by
  obtain ⟨hclock, hrate, -⟩ := hc
  obtain ⟨hnum, hnval⟩ := toF64_exact (parameter_lt hclock)
  obtain ⟨hden, hdval⟩ := toF64_exact (parameter_lt hrate)
  obtain ⟨hnfin, hnneg, hnmag⟩ := positive_of_lt_infMag hnum
  obtain ⟨hdfin, hdneg, hdmag⟩ := positive_of_lt_infMag hden
  have hone : f64One.toNat ≤ (toF64 c.sampleRate).toNat := (toF64_bounds hrate).1
  have hone0 : f64One.toNat ≠ 0 := by decide
  rw [clocksPerSample, f64div, divBits_of_finite hnfin hdfin (by omega), hnneg, hdneg, hnmag, hdmag, hnval, hdval,
    bne_self_eq_false, toNat_ofNat_packFloat false (roundUnits_lt_signWeight _ _ _), packFloat_false]

/-- R10: an integer ratio is exact. -/
theorem clocksPerSample_of_integer {c : Config} {k : Nat} (hc : c.legal) (h : c.clockFreq = k * c.sampleRate)
    (hk : k < 2 ^ 53) : clocksPerSample c = toF64 k := by
  obtain ⟨hlt, hval⟩ := toF64_exact hk
  refine BitVec.eq_of_toNat_eq ?_
  rw [clocksPerSample_toNat hc, h, Nat.mul_right_comm k, Nat.mul_assoc (k * _), ← hval]
  exact roundUnits_exact binary64 (Nat.mul_pos (sampleRate_pos hc) (Nat.two_pow_pos _)) hlt.le

/-- R10: with at least as many samples as clocks per second, the ratio is at most 1.0. -/
theorem clocksPerSample_le_one {c : Config} (hc : c.legal) (h : c.clockFreq ≤ c.sampleRate) :
    (clocksPerSample c).toNat ≤ f64One.toNat := by
  rw [clocksPerSample_toNat hc]
  refine roundUnits_le_of_le_mul (Nat.mul_pos (sampleRate_pos hc) (Nat.two_pow_pos _)) (by decide) ?_
  rw [magUnits_f64One, Nat.mul_comm]
  exact Nat.mul_le_mul_left _ (Nat.mul_le_mul_right _ h)

/-! ## An integer ratio (R87, R96) -/

/-- At the integer ratio `k`, an accumulator at `i` below `k` counts to `k`, where the clock emits and leaves +0.0. -/
theorem sampleClock_of_integer {s : State} {i k : Nat} (hk : k < 2 ^ 53) (hcps : clocksPerSample s.config = toF64 k)
    (hi : i < k) (hs : s.clockCounter = toF64 i) :
    (emits s).toNat = (i + 1) / k ∧ (sampleClock s).1.clockCounter = toF64 ((i + 1) % k) := by
  have hadd : counterAfterAdd s = toF64 (i + 1) := by rw [counterAfterAdd, hs, f64add_toF64_one (hi.trans hk)]
  have hemits : emits s = decide (k ≤ i + 1) := by rw [emits, hadd, hcps, f64ge_toF64 (by omega) hk]
  rw [sampleClock_clockCounter, counterAfterClock, hemits, hadd, hcps]
  rcases Nat.lt_or_eq_of_le (Nat.succ_le_of_lt hi) with hlt | rfl
  · rw [decide_eq_false (by omega), Nat.div_eq_of_lt hlt, Nat.mod_eq_of_lt hlt]
    exact ⟨rfl, rfl⟩
  · rw [decide_eq_true le_rfl, Nat.div_self (by omega), Nat.mod_self, toF64_zero, f64sub_self (toF64_exact hk).1]
    exact ⟨rfl, rfl⟩

/-- The run from an accumulator at `i` below `k`: it emits as often as `k` fits into the clocks counted. -/
theorem runClocks_of_integer {k : Nat} (hk : k < 2 ^ 53) (n : Nat) {s : State} {i : Nat}
    (hcps : clocksPerSample s.config = toF64 k) (hi : i < k) (hs : s.clockCounter = toF64 i) :
    emissions s (runClocks n s).1 (runClocks n s).2 = (i + n) / k ∧
      (runClocks n s).1.clockCounter = toF64 ((i + n) % k) := by
  induction n generalizing s i with
  | zero =>
    rw [emissions_zero, Nat.add_zero, Nat.div_eq_of_lt hi, Nat.mod_eq_of_lt hi]
    exact ⟨rfl, hs⟩
  | succ n ih =>
    obtain ⟨hemits, hcounter⟩ := sampleClock_of_integer hk hcps hi hs
    have hkpos : 0 < k := by omega
    have hnext : clocksPerSample (sampleClock s).1.config = toF64 k := by rw [sampleClock_config, hcps]
    obtain ⟨hem, hcc⟩ := ih hnext (Nat.mod_lt _ hkpos) hcounter
    have hsplit : i + (n + 1) = (i + 1) % k + n + (i + 1) / k * k := by
      have := Nat.mod_add_div' (i + 1) k
      omega
    rw [emissions_succ, hemits, hem, runClocks_succ, hsplit, Nat.add_mul_div_right _ _ hkpos,
      Nat.add_mul_mod_self_right, Nat.add_comm ((i + 1) / k)]
    exact ⟨rfl, hcc⟩

/-- Settles O42: +0.0 is the integer 0, and the ratio is exact. -/
theorem integerRatioEmitsEveryKthClock : Obligations.IntegerRatioEmitsEveryKthClock := by
  intro s k n hc hratio hs
  obtain ⟨hclock, hmax⟩ := hc.1
  have hkpos : 0 < k := Nat.pos_of_ne_zero fun h0 => by rw [hratio, h0, Nat.zero_mul] at hclock; omega
  have hk : k < 2 ^ 53 := by
    have : k ≤ s.config.clockFreq := hratio ▸ Nat.le_mul_of_pos_right k (sampleRate_pos hc)
    omega
  have hrun := runClocks_of_integer hk n (clocksPerSample_of_integer hc hratio hk) hkpos (hs.trans toF64_zero.symm)
  rwa [Nat.zero_add] at hrun

/-! ## A ratio of at most 1.0 (R87, D11) -/

/-- The addition of 1.0 to a legal accumulator gives at least 1.0. -/
theorem one_le_add_one {x : F64} (hx : accumulatorLegal x) :
    units binary64 f64One.toNat ≤ units binary64 (f64add x f64One).toNat := by
  obtain ⟨hfin, hpos⟩ := accumulatorLegal_iff.1 hx
  have hone : 0 < units binary64 f64One.toNat := by
    rw [units_f64One, magUnits_f64One, Nat.cast_pos]
    exact Nat.two_pow_pos _
  have hround : f64One.toNat ≤
      roundUnits binary64 (units binary64 x.toNat + units binary64 f64One.toNat).natAbs 1 := by
    refine le_roundUnits_of_mul_le Nat.one_pos (by decide) ?_
    rw [Nat.mul_one]
    have := units_f64One
    omega
  have hw := roundUnits_lt_signWeight binary64 (units binary64 x.toNat + units binary64 f64One.toNat).natAbs 1
  rw [f64add, addBits_of_finite hfin (by decide), if_neg (by omega), decide_eq_false (by omega),
    toNat_ofNat_packFloat _ hw, units_packFloat _ _ hw, if_neg Bool.false_ne_true, units_f64One, Int.ofNat_le,
    magUnits_le_iff]
  exact hround

/-- D11: at a ratio of at most 1.0 every clock emits. -/
theorem emits_of_upsampling {s : State} (hc : s.config.legal) (h : accumulatorLegal s.clockCounter)
    (hrates : s.config.clockFreq ≤ s.config.sampleRate) : emits s = true := by
  have hle := clocksPerSample_le_one hc hrates
  have hone : f64One.toNat < infMag binary64 := by decide
  obtain ⟨hfin, -⟩ := accumulatorLegal_iff.1 (accumulatorLegal_add_one h)
  have hcps : units binary64 (clocksPerSample s.config).toNat ≤ units binary64 f64One.toNat := by
    rw [units_of_lt_infMag (hle.trans_lt hone), units_of_lt_infMag hone, Int.ofNat_le, magUnits_le_iff]
    exact hle
  rw [emits, counterAfterAdd, f64ge, geBits_of_finite hfin (positive_of_lt_infMag (hle.trans_lt hone)).1,
    decide_eq_true_eq]
  exact hcps.trans (one_le_add_one h)

/-- Every clock of a run emits: each leaves a legal accumulator for the next. -/
theorem runClocks_of_upsampling (n : Nat) {s : State} (hc : s.config.legal) (h : accumulatorLegal s.clockCounter)
    (hrates : s.config.clockFreq ≤ s.config.sampleRate) :
    emissions s (runClocks n s).1 (runClocks n s).2 = n := by
  induction n generalizing s with
  | zero => exact emissions_zero s
  | succ n ih =>
    have hnext : accumulatorLegal (sampleClock s).1.clockCounter := by
      rw [sampleClock_clockCounter]
      exact counterAfterClock_accumulatorLegal hc h
    have hcfg := sampleClock_config s
    rw [emissions_succ, emits_of_upsampling hc h hrates, ih (by rwa [hcfg]) hnext (by rwa [hcfg]), Bool.toNat_true,
      Nat.add_comm]

/-- Settles O43: of the legal numbers, the accumulator alone matters. -/
theorem upsamplingEmitsOnceEveryClock : Obligations.UpsamplingEmitsOnceEveryClock :=
  fun _ n hc ⟨hfin, hge, _⟩ hrates => runClocks_of_upsampling n hc ⟨hfin, hge⟩ hrates

end Sys2Proof.Machine
end

section
/-! The snapshot (45_snapshot_introspection.md R97 to R103): when a byte buffer holds the image of a state, that
`serialize` makes it so, that `deserialize` loads the state whose image it is, and which failure it reports. -/

namespace Sys2Proof.Machine

/-! ## Holding an image (R98, R99) -/

/-- R98, R99: the bytes of `buf` hold every element of `s` at the offset of its field. -/
structure HoldsImage (buf : List Byte) (s : State) : Prop where
  toneReg : ∀ i : Fin 3, memRead buf (1 + 2 * i.val) 2 = s.toneReg[i].toNat
  toneCounter : ∀ i : Fin 3, memRead buf (7 + 2 * i.val) 2 = s.toneCounter[i].toNat
  toneLevel : ∀ i : Fin 3, memRead buf (13 + i.val) 1 = levelByte s.toneOut[i]
  noiseReg : memRead buf 16 1 = s.noiseReg.toNat
  noiseCounter : memRead buf 17 2 = s.noiseCounter.toNat
  noiseShift : memRead buf 19 2 = s.noiseShift.toNat
  noiseBits : memRead buf 21 1 = noiseBitsByte s
  volume : ∀ c : Fin 4, memRead buf (22 + c.val) 1 = s.volume[c].toNat
  latchedChannel : memRead buf 26 1 = s.latchedChannel.val
  latchByte : memRead buf 27 1 = latchTypeByte s.latchedType
  clockDivider : memRead buf 28 4 = s.clockDivider.toNat
  clockCounter : memRead buf 32 8 = s.clockCounter.toNat

theorem levelByte_eq_one {b : Bool} : levelByte b = 1 ↔ b = true := by cases b <;> decide

theorem levelByte_le (b : Bool) : levelByte b ≤ 1 := by cases b <;> decide

theorem latchTypeByte_eq_one {t : LatchType} : latchTypeByte t = 1 ↔ t = .volume := by cases t <;> decide

theorem latchTypeByte_le (t : LatchType) : latchTypeByte t ≤ 1 := by cases t <;> decide

theorem noiseBitsByte_le (s : State) : noiseBitsByte s ≤ 3 := by
  have hout := levelByte_le s.noiseOut
  have htoggle := levelByte_le s.noiseToggle
  unfold noiseBitsByte
  omega

section
variable {buf : List Byte} {s : State}

theorem HoldsImage.toneOut_iff (h : HoldsImage buf s) (i : Fin 3) :
    s.toneOut[i] = true ↔ memRead buf (13 + i.val) 1 = 1 := by
  rw [h.toneLevel, levelByte_eq_one]

theorem HoldsImage.noiseOut_iff (h : HoldsImage buf s) : s.noiseOut = true ↔ memRead buf 21 1 % 2 = 1 := by
  have hout := levelByte_le s.noiseOut
  rw [h.noiseBits, noiseBitsByte, ← levelByte_eq_one]
  omega

theorem HoldsImage.noiseToggle_iff (h : HoldsImage buf s) : s.noiseToggle = true ↔ memRead buf 21 1 / 2 = 1 := by
  have hout := levelByte_le s.noiseOut
  rw [h.noiseBits, noiseBitsByte, ← levelByte_eq_one]
  omega

theorem HoldsImage.latchedType_iff (h : HoldsImage buf s) : s.latchedType = .volume ↔ memRead buf 27 1 = 1 := by
  rw [h.latchByte, latchTypeByte_eq_one]

end

theorem LatchType.eq_of_volume_iff {a b : LatchType} (h : a = .volume ↔ b = .volume) : a = b := by
  cases a <;> cases b <;> simp_all

theorem vector_eq_of_forall_fin {α : Type} {n : Nat} {v w : Vector α n} (h : ∀ i : Fin n, v[i] = w[i]) : v = w :=
  Vector.ext fun i hi => h ⟨i, hi⟩

/-- R103: an image determines every element that is loaded from it. -/
theorem HoldsImage.restored_eq {buf : List Byte} {s t : State} (hs : HoldsImage buf s) (ht : HoldsImage buf t)
    (u : State) : restored s u = restored t u := by
  have toneReg : s.toneReg = t.toneReg :=
    vector_eq_of_forall_fin fun i => BitVec.eq_of_toNat_eq ((hs.toneReg i).symm.trans (ht.toneReg i))
  have toneCounter : s.toneCounter = t.toneCounter :=
    vector_eq_of_forall_fin fun i => BitVec.eq_of_toNat_eq ((hs.toneCounter i).symm.trans (ht.toneCounter i))
  have toneOut : s.toneOut = t.toneOut :=
    vector_eq_of_forall_fin fun i => Bool.eq_iff_iff.2 ((hs.toneOut_iff i).trans (ht.toneOut_iff i).symm)
  have volume : s.volume = t.volume :=
    vector_eq_of_forall_fin fun c => BitVec.eq_of_toNat_eq ((hs.volume c).symm.trans (ht.volume c))
  have noiseReg := BitVec.eq_of_toNat_eq (hs.noiseReg.symm.trans ht.noiseReg)
  have noiseCounter := BitVec.eq_of_toNat_eq (hs.noiseCounter.symm.trans ht.noiseCounter)
  have noiseShift := BitVec.eq_of_toNat_eq (hs.noiseShift.symm.trans ht.noiseShift)
  have noiseOut := Bool.eq_iff_iff.2 (hs.noiseOut_iff.trans ht.noiseOut_iff.symm)
  have noiseToggle := Bool.eq_iff_iff.2 (hs.noiseToggle_iff.trans ht.noiseToggle_iff.symm)
  have latchedChannel := Fin.ext (hs.latchedChannel.symm.trans ht.latchedChannel)
  have latchedType := LatchType.eq_of_volume_iff (hs.latchedType_iff.trans ht.latchedType_iff.symm)
  have clockDivider := BitVec.eq_of_toNat_eq (hs.clockDivider.symm.trans ht.clockDivider)
  have clockCounter := BitVec.eq_of_toNat_eq (hs.clockCounter.symm.trans ht.clockCounter)
  simp only [restored, toneReg, toneCounter, toneOut, volume, noiseReg, noiseCounter, noiseShift, noiseOut,
    noiseToggle, latchedChannel, latchedType, clockDivider, clockCounter]

/-! ## Writing an image (R100) -/

/-- R98: the fields end within the 40 bytes of the image. -/
theorem snapshotFields_end_le (s : State) : ∀ f ∈ snapshotFields s, f.1 + f.2.1 ≤ 40 := by simp [snapshotFields]

theorem toNat_lt_256_pow {w : Nat} (x : BitVec w) {n : Nat} (h : w ≤ 8 * n) : x.toNat < 256 ^ n :=
  calc x.toNat < 2 ^ w := x.isLt
    _ ≤ 2 ^ (8 * n) := Nat.pow_le_pow_right (by decide) h
    _ = 256 ^ n := Nat.pow_mul 2 8 n

/-- R98: each field has bytes enough for its element. -/
theorem snapshotFields_value_lt (s : State) : ∀ f ∈ snapshotFields s, f.2.2 < 256 ^ f.2.1 := by
  have hbits {w n : Nat} (x : BitVec w) : w ≤ 8 * n → x.toNat < 256 ^ n := toNat_lt_256_pow x
  have hlevel (b : Bool) : levelByte b < 256 ^ 1 := (levelByte_le b).trans_lt (by decide)
  simp only [snapshotFields, List.forall_mem_cons]
  refine ⟨hbits _ ?_, hbits _ ?_, hbits _ ?_, hbits _ ?_, hbits _ ?_, hbits _ ?_, hlevel _, hlevel _, hlevel _,
    hbits _ ?_, hbits _ ?_, hbits _ ?_, (noiseBitsByte_le s).trans_lt ?_, hbits _ ?_, hbits _ ?_, hbits _ ?_,
    hbits _ ?_, s.latchedChannel.isLt.trans ?_, (latchTypeByte_le _).trans_lt ?_, hbits _ ?_, hbits _ ?_, by simp⟩
  all_goals decide

section
variable (s : State) {buf : List Byte}

/-- R100: each field reads back as the value written. -/
theorem memRead_writeImage_field (hl : 40 ≤ buf.length) {a n v : Nat} (h : (a, n, v) ∈ snapshotFields s) :
    memRead (writeImage s buf) a n = v := by
  rw [memRead_writeImage s hl h (snapshotFields_end_le s _ h), Nat.mod_eq_of_lt (snapshotFields_value_lt s _ h)]

/-- R98: the version byte. -/
theorem memRead_writeImage_version (hl : 40 ≤ buf.length) : memRead (writeImage s buf) 0 1 = 1 := by
  have hfields : memRead (writeImage s buf) 0 1 = memRead (memWrite buf 0 1 snapshotVersion.toNat) 0 1 :=
    memRead_congr fun k _ hk => writeFields_outside _ _ fun f hf => by
      have := fieldsFrom_mem (snapshotFields_from s) hf
      omega
  rw [hfields, memRead_memWrite _ (by omega)]
  rfl

/-- R100, D18: the bytes beyond the image. -/
theorem writeImage_outside {k : Nat} (h : 40 ≤ k) : (writeImage s buf)[k]? = buf[k]? := by
  rw [writeImage, writeFields_outside _ _ fun f hf => .inr ((snapshotFields_end_le s f hf).trans h),
    memWrite_outside _ _ (by omega)]

theorem writeImage_holdsImage (hl : 40 ≤ buf.length) : HoldsImage (writeImage s buf) s := by
  have hfield {a n v : Nat} : (a, n, v) ∈ snapshotFields s → memRead (writeImage s buf) a n = v :=
    memRead_writeImage_field s hl
  constructor
  case toneReg | toneCounter | toneLevel | volume =>
    intro i
    fin_cases i <;> exact hfield (by simp [snapshotFields])
  all_goals exact hfield (by simp [snapshotFields])

theorem perform_serialize_of_lt (hl : buf.length < 40) :
    perform (.serialize buf) s = .next { s with result := .failed .bufferTooSmall buf } :=
  if_pos hl

theorem perform_serialize_of_le (hl : 40 ≤ buf.length) :
    perform (.serialize buf) s = .next { s with result := .saved (writeImage s buf) } :=
  if_neg (Nat.not_lt.2 hl)

end

/-- Settles O45: the image holds the elements of the state that wrote it. -/
theorem serializeWritesTheImage : Obligations.SerializeWritesTheImage := by
  refine fun buf s => ⟨perform_serialize_of_lt s, fun hl => ?_⟩
  have h := writeImage_holdsImage s hl
  refine ⟨writeImage s buf, perform_serialize_of_le s hl, writeImage_length s buf, fun k => writeImage_outside s,
    memRead_writeImage_version s hl, fun i => ⟨h.toneReg i, h.toneCounter i, h.toneLevel i⟩, h.noiseReg,
    h.noiseCounter, h.noiseShift, ?_, h.volume, h.latchedChannel, ?_, h.clockDivider, h.clockCounter⟩
  · rw [h.noiseBits, noiseBitsByte]
    cases s.noiseToggle <;> rfl
  · rw [h.latchByte]
    cases s.latchedType <;> rfl

/-! ## Checking an image (R101, R102, R108) -/

/-- R102: an i32 in 0 ..= 15. -/
theorem dividerLegal_iff (buf : List Byte) : dividerLegal buf = true ↔ memRead buf 28 4 ≤ 15 := by
  have hlt : memRead buf 28 4 < 256 ^ 4 := memRead_lt buf 28 4
  rw [dividerLegal, decide_eq_true_iff, BitVec.toInt_eq_toNat_bmod, BitVec.toNat_ofNat, Int.bmod_def]
  omega

/-- R102: a finite binary64 that is not less than 0. -/
theorem counterImageLegal_iff (v : Variant) (buf : List Byte) :
    counterImageLegal buf = true ↔ FieldLegal v buf 32 := by
  rw [counterImageLegal, Bool.and_eq_true_iff, FieldLegal]

/-- R102: each check decides whether the field at its offset is legal. -/
theorem check_iff_fieldLegal (v : Variant) (buf : List Byte) :
    ∀ c ∈ imageChecks v buf, (c.2 = true ↔ FieldLegal v buf c.1) := by
  have hnum {p : Prop} [Decidable p] : decide p = true ↔ p := decide_eq_true_iff
  have hbit {n : Nat} : decide (n ≤ 1) = true ↔ n = 0 ∨ n = 1 := hnum.trans Nat.le_one_iff_eq_zero_or_eq_one
  simp only [imageChecks, List.forall_mem_cons]
  exact ⟨hnum, hnum, hnum, hnum, hnum, hnum, hbit, hbit, hbit, hnum, hnum, hnum, hnum, hnum, hnum, hnum, hnum, hnum,
    hbit, dividerLegal_iff buf, counterImageLegal_iff v buf, by simp⟩

/-- R102: every offset with a field has its check. -/
theorem exists_check_of_not_fieldLegal {v : Variant} {buf : List Byte} {o : Nat} (h : ¬ FieldLegal v buf o) :
    ∃ passes, (o, passes) ∈ imageChecks v buf := by
  unfold FieldLegal at h
  split at h
  case h_22 => exact absurd trivial h
  all_goals simp [imageChecks]

/-- R102: the checks stand in offset order. -/
theorem imageChecks_pairwise (v : Variant) (buf : List Byte) : (imageChecks v buf).Pairwise (·.1 < ·.1) :=
  List.pairwise_map.1 (by decide :
    [1, 3, 5, 7, 9, 11, 13, 14, 15, 16, 17, 19, 21, 22, 23, 24, 25, 26, 27, 28, 32].Pairwise (· < ·))

/-- R108: of checks in rising order, the lowest that fails is reported. -/
theorem firstFailure_eq_some_of_lowest {checks : List (Nat × Bool)} {o : Nat} (hs : checks.Pairwise (·.1 < ·.1))
    (ho : (o, false) ∈ checks) (hlow : ∀ c ∈ checks, c.1 < o → c.2 = true) : firstFailure checks = some o := by
  induction checks with
  | nil => cases ho
  | cons c checks ih =>
    obtain ⟨hc, htail⟩ := List.pairwise_cons.1 hs
    obtain rfl | hmem := List.mem_cons.1 ho
    · rfl
    · obtain ⟨p, b⟩ := c
      obtain rfl : b = true := hlow (p, b) List.mem_cons_self (hc (o, false) hmem)
      exact ih htail hmem fun c hm => hlow c (List.mem_cons_of_mem _ hm)

section
variable {v : Variant} {buf : List Byte}

theorem imageError_of_lt (hl : buf.length < 40) : imageError v buf = some .bufferTooSmall := if_pos hl

/-- R101: past the length, the version is looked at. -/
theorem imageError_of_le (hl : 40 ≤ buf.length) :
    imageError v buf = if buf.getD 0 0 ≠ snapshotVersion then some (.unsupportedVersion (buf.getD 0 0))
      else (firstFailure (imageChecks v buf)).map .invalidState :=
  if_neg (Nat.not_lt.2 hl)

theorem imageError_of_version (hl : 40 ≤ buf.length) (hv : memRead buf 0 1 ≠ 1) :
    imageError v buf = some (.unsupportedVersion (BitVec.ofNat 8 (memRead buf 0 1))) := by
  rw [memRead_one] at hv
  rw [memRead_one, BitVec.ofNat_toNat, BitVec.setWidth_eq, imageError_of_le hl,
    if_pos fun h => hv (congrArg BitVec.toNat h)]

/-- R101: past the length and the version, the fields decide. -/
theorem imageError_of_fields (hl : 40 ≤ buf.length) (hv : memRead buf 0 1 = 1) :
    imageError v buf = (firstFailure (imageChecks v buf)).map .invalidState := by
  rw [memRead_one] at hv
  rw [imageError_of_le hl, if_neg (not_not.2 (BitVec.eq_of_toNat_eq hv))]

/-- R108: the lowest offset of a field that is not legal. -/
theorem imageError_of_lowest (hl : 40 ≤ buf.length) (hv : memRead buf 0 1 = 1) {o : Nat}
    (ho : ¬ FieldLegal v buf o) (hlow : ∀ p, p < o → FieldLegal v buf p) :
    imageError v buf = some (.invalidState o) := by
  obtain ⟨passes, hm⟩ := exists_check_of_not_fieldLegal ho
  obtain rfl : passes = false := Bool.eq_false_iff.2 fun h => ho ((check_iff_fieldLegal v buf _ hm).1 h)
  rw [imageError_of_fields hl hv, firstFailure_eq_some_of_lowest (imageChecks_pairwise v buf) hm fun c hc hlt =>
    (check_iff_fieldLegal v buf c hc).2 (hlow c.1 hlt)]
  rfl

theorem imageError_of_fieldsLegal (hl : 40 ≤ buf.length) (hv : memRead buf 0 1 = 1)
    (hf : ∀ o, FieldLegal v buf o) : imageError v buf = none := by
  rw [imageError_of_fields hl hv, firstFailure_eq_none.2 fun c hc => (check_iff_fieldLegal v buf c hc).2 (hf c.1)]
  rfl

end

theorem perform_deserialize_of_error {buf : List Byte} {s : State} {e : Error}
    (h : imageError s.config.variant buf = some e) :
    perform (.deserialize buf) s = .next { s with result := .failed e buf } := by
  rw [perform, doDeserialize, h]
  rfl

theorem perform_deserialize_of_none {buf : List Byte} {s : State} (h : imageError s.config.variant buf = none) :
    perform (.deserialize buf) s = .next (loadImage buf s) := by
  rw [perform, doDeserialize, h]

/-! ## Loading an image (R103) -/

/-- R28: the bound of R102 fits a counter's 11 bits. -/
theorem counterBound_lt {v : Variant} (hv : v.legal) : max 1023 v.toneZeroValue < 2 ^ 11 := by
  obtain ⟨-, hzero, -⟩ := hv
  omega

theorem levelByte_beq_one {n : Nat} (h : n = 0 ∨ n = 1) : levelByte (n == 1) = n := by
  obtain rfl | rfl := h <;> rfl

theorem latchTypeByte_ite {n : Nat} (h : n = 0 ∨ n = 1) :
    latchTypeByte (if n = 1 then .volume else .toneOrNoise) = n := by
  obtain rfl | rfl := h <;> rfl

/-- R103: what is loaded from an image with legal fields is the state whose image it is. -/
theorem loadImage_holdsImage {buf : List Byte} {s : State} (hv : s.config.variant.legal)
    (hf : ∀ o, FieldLegal s.config.variant buf o) : HoldsImage buf (loadImage buf s) := by
  have hbits {w n : Nat} (h : n < 2 ^ w) : n = (BitVec.ofNat w n).toNat := (Nat.mod_eq_of_lt h).symm
  have hcount {n : Nat} (h : n ≤ max 1023 s.config.variant.toneZeroValue) : n = (BitVec.ofNat 11 n).toNat :=
    hbits (h.trans_lt (counterBound_lt hv))
  have hlevel {n : Nat} (h : n = 0 ∨ n = 1) : n = levelByte (n == 1) := (levelByte_beq_one h).symm
  constructor
  case toneReg =>
    exact fun
      | 0 => hbits (Nat.lt_succ_of_le (hf 1))
      | 1 => hbits (Nat.lt_succ_of_le (hf 3))
      | 2 => hbits (Nat.lt_succ_of_le (hf 5))
  case toneCounter =>
    exact fun
      | 0 => hcount (hf 7)
      | 1 => hcount (hf 9)
      | 2 => hcount (hf 11)
  case toneLevel =>
    exact fun
      | 0 => hlevel (hf 13)
      | 1 => hlevel (hf 14)
      | 2 => hlevel (hf 15)
  case noiseReg => exact hbits (Nat.lt_succ_of_le (hf 16))
  case noiseCounter => exact hcount (hf 17)
  case noiseShift => exact hbits (memRead_lt buf 19 2)
  case noiseBits =>
    have h3 : memRead buf 21 1 ≤ 3 := hf 21
    have hout := levelByte_beq_one (n := memRead buf 21 1 % 2) (by omega)
    have htoggle := levelByte_beq_one (n := memRead buf 21 1 / 2 % 2) (by omega)
    show _ = levelByte (memRead buf 21 1 % 2 == 1) + 2 * levelByte (memRead buf 21 1 / 2 % 2 == 1)
    omega
  case volume =>
    exact fun
      | 0 => hbits (Nat.lt_succ_of_le (hf 22))
      | 1 => hbits (Nat.lt_succ_of_le (hf 23))
      | 2 => hbits (Nat.lt_succ_of_le (hf 24))
      | 3 => hbits (Nat.lt_succ_of_le (hf 25))
  case latchedChannel => exact (Nat.mod_eq_of_lt (Nat.lt_succ_of_le (hf 26))).symm
  case latchByte => exact (latchTypeByte_ite (hf 27)).symm
  case clockDivider => exact hbits (Nat.lt_succ_of_le (hf 28))
  case clockCounter => exact hbits (memRead_lt buf 32 8)

/-- R103: a load sets the elements of the image and `buffer_pos`, and nothing else. -/
theorem loadImage_eq_restored (buf : List Byte) (s : State) : loadImage buf s = restored (loadImage buf s) s := rfl

/-- Settles O47: the errors in the order of the checks; where all pass, the image of the state loaded is read. -/
theorem deserializeReportsTheFirstFailure : Obligations.DeserializeReportsTheFirstFailure := by
  refine fun buf s => ⟨fun hl => perform_deserialize_of_error (imageError_of_lt hl),
    fun hl hv => perform_deserialize_of_error (imageError_of_version hl hv),
    fun hl hv o ho hlow => perform_deserialize_of_error (imageError_of_lowest hl hv ho hlow),
    fun hvar hl hv hf => ?_⟩
  have h := loadImage_holdsImage hvar hf
  exact ⟨loadImage buf s, perform_deserialize_of_none (imageError_of_fieldsLegal hl hv hf), rfl,
    fun i => ⟨(h.toneReg i).symm, (h.toneCounter i).symm, h.toneOut_iff i⟩, h.noiseReg.symm, h.noiseCounter.symm,
    h.noiseShift.symm, h.noiseOut_iff, h.noiseToggle_iff, fun c => (h.volume c).symm, h.latchedChannel.symm,
    h.latchedType_iff, h.clockDivider.symm, h.clockCounter.symm, loadImage_eq_restored buf s⟩

/-! ## The round trip (R103) -/

/-- R102: every field of the image of a legal state is legal. -/
theorem HoldsImage.fieldLegal {buf : List Byte} {s : State} (h : HoldsImage buf s) (hr : s.RegistersLegal)
    (hn : s.NumbersLegal) (o : Nat) : FieldLegal s.config.variant buf o := by
  obtain ⟨-, htone, hnoise, hpos, hle, -⟩ := hr
  obtain ⟨hfin, hge, -⟩ := hn
  have hbits {m n w : Nat} {x : BitVec w} (hm : m = x.toNat) (hw : 2 ^ w ≤ n + 1) : m ≤ n :=
    Nat.le_of_lt_succ (hm ▸ x.isLt.trans_le hw)
  have hbit {m n : Nat} (hm : m = n) (hn : n ≤ 1) : m = 0 ∨ m = 1 :=
    Nat.le_one_iff_eq_zero_or_eq_one.1 (hm.trans_le hn)
  unfold FieldLegal
  split
  · exact hbits (h.toneReg 0) (by decide)
  · exact hbits (h.toneReg 1) (by decide)
  · exact hbits (h.toneReg 2) (by decide)
  · exact (h.toneCounter 0).trans_le (htone 0)
  · exact (h.toneCounter 1).trans_le (htone 1)
  · exact (h.toneCounter 2).trans_le (htone 2)
  · exact h.noiseCounter.trans_le hnoise
  · exact hbit (h.toneLevel 0) (levelByte_le _)
  · exact hbit (h.toneLevel 1) (levelByte_le _)
  · exact hbit (h.toneLevel 2) (levelByte_le _)
  · exact hbit h.latchByte (latchTypeByte_le _)
  · exact hbits h.noiseReg (by decide)
  · exact h.noiseShift ▸ ⟨hpos, hle⟩
  · exact h.noiseBits.trans_le (noiseBitsByte_le s)
  · exact h.latchedChannel.trans_le (Nat.le_of_lt_succ s.latchedChannel.isLt)
  · exact hbits (h.volume 0) (by decide)
  · exact hbits (h.volume 1) (by decide)
  · exact hbits (h.volume 2) (by decide)
  · exact hbits (h.volume 3) (by decide)
  · exact hbits h.clockDivider (by decide)
  · rw [h.clockCounter, BitVec.ofNat_toNat, BitVec.setWidth_eq]
    exact ⟨hfin, hge⟩
  · trivial

/-- Settles O46: the image written holds the saved state and also what is loaded from it, so the two agree. -/
theorem savedStateLoadsBack : Obligations.SavedStateLoadsBack := by
  intro s u buf hr hn hvar hl
  have hs : HoldsImage (writeImage s buf) s := writeImage_holdsImage s hl
  have hf : ∀ o, FieldLegal u.config.variant (writeImage s buf) o := hvar ▸ hs.fieldLegal hr hn
  have hu : HoldsImage (writeImage s buf) (loadImage (writeImage s buf) u) :=
    loadImage_holdsImage (hvar ▸ variant_legal hr.1) hf
  have hload : imageError u.config.variant (writeImage s buf) = none :=
    imageError_of_fieldsLegal (by rwa [writeImage_length]) (memRead_writeImage_version s hl) hf
  refine ⟨_, perform_serialize_of_le s hl, ?_⟩
  rw [perform_deserialize_of_none hload, loadImage_eq_restored, hu.restored_eq hs]

end Sys2Proof.Machine
end

section
/-! The introspection accessors (45_snapshot_introspection.md R104, 60_exceptions.md R110). -/

namespace Sys2Proof.Machine

/-- Settles O48: an index is accepted exactly in its range; the accessors without one read a field. -/
theorem introspectionReturnsRegistersOrFaults : Obligations.IntrospectionReturnsRegistersOrFaults := by
  refine fun s => ⟨fun i => ?_, fun ch hch => ?_, fun c => ?_, fun ch hch => ?_, rfl, rfl⟩
  · rw [perform, doToneRegister, channelIndex_val]
    rfl
  · rw [perform, doToneRegister, channelIndex_eq_none.2 (by omega)]
  · rw [perform, doVolumeRegister, channelIndex_val]
    rfl
  · rw [perform, doVolumeRegister, channelIndex_eq_none.2 (by omega)]

end Sys2Proof.Machine
end

section
/-! Errors, faults and refusals (60_exceptions.md R107, R109 to R111): which transactions end in each, and that an error
changes nothing. -/

namespace Sys2Proof.Machine

/-! ## Errors -/

/-- A command returns no value of its own. -/
theorem CommandEffect.result {s t : State} (h : CommandEffect s t) : t.result = s.result :=
  h.frame State.result setLatch_result setToneReg_result setNoiseReg_result setVolume_result

/-- R107, R109: where no error stood before, an error has been raised by `serialize` or `deserialize`. -/
theorem Performed.eq_raise_of_failed {t : Transaction} {s s' : State} {e : Error} {buf : List Byte}
    (hp : Performed t s s') (hs : s.result = .ok) (hf : s'.result = .failed e buf) :
    s' = s.raise e buf ∧ (t = .serialize buf ∨ t = .deserialize buf) := by
  have keeps {u : State} (h : u.result = s.result) : u.result ≠ .failed e buf := by simp [h, hs]
  cases hp with
  | raise ht => cases hf; exact ⟨rfl, ht⟩
  | ret _ hr => exact absurd hf (hr e buf)
  | write he => exact absurd hf (keeps he.result)
  | clock => exact absurd hf (keeps (clockStep_result s))
  | resetBuffer | reset | setGain _ | load _ => exact absurd hf (keeps rfl)
  | construct _ | run _ | generateSamples _ | mixedBuffer => cases hf

/-- Settles O50: taking a transaction clears the result, so the error is the one this transaction raised. -/
theorem errorsChangeNothing : Obligations.ErrorsChangeNothing := by
  intro s s' t rest e buf hpend hs hf
  exact (performed_of_step hpend hs).eq_raise_of_failed (accept_result s rest) hf

/-! ## Faults and refusals -/

/-- R110, R111: an outcome that the operands of `t` allow. -/
inductive StopsAsListed (t : Transaction) : Host.Outcome State Fault Refusal → Prop where
  | completes (hw : t.wf = true) (s : State) : StopsAsListed t (.next s)
  | faults (hi : t.indexLegal = false) (f : Fault) : StopsAsListed t (.fault f)
  | refuses (hw : t.wf = false) (hi : t.indexLegal = true) (r : Refusal) : StopsAsListed t (.refused r)

/-- R110: legal operands include a channel index in range. -/
theorem indexLegal_of_wf {t : Transaction} (h : t.wf = true) : t.indexLegal = true := by
  cases t with
  | channelBuffer _ | toneRegister _ | volumeRegister _ => exact h
  | construct _ _ _ _ | write _ | clock | run _ | generateSamples _ | resetBuffer | reset | sample | setGain _ | getGain
  | clocksPerSample | mixedBuffer | serializeSize | serialize _ | deserialize _ | noiseRegister | noiseShiftRegister
  | volumeTable | secondAgent => rfl

/-- R110: an accessor that completes on each index in its range, and faults outside it. -/
theorem stopsAsListed_accessor {n : Nat} {accessor : Int → Transaction} {s : State}
    (hw : ∀ ch, (accessor ch).wf = decide (channelLegal n ch))
    (hi : ∀ ch, (accessor ch).indexLegal = decide (channelLegal n ch))
    (hnext : ∀ c : Fin n, ∃ s', perform (accessor c.val) s = .next s')
    (hfault : ∀ ch, ¬ channelLegal n ch → ∃ f, perform (accessor ch) s = .fault f) (ch : Int) :
    StopsAsListed (accessor ch) (perform (accessor ch) s) := by
  by_cases h : channelLegal n ch
  · obtain ⟨k, rfl⟩ := Int.eq_ofNat_of_zero_le h.1
    obtain ⟨s', hs'⟩ := hnext ⟨k, by omega⟩
    rw [hs']
    exact .completes ((hw k).trans (decide_eq_true h)) s'
  · obtain ⟨f, hf⟩ := hfault ch h
    rw [hf]
    exact .faults ((hi ch).trans (decide_eq_false h)) f

/-- R111: a transaction that completes where its guard `p` holds, and is refused elsewhere. -/
theorem stopsAsListed_of_guard {t : Transaction} {p : Prop} [Decidable p] {o : Host.Outcome State Fault Refusal}
    (hw : t.wf = decide p) (hi : t.indexLegal = true) (hnext : p → ∃ s', o = .next s')
    (hrefused : ¬ p → ∃ r, o = .refused r) : StopsAsListed t o := by
  by_cases h : p
  · obtain ⟨s', rfl⟩ := hnext h
    exact .completes (hw.trans (decide_eq_true h)) s'
  · obtain ⟨r, rfl⟩ := hrefused h
    exact .refuses (hw.trans (decide_eq_false h)) hi r

/-- R110, R111: every transaction, in every state. -/
theorem perform_stopsAsListed (t : Transaction) (s : State) : StopsAsListed t (perform t s) := by
  cases t with
  | construct _ _ _ _ | setGain _ =>
    exact stopsAsListed_of_guard rfl rfl (fun h => ⟨_, if_pos h⟩) (fun h => ⟨_, if_neg h⟩)
  | run n =>
    obtain ⟨-, -, hnext, hrefused, -⟩ := generateSamplesIsResetThenRun n s
    exact stopsAsListed_of_guard rfl rfl hnext fun h => ⟨_, hrefused (by omega)⟩
  | generateSamples n =>
    obtain ⟨-, -, hnext, hrefused, -⟩ := generateSamplesIsResetThenRun n (resetBuffer s)
    exact stopsAsListed_of_guard rfl rfl hnext fun h => ⟨_, hrefused (by omega)⟩
  | channelBuffer ch =>
    obtain ⟨hview, hfault⟩ := channelBufferReturnsTheValidElements s
    exact stopsAsListed_accessor (fun _ => rfl) (fun _ => rfl) (fun c => (hview c).imp' _ fun _ h => h.1)
      (fun ch h => ⟨_, hfault ch (by omega)⟩) ch
  | toneRegister ch =>
    obtain ⟨hnext, hfault, -⟩ := introspectionReturnsRegistersOrFaults s
    exact stopsAsListed_accessor (fun _ => rfl) (fun _ => rfl) (fun i => ⟨_, hnext i⟩)
      (fun ch h => ⟨_, hfault ch (by omega)⟩) ch
  | volumeRegister ch =>
    obtain ⟨-, -, hnext, hfault, -⟩ := introspectionReturnsRegistersOrFaults s
    exact stopsAsListed_accessor (fun _ => rfl) (fun _ => rfl) (fun c => ⟨_, hnext c⟩)
      (fun ch h => ⟨_, hfault ch (by omega)⟩) ch
  | write b =>
    obtain ⟨u, hu, -⟩ := exec_effect (decodeByte b) s
    rw [perform, doWrite, hu]
    exact .completes rfl u
  | serialize buf =>
    rw [perform, doSerialize]
    split <;> exact .completes rfl _
  | deserialize buf =>
    rcases doDeserialize_cases buf s with ⟨e, -, h⟩ | ⟨-, h⟩ <;> rw [perform, h] <;> exact .completes rfl _
  | secondAgent => exact .refuses rfl rfl _
  | clock | resetBuffer | reset | sample | getGain | clocksPerSample | mixedBuffer | serializeSize | noiseRegister
  | noiseShiftRegister | volumeTable => exact .completes rfl _

/-- Settles O51: the operands allow one outcome only, and a step has the outcome of its transaction. -/
theorem transactionsStopExactlyWhereTheRulesSay : Obligations.TransactionsStopExactlyWhereTheRulesSay := by
  intro s t rest hpend
  rw [step_of_pending_cons hpend]
  have hstops := perform_stopsAsListed t (s.accept rest)
  generalize perform t (s.accept rest) = o at hstops ⊢
  cases hstops with
  | completes hw u => simp [hw, indexLegal_of_wf hw]
  | faults hi f =>
    have hw : t.wf = false := Bool.eq_false_iff.2 fun h => by simp [indexLegal_of_wf h] at hi
    simp [hw, hi]
  | refuses hw hi r => simp [hw, hi]

end Sys2Proof.Machine
end

section
/-! Construction and reset (70_reset_and_hazards.md R118, R119): a new block is in a state that `reset()` leaves as it
is, so its elements have the values that `reset()` gives. -/

namespace Sys2Proof.Machine

theorem perform_reset (s : State) : perform .reset s = .next (resetState s) := rfl

/-- Settles O52: `resetState` sets each element of R119 and no other. -/
theorem resetReturnsTheDefaults : Obligations.ResetReturnsTheDefaults := by
  intro s
  have htone (i : Fin 3) : (resetState s).toneReg[i] = 0 ∧ (resetState s).toneCounter[i] = 0 ∧
      (resetState s).toneOut[i] = false := by simp [resetState]
  have hvolume (c : Fin 4) : (resetState s).volume[c] = 15 := by simp [resetState]
  exact ⟨_, perform_reset s, htone, rfl, rfl, rfl, rfl, rfl, hvolume, rfl, rfl, rfl, rfl, rfl, rfl⟩

/-- What a construction of configuration `c` leaves: the new block, and the host's queue going on (log entry 4). -/
def constructedState (c : Config) (queue : List Transaction) : State :=
  { State.constructed c with pending := queue }

theorem perform_construct {cf sr cap : Int} {v : Variant}
    (h : parameterLegal cf ∧ parameterLegal sr ∧ parameterLegal cap ∧ v.legal) (s : State) :
    perform (.construct cf sr cap v) s = .next (constructedState ⟨cf.toNat, sr.toNat, cap.toNat, v⟩ s.pending) :=
  if_pos h

theorem perform_construct_of_not_legal {cf sr cap : Int} {v : Variant}
    (h : ¬ (parameterLegal cf ∧ parameterLegal sr ∧ parameterLegal cap ∧ v.legal)) (s : State) :
    perform (.construct cf sr cap v) s = .refused .illegalConstruction := if_neg h

@[simp] theorem resetState_constructedState (c : Config) (queue : List Transaction) :
    resetState (constructedState c queue) = constructedState c queue := rfl

/-- D7: every element of the new buffers is +0.0. -/
theorem read_constructedState (c : Config) (queue : List Transaction) (ch : Fin 4) (k : Nat) :
    Memory.read (constructedState c queue).chBuf[ch] k = 0 ∧ Memory.read (constructedState c queue).mixBuf k = 0 := by
  simp [constructedState, State.constructed, Memory.unlisted]

/-- Settles O53: `reset()` leaves the new block as it is, so R119's elements are as O52 says. -/
theorem constructionGivesTheDefaults : Obligations.ConstructionGivesTheDefaults := by
  refine fun cf sr cap v s => ⟨fun hcf hsr hcap hv => ?_, fun h => perform_construct_of_not_legal h s⟩
  refine ⟨_, perform_construct ⟨hcf, hsr, hcap, hv⟩ s, ?_⟩
  obtain ⟨t, hreset, htone, hnoiseReg, hnoiseCounter, hshift, htoggle, hout, hvolume, hchannel, htype, hdivider,
    hcounter, hpos, -⟩ := resetReturnsTheDefaults (constructedState ⟨cf.toNat, sr.toNat, cap.toNat, v⟩ s.pending)
  rw [perform_reset, resetState_constructedState] at hreset
  cases hreset
  exact ⟨rfl, rfl, htone, hvolume, hnoiseReg, hnoiseCounter, hshift ▸ lfsrInitial_toNat hv, htoggle, hout, hchannel,
    htype, hdivider, hcounter, hpos, read_constructedState _ _, perform_reset _⟩

end Sys2Proof.Machine
end

section
/-! Rounding to nearest (00_scope.md; D9, D10; log entry 15): the quotient that `roundUnits` takes is nearest
among the multiples of its divisor, hence the rounded magnitude among all magnitudes, hence the packed rounding of an
exact result among the finite values of its format, and each operation is one such rounding. -/

namespace Sys2Proof.Machine

/-! ## Nearest quotients -/

/-- The quotient is off by at most half the divisor, and by exactly half only where it is even. -/
theorem divNearestEven_error (n : Nat) {d : Nat} (hd : 0 < d) :
    2 * n ≤ 2 * (divNearestEven n d * d) + d ∧ 2 * (divNearestEven n d * d) ≤ 2 * n + d ∧
    (2 * n = 2 * (divNearestEven n d * d) + d ∨ 2 * (divNearestEven n d * d) = 2 * n + d →
      divNearestEven n d % 2 = 0) := by
  have hn := Nat.div_add_mod' n d
  have hr := Nat.mod_lt n hd
  have hup := Nat.add_one_mul (n / d) d
  unfold divNearestEven
  split_ifs
  · omega
  · omega
  · rcases Nat.mod_two_eq_zero_or_one (n / d) with h | h
    · rw [h, Nat.add_zero]; omega
    · rw [h]; omega

/-- No multiple of the divisor is nearer than the quotient's, and none as near but for an even quotient. -/
theorem divNearestEven_nearest (n k : Nat) {d : Nat} (hd : 0 < d) :
    |(n : ℤ) - divNearestEven n d * d| ≤ |(n : ℤ) - k * d| ∧
    (|(n : ℤ) - divNearestEven n d * d| = |(n : ℤ) - k * d| → k ≠ divNearestEven n d → divNearestEven n d % 2 = 0) := by
  obtain ⟨hlow, hhigh, heven⟩ := divNearestEven_error n hd
  generalize divNearestEven n d = q at *
  simp only [Int.abs_eq_natAbs]
  rcases Nat.lt_trichotomy k q with h | rfl | h
  · have hstep : (k + 1) * d ≤ q * d := Nat.mul_le_mul_right d h
    rw [Nat.add_one_mul] at hstep
    omega
  · exact ⟨le_rfl, fun _ h => absurd rfl h⟩
  · have hstep : (q + 1) * d ≤ k * d := Nat.mul_le_mul_right d h
    rw [Nat.add_one_mul] at hstep
    omega

/-! ## Nearest magnitudes -/

/-- The magnitude `r` is at least as near to `num / den` units as `m` is, and is even where another `m` is as near. -/
def NearestEven (f : FloatFormat) (num den r m : Nat) : Prop :=
  |(num : ℤ) - magUnits f r * den| ≤ |(num : ℤ) - magUnits f m * den| ∧
    (|(num : ℤ) - magUnits f r * den| = |(num : ℤ) - magUnits f m * den| → m ≠ r → r % 2 = 0)

/-- A magnitude whose value is no multiple of `2 ^ s` lies below the normalised significands at shift `s`. -/
theorem magUnits_lt_of_not_dvd {f : FloatFormat} {s m : Nat} (h : ¬ 2 ^ s ∣ magUnits f m) :
    magUnits f m < 2 ^ f.fracBits * 2 ^ s := by
  obtain ⟨t, n, rfl, hn, ht⟩ := exists_shift f m
  rw [magUnits_shift f hn.le ht] at h ⊢
  have hts : t + 1 ≤ s := Nat.lt_of_not_le fun hle => h (dvd_mul_of_dvd_right (Nat.pow_dvd_pow 2 hle) n)
  calc n * 2 ^ t < 2 * 2 ^ f.fracBits * 2 ^ t := Nat.mul_lt_mul_of_pos_right hn (Nat.two_pow_pos t)
    _ = 2 ^ f.fracBits * 2 ^ (t + 1) := by ring
    _ ≤ 2 ^ f.fracBits * 2 ^ s := Nat.mul_le_mul_left _ (Nat.pow_le_pow_right Nat.two_pos hts)

/-- A shift other than 0 puts the least normalised significand at or below the quotient. -/
theorem normalised_le_of_roundShift {f : FloatFormat} {num den : Nat} (h : roundShift f num den ≠ 0) :
    2 ^ f.fracBits * 2 ^ roundShift f num den * den ≤ num := by
  have hsum : f.fracBits + roundShift f num den = Nat.log2 (num / den) := by unfold roundShift at h ⊢; omega
  have hq : num / den ≠ 0 := fun h0 => h (by simp [roundShift, h0])
  rw [← pow_add, hsum]
  exact (Nat.mul_le_mul_right den (Nat.log2_self_le hq)).trans (Nat.div_mul_le_self num den)

/-- The significand is the nearest one at its shift. -/
theorem roundSignificand_nearest (f : FloatFormat) (num k : Nat) {den : Nat} (hd : 0 < den) :
    |(num : ℤ) - (roundSignificand f num den * 2 ^ roundShift f num den : Nat) * den| ≤
      |(num : ℤ) - (k * 2 ^ roundShift f num den : Nat) * den| ∧
    (|(num : ℤ) - (roundSignificand f num den * 2 ^ roundShift f num den : Nat) * den| =
      |(num : ℤ) - (k * 2 ^ roundShift f num den : Nat) * den| →
        k ≠ roundSignificand f num den → roundSignificand f num den % 2 = 0) := by
  have hassoc (j : Nat) : ((j * 2 ^ roundShift f num den : Nat) : ℤ) * den =
      j * (den * 2 ^ roundShift f num den : Nat) := by push_cast; ring
  rw [hassoc, hassoc]
  exact divNearestEven_nearest num k (Nat.mul_pos hd (Nat.two_pow_pos _))

/-- Rounding before it is capped at infinity is to the nearest magnitude, ties to even: a magnitude whose value is a
multiple of the shift's power is a significand at that shift, and any other is farther off than the least normalised
one. -/
theorem nearestEven_uncapped {f : FloatFormat} (hf : 0 < f.fracBits) (num m : Nat) {den : Nat} (hd : 0 < den) :
    NearestEven f num den (roundShift f num den * 2 ^ f.fracBits + roundSignificand f num den) m := by
  have hvalue := magUnits_round f num den
  by_cases hdvd : 2 ^ roundShift f num den ∣ magUnits f m
  · obtain ⟨k, hk⟩ := hdvd
    rw [mul_comm] at hk
    have heven : 2 ∣ roundShift f num den * 2 ^ f.fracBits := dvd_mul_of_dvd_right (dvd_pow_self 2 hf.ne') _
    rw [NearestEven, hvalue, hk]
    refine (roundSignificand_nearest f num k hd).imp_right fun htie heq hne => ?_
    have hk' : k ≠ roundSignificand f num den := by
      rintro rfl
      exact hne ((magUnits_strictMono f).injective (hk.trans hvalue.symm))
    have := htie heq hk'
    omega
  · have hbelow := Nat.mul_lt_mul_of_pos_right (magUnits_lt_of_not_dvd hdvd) hd
    have hleast := normalised_le_of_roundShift (f := f) (num := num) (den := den) fun h0 => hdvd (by simp [h0])
    have hnear := (roundSignificand_nearest f num (2 ^ f.fracBits) hd).1
    rw [NearestEven, hvalue]
    simp only [Int.abs_eq_natAbs] at hnear ⊢
    omega

/-- Capping a nearest magnitude at `top` leaves it nearest among the magnitudes up to `top`. -/
theorem nearestEven_min {f : FloatFormat} {num den r top m : Nat} (hd : 0 < den) (hm : m ≤ top)
    (hnear : ∀ k, NearestEven f num den r k) : NearestEven f num den (min r top) m := by
  rcases Nat.lt_or_ge top r with hr | hr
  · have habove := Nat.mul_lt_mul_of_pos_right (magUnits_strictMono f hr) hd
    have htop := (hnear top).1
    rw [min_eq_right hr.le, NearestEven]
    rcases Nat.eq_or_lt_of_le hm with rfl | hlt
    · exact ⟨le_rfl, fun _ hne => absurd rfl hne⟩
    · have hbelow := Nat.mul_lt_mul_of_pos_right (magUnits_strictMono f hlt) hd
      simp only [Int.abs_eq_natAbs] at htop ⊢
      omega
  · rw [min_eq_left hr]
    exact hnear m

/-- Rounding is to the nearest magnitude up to the infinity, ties to even. -/
theorem roundUnits_nearestEven {f : FloatFormat} (hf : 0 < f.fracBits) (num : Nat) {den m : Nat} (hd : 0 < den)
    (hm : m ≤ infMag f) : NearestEven f num den (roundUnits f num den) m :=
  nearestEven_min hd hm fun k => nearestEven_uncapped hf num k hd

/-- Settles O32: the capped rounding is nearest, in any format with a fraction field. -/
theorem roundingIsToNearestEven : Obligations.RoundingIsToNearestEven := by
  rintro f (rfl | rfl) num den m hd hm
  · exact roundUnits_nearestEven (by decide) num hd hm
  · exact roundUnits_nearestEven (by decide) num hd hm

/-! ## Nearest values -/

/-- The number of magnitude `n` that is negative where `neg` says so. -/
def signed (neg : Bool) (n : Nat) : ℤ := if neg then -n else n

theorem units_eq_signed (f : FloatFormat) (x : Nat) :
    units f x = signed (isNegative f x) (magUnits f (magnitude f x)) :=
  rfl

@[simp] theorem abs_signed (neg : Bool) (n : Nat) : |signed neg n| = n := by cases neg <;> simp [signed]

theorem signed_mul_signed (a b : Bool) (m n : Nat) : signed a m * signed b n = signed (a != b) (m * n) := by
  cases a <;> cases b <;> simp [signed]

theorem signed_natAbs (z : ℤ) : signed (decide (z < 0)) z.natAbs = z := by
  by_cases h : z < 0
  · rw [signed, decide_eq_true h, if_pos rfl]; omega
  · rw [signed, decide_eq_false h, if_neg Bool.false_ne_true]; omega

/-- The pattern `r` is one rounding of the exact number `exact / den`, packed with a sign of that number. -/
def IsRounding (f : FloatFormat) (r : Nat) (exact : ℤ) (den : Nat) : Prop :=
  ∃ neg num, r = packFloat f neg (roundUnits f num den) ∧ exact = signed neg num

namespace IsRounding

variable {f : FloatFormat} {r den : Nat} {exact : ℤ}

/-- No finite value is nearer than the rounding: against a value on the same side of zero this is the rounding of
magnitudes, and on the other side the distance only grows. -/
theorem nearest (h : IsRounding f r exact den) (hf : 0 < f.fracBits) (hd : 0 < den) {w : Nat}
    (hw : isFinite f w = true) : |units f r * den - exact| ≤ |units f w * den - exact| := by
  obtain ⟨neg, num, rfl, rfl⟩ := h
  have hr : units f (packFloat f neg (roundUnits f num den)) = signed neg (magUnits f (roundUnits f num den)) :=
    units_packFloat f neg (roundUnits_lt_signWeight f num den)
  calc |units f (packFloat f neg (roundUnits f num den)) * den - signed neg num|
      = |(num : ℤ) - magUnits f (roundUnits f num den) * den| := by
        rw [hr]
        cases neg
        case false => exact abs_sub_comm _ _
        case true => simp only [signed, if_true]; congr 1; ring
    _ ≤ |(num : ℤ) - magUnits f (magnitude f w) * den| :=
        (roundUnits_nearestEven hf num hd (of_decide_eq_true hw).le).1
    _ = |(|units f w * den| - |signed neg num|)| := by
        rw [abs_mul, units_eq_signed, abs_signed, abs_signed, Nat.abs_cast, abs_sub_comm]
    _ ≤ |units f w * den - signed neg num| := abs_abs_sub_abs_le_abs_sub _ _

/-- A rounding is a pattern of the format's width. -/
theorem toNat_ofNat (h : IsRounding f r exact den) {width : Nat} (hw : 2 * signWeight f = 2 ^ width) :
    (BitVec.ofNat width r).toNat = r := by
  obtain ⟨neg, num, rfl, -⟩ := h
  exact (BitVec.toNat_ofNat _ _).trans
    (Nat.mod_eq_of_lt (hw ▸ packFloat_lt f neg (roundUnits_lt_signWeight f num den)))

theorem f32_nearest (h : IsRounding binary32 r exact den) (hd : 0 < den) {w : F32} (hw : f32Finite w = true) :
    |units binary32 (BitVec.ofNat 32 r).toNat * den - exact| ≤ |units binary32 w.toNat * den - exact| := by
  rw [h.toNat_ofNat (by decide)]
  exact h.nearest (by decide) hd hw

theorem f64_nearest (h : IsRounding binary64 r exact den) (hd : 0 < den) {w : F64} (hw : f64Finite w = true) :
    |units binary64 (BitVec.ofNat 64 r).toNat * den - exact| ≤ |units binary64 w.toNat * den - exact| := by
  rw [h.toNat_ofNat (by decide)]
  exact h.nearest (by decide) hd hw

end IsRounding

/-! ## The operations -/

section
variable {f : FloatFormat} {x y : Nat} (hx : isFinite f x = true) (hy : isFinite f y = true) (nan : Nat)
include hx hy

theorem addBits_isRounding : IsRounding f (addBits f nan x y) (units f x + units f y) 1 := by
  rw [addBits_of_finite hx hy]
  split
  case isTrue hzero => exact ⟨_, 0, by rw [roundUnits_zero f Nat.one_pos], by simp [hzero, signed]⟩
  case isFalse => exact ⟨_, _, rfl, (signed_natAbs _).symm⟩

theorem subBits_isRounding : IsRounding f (subBits f nan x y) (units f x - units f y) 1 := by
  rw [subBits_of_finite hy, sub_eq_add_neg, ← units_negateBits]
  exact addBits_isRounding hx (negateBits_isFinite hy) nan

theorem mulBits_isRounding : IsRounding f (mulBits f nan x y) (units f x * units f y) (2 ^ unitShift f) :=
  ⟨_, _, mulBits_of_finite hx hy nan, signed_mul_signed _ _ _ _⟩

/-- The exact quotient stands over the divisor's magnitude, so its numerator carries the divisor's sign. -/
theorem divBits_isRounding (h0 : magnitude f y ≠ 0) :
    IsRounding f (divBits f nan x y) (units f x * signed (isNegative f y) (2 ^ unitShift f))
      (magUnits f (magnitude f y)) :=
  ⟨_, _, divBits_of_finite hx hy h0 nan, signed_mul_signed _ _ _ _⟩

end

/-- Distances over a divisor are those over its magnitude, with the divisor's sign moved to the other side. -/
theorem abs_mul_units_sub (f : FloatFormat) (y c : Nat) (a b : ℤ) :
    |a * units f y - b * c| = |a * magUnits f (magnitude f y) - b * signed (isNegative f y) c| := by
  rw [units_eq_signed]
  cases isNegative f y
  case false => rfl
  case true => simp only [signed, if_true]; rw [← abs_neg]; congr 1; ring

theorem unitShift_binary32 : unitShift binary32 = 149 := rfl

theorem unitShift_binary64 : unitShift binary64 = 1074 := rfl

/-- Settles O33: each operation on finite operands is one rounding of its exact result. -/
theorem floatOperationsAreNearest : Obligations.FloatOperationsAreNearest := by
  refine ⟨?add32, ?mul32, ?add64, ?sub64, ?div64⟩
  case add32 =>
    intro x y w hx hy hw _
    simpa only [f32add, Nat.cast_one, mul_one] using
      (addBits_isRounding hx hy (nan32 0 x y)).f32_nearest Nat.one_pos hw
  case mul32 =>
    intro x y w hx hy hw _
    simpa only [f32mul, unitShift_binary32, Nat.cast_pow, Nat.cast_ofNat] using
      (mulBits_isRounding hx hy (nan32 2 x y)).f32_nearest (Nat.two_pow_pos _) hw
  case add64 =>
    intro x y w hx hy hw _
    simpa only [f64add, Nat.cast_one, mul_one] using
      (addBits_isRounding hx hy (nan64 0 x y)).f64_nearest Nat.one_pos hw
  case sub64 =>
    intro x y w hx hy hw _
    simpa only [f64sub, Nat.cast_one, mul_one] using
      (subBits_isRounding hx hy (nan64 1 x y)).f64_nearest Nat.one_pos hw
  case div64 =>
    intro x y w hx hy hw _ h0
    have hshift : ((2 ^ unitShift binary64 : Nat) : ℤ) = 2 ^ 1074 := by
      rw [unitShift_binary64, Nat.cast_pow, Nat.cast_ofNat]
    have hmag : magnitude binary64 y.toNat ≠ 0 := fun h => h0 (by simp [units, h])
    have hden : 0 < magUnits binary64 (magnitude binary64 y.toNat) :=
      Nat.pos_of_ne_zero fun h => hmag ((magUnits_eq_zero binary64).1 h)
    rw [← hshift, abs_mul_units_sub, abs_mul_units_sub]
    exact (divBits_isRounding hx hy (nan64 3 x y) hmag).f64_nearest hden hw

end Sys2Proof.Machine
end
